-- ==== Sys2Proof/Word.lean ====
section
/-! DEFINITION. The machine word and the byte (spec 00_scope.md R7, 10_state.md R20 and R34). -/

namespace Sys2Proof

/-- A general register, PC, an address or a memory word: 32 bits (`XLEN`, R5 and R7). -/
abbrev Word := BitVec 32

/-- The addressable unit of memory: 8 bits (R34). -/
abbrev Byte := BitVec 8

end Sys2Proof
end

