-- ==== Sys2Proof/Config.lean ====
section
/-! DEFINITION. What the spec leaves open and gives no value: opaque constants with no body, so that no proof can
know what they are (assumption log 1, 2, 3, 4, 10 and 12). -/

namespace Sys2Proof.Config

/-- A free bit, drawn anew each time at the model's draw counter: flag C after a shift or rotation by zero places
(`SHIFT0_C`, 40_alu.md R133, decision D9). -/
opaque freeBit : Nat → Bool

/-- A free 32-bit word, drawn anew each time at the model's draw counter: the value of a read of a unit address whose
read column is "-" (60_exceptions.md R230) and the state of a unit after one of the corner cases of U9. -/
opaque freeWord : Nat → Word

/-- What the memory byte at an address holds while neither the program image nor an instruction has written it
(20_memory.md R61: a draw, never zero).  It is a function of the address because reads of memory are idempotent
(R59). -/
opaque unwrittenByte : Nat → Byte

/-- `SBC_BIAS` (00_scope.md R5, 40_alu.md R127): OPEN, false is 0 and true is 1.  Only `State.reset` reads it. -/
opaque sbcBias : Bool

/-- `DMA_INT_KIND` of the reset platform's FRISC-DMA (R5, R211): OPEN, true is non-maskable.  Only `State.reset`
reads it. -/
opaque dmaNonMaskable : Bool

end Sys2Proof.Config
end

