-- ==== Sys2Proof/Syntax.lean ====
section
/-! DEFINITION. The instructions: one constructor per row of spec/opcode_table.json (54 rows, 29 mnemonics), at the
level 00_scope.md R13 describes.  A constant is the signed number the assembler text writes; WellFormed.lean says
which numbers an instruction can carry. -/

namespace Sys2Proof

/-- The general registers R0 to R7 (10_state.md R20); R7 is the stack pointer (R21). -/
inductive Reg where
  | r0 | r1 | r2 | r3 | r4 | r5 | r6 | r7
deriving DecidableEq, Repr

/-- The distinct condition tests of 43_control.md R181: fourteen tests of the flags and the always true one.  Two
suffixes of one test share a constructor (30_encoding.md R90): `_N`/`_M`, `_NN`/`_P`, `_C`/`_UGE`, `_NC`/`_ULT`,
`_Z`/`_EQ`, `_NZ`/`_NE`. -/
inductive Cond where
  | always | n | nn | c | nc | v | nv | z | nz | ule | ugt | slt | sle | sge | sgt
deriving DecidableEq, Repr

/-- The instructions, operands in the order of the assembler (30_encoding.md R99). -/
inductive Instr where
  | orReg (src1 src2 dest : Reg)
  | orImm (src1 : Reg) (imm : Int) (dest : Reg)
  | andReg (src1 src2 dest : Reg)
  | andImm (src1 : Reg) (imm : Int) (dest : Reg)
  | xorReg (src1 src2 dest : Reg)
  | xorImm (src1 : Reg) (imm : Int) (dest : Reg)
  | addReg (src1 src2 dest : Reg)
  | addImm (src1 : Reg) (imm : Int) (dest : Reg)
  | adcReg (src1 src2 dest : Reg)
  | adcImm (src1 : Reg) (imm : Int) (dest : Reg)
  | subReg (src1 src2 dest : Reg)
  | subImm (src1 : Reg) (imm : Int) (dest : Reg)
  | sbcReg (src1 src2 dest : Reg)
  | sbcImm (src1 : Reg) (imm : Int) (dest : Reg)
  | rotlReg (src1 src2 dest : Reg)
  | rotlImm (src1 : Reg) (imm : Int) (dest : Reg)
  | rotrReg (src1 src2 dest : Reg)
  | rotrImm (src1 : Reg) (imm : Int) (dest : Reg)
  | shlReg (src1 src2 dest : Reg)
  | shlImm (src1 : Reg) (imm : Int) (dest : Reg)
  | shrReg (src1 src2 dest : Reg)
  | shrImm (src1 : Reg) (imm : Int) (dest : Reg)
  | ashrReg (src1 src2 dest : Reg)
  | ashrImm (src1 : Reg) (imm : Int) (dest : Reg)
  | cmpReg (src1 src2 : Reg)
  | cmpImm (src1 : Reg) (imm : Int)
  | moveReg (src2 dest : Reg)
  | moveImm (imm : Int) (dest : Reg)
  | moveFromSr (dest : Reg)
  | moveToSrReg (src2 : Reg)
  | moveToSrImm (imm : Int)
  | loadAbs (dest : Reg) (adr : Int)
  | loadOff (dest adrreg : Reg) (offset : Int)
  | loadhAbs (dest : Reg) (adr : Int)
  | loadhOff (dest adrreg : Reg) (offset : Int)
  | loadbAbs (dest : Reg) (adr : Int)
  | loadbOff (dest adrreg : Reg) (offset : Int)
  | storeAbs (src1 : Reg) (adr : Int)
  | storeOff (src1 adrreg : Reg) (offset : Int)
  | storehAbs (src1 : Reg) (adr : Int)
  | storehOff (src1 adrreg : Reg) (offset : Int)
  | storebAbs (src1 : Reg) (adr : Int)
  | storebOff (src1 adrreg : Reg) (offset : Int)
  | push (src1 : Reg)
  | pop (dest : Reg)
  | jpAbs (cond : Cond) (adr : Int)
  | jpReg (cond : Cond) (adrreg : Reg)
  | callAbs (cond : Cond) (adr : Int)
  | callReg (cond : Cond) (adrreg : Reg)
  | jr (cond : Cond) (offset : Int)
  | ret (cond : Cond)
  | reti (cond : Cond)
  | retn (cond : Cond)
  | halt (cond : Cond)
deriving DecidableEq, Repr

/-- The one constant an instruction carries (src2 as a number, adr20 or offset20), where its form has one. -/
def Instr.constant : Instr → Option Int
  | .orImm _ k _ | .andImm _ k _ | .xorImm _ k _ | .addImm _ k _ | .adcImm _ k _ | .subImm _ k _ | .sbcImm _ k _
  | .rotlImm _ k _ | .rotrImm _ k _ | .shlImm _ k _ | .shrImm _ k _ | .ashrImm _ k _ | .cmpImm _ k
  | .moveImm k _ | .moveToSrImm k
  | .loadAbs _ k | .loadhAbs _ k | .loadbAbs _ k | .storeAbs _ k | .storehAbs _ k | .storebAbs _ k
  | .loadOff _ _ k | .loadhOff _ _ k | .loadbOff _ _ k | .storeOff _ _ k | .storehOff _ _ k | .storebOff _ _ k
  | .jpAbs _ k | .callAbs _ k | .jr _ k => some k
  | .orReg .. | .andReg .. | .xorReg .. | .addReg .. | .adcReg .. | .subReg .. | .sbcReg ..
  | .rotlReg .. | .rotrReg .. | .shlReg .. | .shrReg .. | .ashrReg .. | .cmpReg ..
  | .moveReg .. | .moveFromSr .. | .moveToSrReg .. | .push .. | .pop ..
  | .jpReg .. | .callReg .. | .ret .. | .reti .. | .retn .. | .halt .. => none

end Sys2Proof
end

