-- ==== Sys2Proof/WellFormed.lean ====
section
/-! DEFINITION. Which instruction terms an instruction word can carry: the constant must fit the one 20-bit signed
field (00_scope.md R11, 30_encoding.md R91), and the assembler's target of JR must be within its reach (R93). -/

namespace Sys2Proof

/-- A number that "se mora moći dobiti predznačnim proširenjem 20-bitnog broja": -524288 to 524287 (R11). -/
def fits20 (k : Int) : Bool := decide (-524288 ≤ k) && decide (k ≤ 524287)

/-- An instruction is well formed when its constant, if its form has one, fits 20 signed bits.  Registers and
conditions are in range by their types. -/
def Instr.wellFormed (i : Instr) : Bool :=
  match i.constant with
  | some k => fits20 k
  | none => true

/-- The assembler's conversion of JR's operand `adr` into `offset20`, for a JR at address `a` (30_encoding.md R93):
`adr - (a + 4)`, refused when that difference is outside -524288 to 524287. -/
def assembleJr (cond : Cond) (a adr : Nat) : Option Instr :=
  let offset : Int := (adr : Int) - ((a : Int) + 4)
  if fits20 offset then some (.jr cond offset) else none

end Sys2Proof
end

