-- ==== Sys2Proof/Decode.lean ====
section
/-! DEFINITION. The decoder and the encoder of the one 32-bit instruction word (30_encoding.md R81 to R96 and the
decoding procedure of R104).  The decoder is total and names why it rejects a word. -/

namespace Sys2Proof

/-- Why a word is no instruction (30_encoding.md R94 to R96). -/
inductive DecodeError where
  /-- fewer than four bytes were given -/
  | truncated
  /-- operation code 01110, 01111, 11100, 11101 or 11110 (R94) -/
  | reservedOpcode
  /-- a bit that must be 0 is not (R95) -/
  | mustBeZero
  /-- condition code 1111 (R96) -/
  | reservedCondition
  /-- format RT with kind 10 (R96) -/
  | reservedReturnKind
  /-- MOVE with both `srcSR` and `dstSR` (R96) -/
  | moveSrToSr
  /-- `MOVE SR, dest` with m = 1 (R96) -/
  | moveSrConstant
  /-- a form with the wrong value of bit 26: JR with m = 0, or PUSH, POP, RET, RETI, RETN, HALT with m = 1 (R86, R87, R96) -/
  | wrongMode
  /-- CMP, or MOVE to SR, with a `dest` field that is not 000 (R84, R96) -/
  | destNotZero
deriving DecidableEq, Repr

/-- Register numbers are three bits (R83). -/
def Reg.ofBits (b : BitVec 3) : Reg :=
  match b.toNat with
  | 0 => .r0 | 1 => .r1 | 2 => .r2 | 3 => .r3 | 4 => .r4 | 5 => .r5 | 6 => .r6 | _ => .r7

def Reg.toBits : Reg → BitVec 3
  | .r0 => 0b000#3 | .r1 => 0b001#3 | .r2 => 0b010#3 | .r3 => 0b011#3
  | .r4 => 0b100#3 | .r5 => 0b101#3 | .r6 => 0b110#3 | .r7 => 0b111#3

/-- Condition codes (R90); 1111 is reserved (R96). -/
def Cond.ofBits (b : BitVec 4) : Option Cond :=
  match b.toNat with
  | 0 => some .always | 1 => some .n | 2 => some .nn | 3 => some .c | 4 => some .nc | 5 => some .v
  | 6 => some .nv | 7 => some .z | 8 => some .nz | 9 => some .ule | 10 => some .ugt | 11 => some .slt
  | 12 => some .sle | 13 => some .sge | 14 => some .sgt | _ => none

def Cond.toBits : Cond → BitVec 4
  | .always => 0b0000#4 | .n => 0b0001#4 | .nn => 0b0010#4 | .c => 0b0011#4 | .nc => 0b0100#4
  | .v => 0b0101#4 | .nv => 0b0110#4 | .z => 0b0111#4 | .nz => 0b1000#4 | .ule => 0b1001#4
  | .ugt => 0b1010#4 | .slt => 0b1011#4 | .sle => 0b1100#4 | .sge => 0b1101#4 | .sgt => 0b1110#4

/-! ### Fields of the word, by the spec's bit numbers -/

/-- `op` = w[31:27] (R81). -/
def fieldOp (w : Word) : BitVec 5 := w.extractLsb' 27 5
/-- `m` = w[26] (R81). -/
def fieldMode (w : Word) : Bool := w.extractLsb' 26 1 == 1#1
/-- `dest`, or `reg` of formats L and S: w[25:23] (R82, R85, R86). -/
def fieldDest (w : Word) : Reg := Reg.ofBits (w.extractLsb' 23 3)
/-- `src1` of format A, `adrreg` of format L: w[22:20] (R82, R85). -/
def fieldSrc1 (w : Word) : Reg := Reg.ofBits (w.extractLsb' 20 3)
/-- `src2` of format A, `adrreg` of format J: w[19:17] (R82, R87). -/
def fieldSrc2 (w : Word) : Reg := Reg.ofBits (w.extractLsb' 17 3)
/-- `imm20` = w[19:0], read as a signed number (R91). -/
def fieldImm (w : Word) : Int := (w.extractLsb' 0 20).toInt
/-- `cond` = w[25:22] (R87). -/
def fieldCond (w : Word) : Option Cond := Cond.ofBits (w.extractLsb' 22 4)

/-- The bits `hi` = lo + len - 1 down to `lo` are all 0. -/
def bitsZero (w : Word) (lo len : Nat) : Bool := w.extractLsb' lo len == 0#len

/-! ### The formats -/

/-- Format A (R82). -/
def decodeAlu (reg : Reg → Reg → Reg → Instr) (imm : Reg → Int → Reg → Instr) (w : Word) :
    Except DecodeError Instr :=
  if fieldMode w then .ok (imm (fieldSrc1 w) (fieldImm w) (fieldDest w))
  else if bitsZero w 0 17 then .ok (reg (fieldSrc1 w) (fieldSrc2 w) (fieldDest w))
  else .error .mustBeZero

/-- CMP: format A with the `dest` field 000 (R82, R96). -/
def decodeCmp (w : Word) : Except DecodeError Instr :=
  if !bitsZero w 23 3 then .error .destNotZero
  else if fieldMode w then .ok (.cmpImm (fieldSrc1 w) (fieldImm w))
  else if bitsZero w 0 17 then .ok (.cmpReg (fieldSrc1 w) (fieldSrc2 w))
  else .error .mustBeZero

/-- Format MV (R84): bit 22 is 0, bit 21 is `srcSR`, bit 20 is `dstSR`. -/
def decodeMove (w : Word) : Except DecodeError Instr :=
  match (w.extractLsb' 20 3).toNat with
  | 0b000 =>
    if fieldMode w then .ok (.moveImm (fieldImm w) (fieldDest w))
    else if bitsZero w 0 17 then .ok (.moveReg (fieldSrc2 w) (fieldDest w))
    else .error .mustBeZero
  | 0b010 =>
    if fieldMode w then .error .moveSrConstant
    else if bitsZero w 0 20 then .ok (.moveFromSr (fieldDest w))
    else .error .mustBeZero
  | 0b001 =>
    if !bitsZero w 23 3 then .error .destNotZero
    else if fieldMode w then .ok (.moveToSrImm (fieldImm w))
    else if bitsZero w 0 17 then .ok (.moveToSrReg (fieldSrc2 w))
    else .error .mustBeZero
  | 0b011 => .error .moveSrToSr
  | _ => .error .mustBeZero

/-- Format L (R85). -/
def decodeTransfer (abs : Reg → Int → Instr) (off : Reg → Reg → Int → Instr) (w : Word) : Except DecodeError Instr :=
  if fieldMode w then .ok (off (fieldDest w) (fieldSrc1 w) (fieldImm w))
  else if bitsZero w 20 3 then .ok (abs (fieldDest w) (fieldImm w))
  else .error .mustBeZero

/-- Format S (R86). -/
def decodeStack (mk : Reg → Instr) (w : Word) : Except DecodeError Instr :=
  if fieldMode w then .error .wrongMode
  else if bitsZero w 0 23 then .ok (mk (fieldDest w))
  else .error .mustBeZero

/-- Format J for JP and CALL (R87). -/
def decodeJump (abs : Cond → Int → Instr) (reg : Cond → Reg → Instr) (w : Word) : Except DecodeError Instr :=
  match fieldCond w with
  | none => .error .reservedCondition
  | some cc =>
    if !bitsZero w 20 2 then .error .mustBeZero
    else if fieldMode w then .ok (abs cc (fieldImm w))
    else if bitsZero w 0 17 then .ok (reg cc (fieldSrc2 w))
    else .error .mustBeZero

/-- Format J for JR, which exists only with m = 1 (R87). -/
def decodeJr (w : Word) : Except DecodeError Instr :=
  match fieldCond w with
  | none => .error .reservedCondition
  | some cc =>
    if !fieldMode w then .error .wrongMode
    else if !bitsZero w 20 2 then .error .mustBeZero
    else .ok (.jr cc (fieldImm w))

/-- Format RT (R87): the kind is w[1:0]. -/
def decodeReturn (w : Word) : Except DecodeError Instr :=
  match fieldCond w with
  | none => .error .reservedCondition
  | some cc =>
    if fieldMode w then .error .wrongMode
    else if !bitsZero w 2 20 then .error .mustBeZero
    else
      match (w.extractLsb' 0 2).toNat with
      | 0b00 => .ok (.ret cc)
      | 0b01 => .ok (.reti cc)
      | 0b11 => .ok (.retn cc)
      | _ => .error .reservedReturnKind

/-- Format H (R87). -/
def decodeHalt (w : Word) : Except DecodeError Instr :=
  match fieldCond w with
  | none => .error .reservedCondition
  | some cc =>
    if fieldMode w then .error .wrongMode
    else if bitsZero w 0 22 then .ok (.halt cc)
    else .error .mustBeZero

/-- The decoder of R104, by the operation codes of R88. -/
def decodeWord (w : Word) : Except DecodeError Instr :=
  match (fieldOp w).toNat with
  | 0b00000 => decodeMove w
  | 0b00001 => decodeAlu .orReg .orImm w
  | 0b00010 => decodeAlu .andReg .andImm w
  | 0b00011 => decodeAlu .xorReg .xorImm w
  | 0b00100 => decodeAlu .addReg .addImm w
  | 0b00101 => decodeAlu .adcReg .adcImm w
  | 0b00110 => decodeAlu .subReg .subImm w
  | 0b00111 => decodeAlu .sbcReg .sbcImm w
  | 0b01000 => decodeAlu .rotlReg .rotlImm w
  | 0b01001 => decodeAlu .rotrReg .rotrImm w
  | 0b01010 => decodeAlu .shlReg .shlImm w
  | 0b01011 => decodeAlu .shrReg .shrImm w
  | 0b01100 => decodeAlu .ashrReg .ashrImm w
  | 0b01101 => decodeCmp w
  | 0b10000 => decodeStack .pop w
  | 0b10001 => decodeStack .push w
  | 0b10010 => decodeTransfer .loadbAbs .loadbOff w
  | 0b10011 => decodeTransfer .storebAbs .storebOff w
  | 0b10100 => decodeTransfer .loadhAbs .loadhOff w
  | 0b10101 => decodeTransfer .storehAbs .storehOff w
  | 0b10110 => decodeTransfer .loadAbs .loadOff w
  | 0b10111 => decodeTransfer .storeAbs .storeOff w
  | 0b11000 => decodeJump .jpAbs .jpReg w
  | 0b11001 => decodeJump .callAbs .callReg w
  | 0b11010 => decodeJr w
  | 0b11011 => decodeReturn w
  | 0b11111 => decodeHalt w
  | _ => .error .reservedOpcode

/-! ### Bytes: an instruction word is stored little-endian (R81, 20_memory.md R52) -/

/-- The word whose four bytes, lowest address first, are `b0 b1 b2 b3`. -/
def wordOfBytes (b0 b1 b2 b3 : Byte) : Word :=
  BitVec.ofNat 32 (b0.toNat + 2 ^ 8 * b1.toNat + 2 ^ 16 * b2.toNat + 2 ^ 24 * b3.toNat)

/-- Byte `i` of a word, 0 the one at the lowest address. -/
def byteOfWord (w : Word) (i : Nat) : Byte := w.extractLsb' (8 * i) 8

/-- The decoder on the bytes of memory, lowest address first; bytes after the fourth are not looked at. -/
def decodeBytes : List Byte → Except DecodeError Instr
  | b0 :: b1 :: b2 :: b3 :: _ => decodeWord (wordOfBytes b0 b1 b2 b3)
  | _ => .error .truncated

/-- The instruction the decoder reads from the table word `w` of `nbits` bits, laid out as the hardware stores it. -/
def decodeTableWord (nbits w : Nat) : Option Instr :=
  let v : Word := BitVec.ofNat 32 (w % 2 ^ nbits)
  match decodeBytes [byteOfWord v 0, byteOfWord v 1, byteOfWord v 2, byteOfWord v 3] with
  | .ok i => some i
  | .error _ => none

/-! ### The encoder, from the same tables: every word is twelve high bits and twenty low bits -/

/-- The 20-bit field that carries a constant (R91). -/
def imm20 (k : Int) : BitVec 20 := BitVec.ofInt 20 k

/-- Formats A, MV, L and S: `op`, `m`, w[25:23], w[22:20], w[19:0]. -/
def layoutReg (op : BitVec 5) (m : BitVec 1) (f1 f2 : BitVec 3) (low : BitVec 20) : Word :=
  BitVec.ofNat 32 (2 ^ 27 * op.toNat + 2 ^ 26 * m.toNat + 2 ^ 23 * f1.toNat + 2 ^ 20 * f2.toNat + low.toNat)

/-- Formats J, RT and H: `op`, `m`, w[25:22] = `cond`, w[21:20] = 0, w[19:0]. -/
def layoutCond (op : BitVec 5) (m : BitVec 1) (cc : Cond) (low : BitVec 20) : Word :=
  BitVec.ofNat 32 (2 ^ 27 * op.toNat + 2 ^ 26 * m.toNat + 2 ^ 22 * cc.toBits.toNat + low.toNat)

/-- A register number in w[19:17] over zeros in w[16:0]. -/
def lowReg (r : Reg) : BitVec 20 := BitVec.ofNat 20 (2 ^ 17 * r.toBits.toNat)

def encAluReg (op : BitVec 5) (a b d : Reg) : Word := layoutReg op 0#1 d.toBits a.toBits (lowReg b)
def encAluImm (op : BitVec 5) (a : Reg) (k : Int) (d : Reg) : Word := layoutReg op 1#1 d.toBits a.toBits (imm20 k)
def encAbs (op : BitVec 5) (r : Reg) (k : Int) : Word := layoutReg op 0#1 r.toBits 0#3 (imm20 k)
def encOff (op : BitVec 5) (r a : Reg) (k : Int) : Word := layoutReg op 1#1 r.toBits a.toBits (imm20 k)

/-- The word of an instruction (R82 to R91). -/
def encode : Instr → Word
  | .orReg a b d => encAluReg 0b00001#5 a b d
  | .orImm a k d => encAluImm 0b00001#5 a k d
  | .andReg a b d => encAluReg 0b00010#5 a b d
  | .andImm a k d => encAluImm 0b00010#5 a k d
  | .xorReg a b d => encAluReg 0b00011#5 a b d
  | .xorImm a k d => encAluImm 0b00011#5 a k d
  | .addReg a b d => encAluReg 0b00100#5 a b d
  | .addImm a k d => encAluImm 0b00100#5 a k d
  | .adcReg a b d => encAluReg 0b00101#5 a b d
  | .adcImm a k d => encAluImm 0b00101#5 a k d
  | .subReg a b d => encAluReg 0b00110#5 a b d
  | .subImm a k d => encAluImm 0b00110#5 a k d
  | .sbcReg a b d => encAluReg 0b00111#5 a b d
  | .sbcImm a k d => encAluImm 0b00111#5 a k d
  | .rotlReg a b d => encAluReg 0b01000#5 a b d
  | .rotlImm a k d => encAluImm 0b01000#5 a k d
  | .rotrReg a b d => encAluReg 0b01001#5 a b d
  | .rotrImm a k d => encAluImm 0b01001#5 a k d
  | .shlReg a b d => encAluReg 0b01010#5 a b d
  | .shlImm a k d => encAluImm 0b01010#5 a k d
  | .shrReg a b d => encAluReg 0b01011#5 a b d
  | .shrImm a k d => encAluImm 0b01011#5 a k d
  | .ashrReg a b d => encAluReg 0b01100#5 a b d
  | .ashrImm a k d => encAluImm 0b01100#5 a k d
  | .cmpReg a b => layoutReg 0b01101#5 0#1 0#3 a.toBits (lowReg b)
  | .cmpImm a k => layoutReg 0b01101#5 1#1 0#3 a.toBits (imm20 k)
  | .moveReg b d => layoutReg 0b00000#5 0#1 d.toBits 0b000#3 (lowReg b)
  | .moveImm k d => layoutReg 0b00000#5 1#1 d.toBits 0b000#3 (imm20 k)
  | .moveFromSr d => layoutReg 0b00000#5 0#1 d.toBits 0b010#3 0#20
  | .moveToSrReg b => layoutReg 0b00000#5 0#1 0#3 0b001#3 (lowReg b)
  | .moveToSrImm k => layoutReg 0b00000#5 1#1 0#3 0b001#3 (imm20 k)
  | .loadAbs r k => encAbs 0b10110#5 r k
  | .loadOff r a k => encOff 0b10110#5 r a k
  | .loadhAbs r k => encAbs 0b10100#5 r k
  | .loadhOff r a k => encOff 0b10100#5 r a k
  | .loadbAbs r k => encAbs 0b10010#5 r k
  | .loadbOff r a k => encOff 0b10010#5 r a k
  | .storeAbs r k => encAbs 0b10111#5 r k
  | .storeOff r a k => encOff 0b10111#5 r a k
  | .storehAbs r k => encAbs 0b10101#5 r k
  | .storehOff r a k => encOff 0b10101#5 r a k
  | .storebAbs r k => encAbs 0b10011#5 r k
  | .storebOff r a k => encOff 0b10011#5 r a k
  | .push r => layoutReg 0b10001#5 0#1 r.toBits 0#3 0#20
  | .pop r => layoutReg 0b10000#5 0#1 r.toBits 0#3 0#20
  | .jpAbs cc k => layoutCond 0b11000#5 1#1 cc (imm20 k)
  | .jpReg cc r => layoutCond 0b11000#5 0#1 cc (lowReg r)
  | .callAbs cc k => layoutCond 0b11001#5 1#1 cc (imm20 k)
  | .callReg cc r => layoutCond 0b11001#5 0#1 cc (lowReg r)
  | .jr cc k => layoutCond 0b11010#5 1#1 cc (imm20 k)
  | .ret cc => layoutCond 0b11011#5 0#1 cc 0b00#20
  | .reti cc => layoutCond 0b11011#5 0#1 cc 0b01#20
  | .retn cc => layoutCond 0b11011#5 0#1 cc 0b11#20
  | .halt cc => layoutCond 0b11111#5 0#1 cc 0#20

/-- The four bytes of an instruction, lowest address first (R81). -/
def encodeBytes (i : Instr) : List Byte :=
  [byteOfWord (encode i) 0, byteOfWord (encode i) 1, byteOfWord (encode i) 2, byteOfWord (encode i) 3]

end Sys2Proof
end

