-- ==== Sys2Proof/Machine/State.lean ====
section
/-! DEFINITION. The state of the machine as plain data (10_state.md R20 to R40, 60_exceptions.md R230 to R256), the
faults and refusals, and the state after reset.  The operations on it are in Ops.lean, Units.lean and Flags.lean. -/

namespace Sys2Proof.Machine

/-- The general registers R0 to R7, 32 bits each (R20). -/
structure RegFile where
  r0 : Word
  r1 : Word
  r2 : Word
  r3 : Word
  r4 : Word
  r5 : Word
  r6 : Word
  r7 : Word
deriving DecidableEq, Repr

/-- One range of addresses that the platform backs with memory, part of `MEM_MAP` (20_memory.md R50, R60). -/
structure Region where
  base : Nat
  size : Nat
deriving DecidableEq, Repr

/-- What the platform fixes and the spec leaves OPEN or takes as an argument (00_scope.md R5): the memory map,
`SBC_BIAS` (true is 1), `UNIT_BLOCKS_UNTIL_EOS` and `IIF_BLOCKS_MASKABLE`.  No step changes it. -/
structure Params where
  regions : List Region
  sbcBias : Bool
  eosBlocks : Bool
  iifBlocks : Bool
deriving DecidableEq, Repr

/-- A FRISC-CT at base address `base` (60_exceptions.md R232, R233): CR bits 2 to 0, LR, DC, the status flip-flop and
`waitEOS` (R236).  `wild` is set by a corner case the spec leaves without a value (U9): the unit is then an
unconstrained environment agent. -/
structure Ct where
  base : Word
  cr : BitVec 3
  lr : BitVec 16
  dc : BitVec 16
  status : Bool
  waitEos : Bool
  wild : Bool
deriving DecidableEq, Repr

/-- A FRISC-PIO at base address `base` (R241, R242): CR bits 23:16 (ACTIVE), 15:8 (MASK) and 4:0, the data register
DR, the eight lines to the outside world, the status flip-flop, `waitEOS`, and `wild` as in `Ct`. -/
structure Pio where
  base : Word
  active : Byte
  mask : Byte
  ctl : BitVec 5
  dr : Byte
  lines : Byte
  status : Bool
  waitEos : Bool
  wild : Bool
deriving DecidableEq, Repr

/-- A FRISC-DMA at base address `base` (R251, R252): source and destination address, data counter, CR bits 3 to 0,
the status flip-flop, `busy`, the interrupt it is wired to (`DMA_INT_KIND`, R211), and `wild` as in `Ct`. -/
structure Dma where
  base : Word
  src : Word
  dst : Word
  cnt : Word
  cr : BitVec 4
  status : Bool
  busy : Bool
  nonMaskable : Bool
  wild : Bool
deriving DecidableEq, Repr

/-- What the outside world, or a unit on its own, does at a boundary between two instructions (R230, decision D24).
Units are named by their place in the state's lists; a name of no unit does nothing. -/
inductive Event where
  /-- one pulse on the count input of a FRISC-CT (R234) -/
  | ctPulse (k : Nat)
  /-- the external device has taken the byte a FRISC-PIO in output mode offers (R243) -/
  | pioTaken (k : Nat)
  /-- the outside puts a byte on the lines of a FRISC-PIO; in input mode `strobe` says that the handshake delivered it
  (R243) -/
  | pioInput (k : Nat) (b : Byte) (strobe : Bool)
  /-- a FRISC-DMA moves one datum, the external unit (if one takes part) being ready (R253, R254) -/
  | dmaDatum (k : Nat)
  /-- a unit that a corner case of U9 has made unconstrained takes any state -/
  | ctWild (k : Nat) (u : Ct)
  | pioWild (k : Nat) (u : Pio)
  | dmaWild (k : Nat) (u : Dma)
deriving DecidableEq, Repr

/-- The environment's choices at one boundary: the events, and whether an acceptable interrupt request is left
pending for one more instruction (R214: "the model may either accept an acceptable request or execute one more
instruction"). -/
structure Boundary where
  events : List Event
  hold : Bool
deriving DecidableEq, Repr

/-- The machine's state.  `inputs` and `draws` are the model's own: the environment's choices still to come, one entry
per step (no entry: no event, no request left pending), and the number of free values drawn so far. -/
structure State where
  regs : RegFile
  pc : Word
  sr : BitVec 8
  iif : Bool
  halted : Bool
  mem : List Host.Cell
  cts : List Ct
  pios : List Pio
  dmas : List Dma
  params : Params
  inputs : List Boundary
  draws : Nat
deriving DecidableEq, Repr

/-- Why a step stops.  Each is a `ModelFault` of the spec: an outcome of the model, not an event of the hardware
(00_scope.md R8, 60_exceptions.md R210).  All are safe: the model stops where the hardware would go on somehow. -/
inductive Fault where
  /-- Raised by an access (load, store, stack access, fetch, interrupt entry, DMA) to an address that the platform backs
  with neither memory nor a unit (20_memory.md R61, U14).  Safe. -/
  | unmappedAddress (addr : Word)
  /-- Raised by LOADB, LOADH, STOREB and STOREH to a unit's address (20_memory.md R62, U13).  Safe. -/
  | narrowDeviceAccess (addr : Word)
  /-- Raised by the step when the fetched word is no instruction (30_encoding.md R94 to R96, U7).  Safe. -/
  | undefinedInstruction (why : DecodeError)
deriving DecidableEq, Repr

/-- Why an instruction is refused. -/
inductive Refusal where
  /-- Raised only by an arm of `exec` whose instruction has no meaning yet; no arm does.  Safe. -/
  | notModelled (mnemonic : String)
deriving DecidableEq, Repr

/-- The outcome of one step of this machine. -/
abbrev StepOutcome := Host.Outcome State Fault Refusal

/-- The machine right after reset (10_state.md R40, 70_reset_and_hazards.md R280): PC = 0, GIE = 0, IIF = 1, not
halted, SR[7:5] = 0, every CR, status flip-flop, `waitEOS` and `busy` 0, memory with nothing listed.  The spec gives
no value for R0 to R7, N, C, V, Z, LR, DC, DR, the lines and the DMA registers: the model's value is 0 (assumption
log 5).  The platform (one unit of each kind, memory everywhere else) is the model's choice (log 6); `SBC_BIAS` and
`DMA_INT_KIND` stay open (log 1 and 2). -/
def State.reset : State where
  regs := ⟨0, 0, 0, 0, 0, 0, 0, 0⟩
  pc := 0x00000000#32
  sr := 0
  iif := true
  halted := false
  mem := []
  cts := [⟨0xFFFF0000#32, 0, 0, 0, false, false, false⟩]
  pios := [⟨0xFFFF1000#32, 0, 0, 0, 0, 0, false, false, false⟩]
  dmas := [⟨0xFFFF2000#32, 0, 0, 0, 0, false, false, Config.dmaNonMaskable, false⟩]
  params := ⟨[⟨0, 0x100000000⟩], Config.sbcBias, true, false⟩
  inputs := []
  draws := 0

end Sys2Proof.Machine
end

