-- ==== Sys2Proof/Machine/Flags.lean ====
section
/-! DEFINITION. The status register's bits (10_state.md R27 to R30), every flag computation of 40_alu.md, the shift and
rotation results, and the condition table (43_control.md R181). -/

namespace Sys2Proof.Machine

/-- The four condition flags. -/
structure Flags where
  n : Bool
  c : Bool
  v : Bool
  z : Bool
deriving DecidableEq, Repr

/-! ### SR: bit 4 GIE, bit 3 Z, bit 2 V, bit 1 C, bit 0 N (R27) -/

def State.flagN (s : State) : Bool := s.sr.getLsbD 0
def State.flagC (s : State) : Bool := s.sr.getLsbD 1
def State.flagV (s : State) : Bool := s.sr.getLsbD 2
def State.flagZ (s : State) : Bool := s.sr.getLsbD 3
def State.gie (s : State) : Bool := s.sr.getLsbD 4

def State.flags (s : State) : Flags := ⟨s.flagN, s.flagC, s.flagV, s.flagZ⟩

/-- SR with the four flags replaced; GIE and bits 7 to 5 keep their values. -/
def srWithFlags (sr : BitVec 8) (f : Flags) : BitVec 8 :=
  (sr &&& 0xF0#8) ||| (if f.z then 0x08#8 else 0#8) ||| (if f.v then 0x04#8 else 0#8)
    ||| (if f.c then 0x02#8 else 0#8) ||| (if f.n then 0x01#8 else 0#8)

/-- SR with GIE replaced; the flags and bits 7 to 5 keep their values. -/
def srWithGie (sr : BitVec 8) (b : Bool) : BitVec 8 :=
  if b then sr ||| 0x10#8 else sr &&& 0xEF#8

def State.setFlags (s : State) (f : Flags) : State := { s with sr := srWithFlags s.sr f }
def State.setGie (s : State) (b : Bool) : State := { s with sr := srWithGie s.sr b }

/-! ### Arithmetic: exact integers, narrowed at the end (R121, R122) -/

/-- `AddFlags(a, b, cin)` of R121: the 32-bit sum and the flags. -/
def addFlags (a b : Word) (cin : Bool) : Word × Flags :=
  let u : Nat := a.toNat + b.toNat + cin.toNat
  let i : Int := a.toInt + b.toInt + cin.toNat
  let r : Word := BitVec.ofNat 32 u
  (r, { n := r.msb
        c := decide (2 ^ 32 ≤ u)
        v := decide (i < -2147483648) || decide (2147483647 < i)
        z := r == 0#32 })

/-- `SubFlags(a, b, adj)` of R122: C is 1 when there is no borrow. -/
def subFlags (a b : Word) (adj : Int) : Word × Flags :=
  let u : Int := (a.toNat : Int) - b.toNat + adj
  let i : Int := a.toInt - b.toInt + adj
  let r : Word := BitVec.ofInt 32 u
  (r, { n := r.msb
        c := decide (0 ≤ u)
        v := decide (i < -2147483648) || decide (2147483647 < i)
        z := r == 0#32 })

/-- The adjustment of SBC: `cin - SBC_BIAS` (R127). -/
def sbcAdjust (cin bias : Bool) : Int := (cin.toNat : Int) - bias.toNat

/-- The flags of a result with C given and V cleared: AND, OR, XOR with C = 0 (R129 to R131), the shifts and
rotations with C the exit bit (R133). -/
def logicFlags (carry : Bool) (r : Word) : Flags := { n := r.msb, c := carry, v := false, z := r == 0#32 }

/-! ### Shifts and rotations (R132 to R138) -/

inductive ShiftKind where
  | shl | shr | ashr | rotl | rotr
deriving DecidableEq, Repr

/-- The result of shifting or rotating `a` by `count` places: the closed forms of R134 to R138.  The count is the
whole unsigned value of src2 (R132). -/
def shiftValue (kind : ShiftKind) (a : Word) (count : Nat) : Word :=
  match kind with
  | .shl => if count ≤ 32 then a <<< count else 0#32
  | .shr => if count ≤ 32 then a >>> count else 0#32
  | .ashr => if count ≤ 31 then a.sshiftRight count else if a.msb then 0xFFFFFFFF#32 else 0#32
  | .rotl => a.rotateLeft (count % 32)
  | .rotr => a.rotateRight (count % 32)

/-- The exit bit of the last of `count` steps, for a count of at least 1 (R133 to R138). -/
def shiftExit (kind : ShiftKind) (a : Word) (count : Nat) : Bool :=
  match kind with
  | .shl => if count ≤ 32 then a.getLsbD (32 - count) else false
  | .shr => if count ≤ 32 then a.getLsbD (count - 1) else false
  | .ashr => if count ≤ 31 then a.getLsbD (count - 1) else a.msb
  | .rotl => (shiftValue .rotl a count).getLsbD 0
  | .rotr => (shiftValue .rotr a count).getLsbD 31

/-- One step of one place, and the bit that leaves (the table of R133). -/
def shiftStep (kind : ShiftKind) (v : Word) : Word × Bool :=
  match kind with
  | .shl => (v <<< 1, v.getLsbD 31)
  | .shr => (v >>> 1, v.getLsbD 0)
  | .ashr => ((v &&& 0x80000000#32) ||| (v >>> 1), v.getLsbD 0)
  | .rotl => ((v <<< 1) ||| (v >>> 31), v.getLsbD 31)
  | .rotr => ((v <<< 31) ||| (v >>> 1), v.getLsbD 0)

/-- `ShiftOp` of R133: `count` steps; the exit bit is that of the last step, and there is none without a step. -/
def shiftSteps (kind : ShiftKind) (a : Word) : Nat → Word × Option Bool
  | 0 => (a, none)
  | k + 1 =>
    let r := shiftStep kind (shiftSteps kind a k).1
    (r.1, some r.2)

/-! ### The condition table (R181) -/

/-- `cond(c)` against the current flags. -/
def Flags.holds (f : Flags) : Cond → Bool
  | .always => true
  | .n => f.n
  | .nn => !f.n
  | .c => f.c
  | .nc => !f.c
  | .v => f.v
  | .nv => !f.v
  | .z => f.z
  | .nz => !f.z
  | .ule => !f.c || f.z
  | .ugt => f.c && !f.z
  | .slt => f.n ^^ f.v
  | .sle => (f.n ^^ f.v) || f.z
  | .sge => !(f.n ^^ f.v)
  | .sgt => !(f.n ^^ f.v) && !f.z

def State.cond (s : State) (cc : Cond) : Bool := s.flags.holds cc

end Sys2Proof.Machine
end

