-- ==== Sys2Proof/Machine/Units.lean ====
section
/-! DEFINITION. The units FRISC-CT, FRISC-PIO and FRISC-DMA: their control words, register reads and writes, requests
and events (60_exceptions.md R211, R212, R230 to R256).  A register is named by its word number, 0 for PA, 1 for
PA + 4, and so on.  Where a read has no value, or a corner case of U9 leaves the unit's subsequent state without one,
free values are drawn from draw number `n`. -/

namespace Sys2Proof.Machine

/-- How many free words a unit's unspecified state draws. -/
def wildDraws : Nat := 4

/-- A word with one flip-flop in bit 0 and zeros above (R230, R237). -/
def bitWord (b : Bool) : Word := if b then 1#32 else 0#32

/-- A 32-bit address with its two low bits cleared (20_memory.md R56). -/
def wordAlign (a : Word) : Word := (a >>> 2) <<< 2

/-! ### FRISC-CT -/

/-- CR bit 0: STOP / START (R232). -/
def Ct.running (u : Ct) : Bool := u.cr.getLsbD 0
/-- CR bit 1: INT. -/
def Ct.intEnabled (u : Ct) : Bool := u.cr.getLsbD 1
/-- CR bit 2: the kind of interrupt, 1 non-maskable. -/
def Ct.nonMaskable (u : Ct) : Bool := u.cr.getLsbD 2

/-- The unit's request (R212, R235, R236). -/
def Ct.request (u : Ct) (eosBlocks : Bool) : Bool := u.status && u.intEnabled && !(eosBlocks && u.waitEos)

/-- Any state whatever of the unit, from then on an unconstrained environment agent (U9). -/
def Ct.unspecified (u : Ct) (n : Nat) : Ct :=
  { base := u.base
    lr := (Config.freeWord n).extractLsb' 0 16
    dc := (Config.freeWord n).extractLsb' 16 16
    cr := (Config.freeWord (n + 1)).extractLsb' 0 3
    status := (Config.freeWord (n + 1)).getLsbD 3
    waitEos := (Config.freeWord (n + 1)).getLsbD 4
    wild := true }

/-- Read of register `j` (R231, R237); `none` where the read column is "-". -/
def Ct.read (u : Ct) (j : Nat) : Option Word :=
  match j with
  | 0 => some (u.cr.zeroExtend 32)
  | 1 => some (u.dc.zeroExtend 32)
  | 2 => some (bitWord u.status)
  | _ => none

/-- Write of `w` to register `j` (R231, R233, R235, R236).  LR and DC written while the counter counts is a corner
case of U9.  The second component is the number of draws made. -/
def Ct.write (u : Ct) (n : Nat) (j : Nat) (w : Word) : Ct × Nat :=
  match j with
  | 0 => ({ u with cr := w.extractLsb' 0 3 }, 0)
  | 1 =>
    if u.running then (u.unspecified n, wildDraws)
    else ({ u with lr := w.extractLsb' 0 16, dc := w.extractLsb' 0 16 }, 0)
  | 2 => ({ u with status := false, waitEos := u.waitEos || (u.status && u.intEnabled) }, 0)
  | _ => ({ u with waitEos := false }, 0)

/-- One pulse on the count input (R234); nothing while the counter is stopped.  A count with LR = 0 has no stated
outcome (R238, U9). -/
def Ct.pulse (u : Ct) (n : Nat) : Ct × Nat :=
  if !u.running then (u, 0)
  else if u.lr = 0#16 then (u.unspecified n, wildDraws)
  else if u.dc - 1#16 = 0#16 then ({ u with dc := u.lr, status := true }, 0)
  else ({ u with dc := u.dc - 1#16 }, 0)

/-! ### FRISC-PIO -/

/-- The four values of MODE, CR bits 1 to 0 (R241, 90_conflicts.md C4). -/
inductive PioMode where
  | output | input | bitSet | bitTest
deriving DecidableEq, Repr

def Pio.mode (u : Pio) : PioMode :=
  match u.ctl.getLsbD 1, u.ctl.getLsbD 0 with
  | false, false => .output
  | false, true => .input
  | true, false => .bitSet
  | true, true => .bitTest

/-- CR bit 2: INT (R241). -/
def Pio.intEnabled (u : Pio) : Bool := u.ctl.getLsbD 2
/-- CR bit 3: the kind of interrupt, 1 non-maskable. -/
def Pio.nonMaskable (u : Pio) : Bool := u.ctl.getLsbD 3
/-- CR bit 4: AND/OR, 1 is AND. -/
def Pio.testAnd (u : Pio) : Bool := u.ctl.getLsbD 4

/-- The unit's request (R245). -/
def Pio.request (u : Pio) (eosBlocks : Bool) : Bool := u.status && u.intEnabled && !(eosBlocks && u.waitEos)

/-- The lines that are at their active level: `line[i] = ACTIVE[i]` (R244). -/
def Pio.activeLines (u : Pio) (lines : Byte) : Byte := ~~~(lines ^^^ u.active)

/-- The bit-testing condition (R244): every, or some, tested bit is active.  `none` with no bit tested, where the spec
gives no value. -/
def Pio.testCondition (u : Pio) (lines : Byte) : Option Bool :=
  if u.mask = 0#8 then none
  else if u.testAnd then some (u.mask &&& u.activeLines lines == u.mask)
  else some (u.mask &&& u.activeLines lines != 0#8)

/-- The status flip-flop stands set by the condition: the levels on the lines satisfy it (R243, R244). -/
def Pio.conditionStands (u : Pio) : Bool := u.status && u.testCondition u.lines == some true

/-- Any state whatever of the unit (U9). -/
def Pio.unspecified (u : Pio) (n : Nat) : Pio :=
  { base := u.base
    active := (Config.freeWord n).extractLsb' 0 8
    mask := (Config.freeWord n).extractLsb' 8 8
    dr := (Config.freeWord n).extractLsb' 16 8
    lines := (Config.freeWord n).extractLsb' 24 8
    ctl := (Config.freeWord (n + 1)).extractLsb' 0 5
    status := (Config.freeWord (n + 1)).getLsbD 5
    waitEos := (Config.freeWord (n + 1)).getLsbD 6
    wild := true }

/-- Read of register `j` (R240, R242, R246): in bit-testing mode DR reads as the levels of the lines. -/
def Pio.read (u : Pio) (j : Nat) : Option Word :=
  match j with
  | 0 => some (BitVec.ofNat 32 (2 ^ 16 * u.active.toNat + 2 ^ 8 * u.mask.toNat + u.ctl.toNat))
  | 1 => some ((if u.mode = .bitTest then u.lines else u.dr).zeroExtend 32)
  | 2 => some (bitWord u.status)
  | _ => none

/-- The unit with its control word written (R241): bits 23:8 and 4:0. -/
def Pio.withControl (u : Pio) (w : Word) : Pio :=
  { u with active := w.extractLsb' 16 8, mask := w.extractLsb' 8 8, ctl := w.extractLsb' 0 5 }

/-- Write of `w` to register `j` (R240 to R245).  A change of MODE while the status flip-flop is set is a corner case
of U9; in bit-setting mode a write to DR drives the lines (R243). -/
def Pio.write (u : Pio) (n : Nat) (j : Nat) (w : Word) : Pio × Nat :=
  match j with
  | 0 =>
    if u.status && (u.withControl w).mode != u.mode then (u.unspecified n, wildDraws)
    else (u.withControl w, 0)
  | 1 =>
    ({ u with
        dr := w.extractLsb' 0 8
        lines := if u.mode = .bitSet then w.extractLsb' 0 8 else u.lines }, 0)
  | 2 => ({ u with status := false, waitEos := u.waitEos || (u.status && u.intEnabled) }, 0)
  | _ => ({ u with waitEos := false }, 0)

/-- The external device takes the byte offered in output mode: "ready for the next byte" (R243). -/
def Pio.taken (u : Pio) : Pio := if u.mode = .output then { u with status := true } else u

/-- The outside puts `b` on the lines (R243, R244).  In bit-testing mode, once the condition has set the flip-flop, a
read of DR gives a byte that satisfies it, so the outside then chooses only among such bytes: another one leaves the
lines as they are (assumption log 29).  A test with no bit tested is a corner case of U9. -/
def Pio.input (u : Pio) (n : Nat) (b : Byte) (strobe : Bool) : Pio × Nat :=
  match u.mode with
  | .input => ({ u with dr := b, status := u.status || strobe }, 0)
  | .bitTest =>
    match u.testCondition b with
    | some true => ({ u with lines := b, status := true }, 0)
    | some false => if u.conditionStands then (u, 0) else ({ u with lines := b }, 0)
    | none => (u.unspecified n, wildDraws)
  | .output | .bitSet => (u, 0)

/-! ### FRISC-DMA -/

/-- CR bit 0: INT (R251). -/
def Dma.intEnabled (u : Dma) : Bool := u.cr.getLsbD 0
/-- CR bit 1: MODE, 0 halting the processor, 1 cycle stealing. -/
def Dma.stealing (u : Dma) : Bool := u.cr.getLsbD 1
/-- CR bit 2: SOURCE, 1 an external unit. -/
def Dma.srcExternal (u : Dma) : Bool := u.cr.getLsbD 2
/-- CR bit 3: DESTINATION, 1 an external unit. -/
def Dma.dstExternal (u : Dma) : Bool := u.cr.getLsbD 3

/-- The unit's request (R255). -/
def Dma.request (u : Dma) : Bool := u.status && u.intEnabled

/-- A transfer in halting mode is in progress: the processor is stopped (R254). -/
def Dma.holdsProcessor (u : Dma) : Bool := u.busy && !u.stealing

/-- Both sides are memory, so no datum waits for an external unit (R253). -/
def Dma.memoryToMemory (u : Dma) : Bool := !u.srcExternal && !u.dstExternal

/-- How many bytes a side of the transfer spans: `CNT` words of memory, or the one register of an external unit. -/
def Dma.span (u : Dma) (external : Bool) : Nat := if external then 4 else 4 * u.cnt.toNat

/-- The source and destination ranges share a word, addresses taken modulo 2^32 (R253: not covered by anything). -/
def Dma.overlaps (u : Dma) : Bool :=
  decide ((wordAlign u.dst - wordAlign u.src).toNat < u.span u.srcExternal)
    || decide ((wordAlign u.src - wordAlign u.dst).toNat < u.span u.dstExternal)

/-- Any state whatever of the unit (U9); the wiring of its interrupt stays. -/
def Dma.unspecified (u : Dma) (n : Nat) : Dma :=
  { base := u.base
    src := Config.freeWord n
    dst := Config.freeWord (n + 1)
    cnt := Config.freeWord (n + 2)
    cr := (Config.freeWord (n + 3)).extractLsb' 0 4
    status := (Config.freeWord (n + 3)).getLsbD 4
    busy := (Config.freeWord (n + 3)).getLsbD 5
    nonMaskable := u.nonMaskable
    wild := true }

/-- Read of register `j` (R250, R256). -/
def Dma.read (u : Dma) (j : Nat) : Option Word :=
  match j with
  | 0 => some u.src
  | 1 => some u.dst
  | 2 => some u.cnt
  | 3 => some (u.cr.zeroExtend 32)
  | 5 => some (bitWord u.status)
  | _ => none

/-- Write of `w` to register `j` (R250 to R255).  The corner cases of U9: a register written or a second start while
a transfer runs, a start with `CNT` = 0, a start with overlapping ranges. -/
def Dma.write (u : Dma) (n : Nat) (j : Nat) (w : Word) : Dma × Nat :=
  match j with
  | 5 => ({ u with status := false }, 0)
  | 4 =>
    if u.busy || u.cnt == 0#32 || u.overlaps then (u.unspecified n, wildDraws)
    else ({ u with busy := true }, 0)
  | _ =>
    if u.busy then (u.unspecified n, wildDraws)
    else
      match j with
      | 0 => ({ u with src := w }, 0)
      | 1 => ({ u with dst := w }, 0)
      | 2 => ({ u with cnt := w }, 0)
      | _ => ({ u with cr := w.extractLsb' 0 4 }, 0)

/-- The unit's registers after one datum (R253). -/
def Dma.advance (u : Dma) : Dma :=
  let cnt := u.cnt - 1#32
  { u with
    src := if u.srcExternal then u.src else u.src + 4#32
    dst := if u.dstExternal then u.dst else u.dst + 4#32
    cnt := cnt
    busy := u.busy && cnt != 0#32
    status := u.status || cnt == 0#32 }

/-! ### The request signals (R212) -/

/-- The maskable request INT. -/
def State.intRequest (s : State) : Bool :=
  s.cts.any (fun u => u.request s.params.eosBlocks && !u.nonMaskable)
    || s.pios.any (fun u => u.request s.params.eosBlocks && !u.nonMaskable)
    || s.dmas.any (fun u => u.request && !u.nonMaskable)

/-- The non-maskable request NMI. -/
def State.nmiRequest (s : State) : Bool :=
  s.cts.any (fun u => u.request s.params.eosBlocks && u.nonMaskable)
    || s.pios.any (fun u => u.request s.params.eosBlocks && u.nonMaskable)
    || s.dmas.any (fun u => u.request && u.nonMaskable)

/-! ### Replacing one unit, counting the draws -/

def State.putCt (s : State) (k : Nat) (r : Ct × Nat) : State :=
  { s with cts := s.cts.set k r.1, draws := s.draws + r.2 }

def State.putPio (s : State) (k : Nat) (r : Pio × Nat) : State :=
  { s with pios := s.pios.set k r.1, draws := s.draws + r.2 }

def State.putDma (s : State) (k : Nat) (r : Dma × Nat) : State :=
  { s with dmas := s.dmas.set k r.1, draws := s.draws + r.2 }

end Sys2Proof.Machine
end

