-- ==== Sys2Proof/Machine/Ops.lean ====
section
/-! DEFINITION. The named operations over registers and memory, the two interrupt entries as one shared operation, the
returns beside it, and what happens at a boundary between instructions (20_memory.md R50 to R69, 42_memory_instructions.md
R168 to R171, 60_exceptions.md R210 to R219, R253, R254). -/

namespace Sys2Proof.Machine

/-! ### General registers (R20): all eight are ordinary -/

def RegFile.get (f : RegFile) : Reg → Word
  | .r0 => f.r0 | .r1 => f.r1 | .r2 => f.r2 | .r3 => f.r3
  | .r4 => f.r4 | .r5 => f.r5 | .r6 => f.r6 | .r7 => f.r7

def RegFile.set (f : RegFile) (r : Reg) (v : Word) : RegFile :=
  match r with
  | .r0 => { f with r0 := v } | .r1 => { f with r1 := v } | .r2 => { f with r2 := v } | .r3 => { f with r3 := v }
  | .r4 => { f with r4 := v } | .r5 => { f with r5 := v } | .r6 => { f with r6 := v } | .r7 => { f with r7 := v }

def State.getReg (s : State) (r : Reg) : Word := s.regs.get r
def State.setReg (s : State) (r : Reg) (v : Word) : State := { s with regs := s.regs.set r v }
def State.setPc (s : State) (v : Word) : State := { s with pc := v }

/-- A result into `dest` and its flags into SR. -/
def State.putResult (s : State) (dest : Reg) (r : Word × Flags) : State := (s.setReg dest r.1).setFlags r.2

/-- A result of the shift group into `dest` (R133): with a count of zero there is no exit bit and C is a free value,
drawn anew. -/
def State.putShift (s : State) (kind : ShiftKind) (a count : Word) (dest : Reg) : State :=
  let r := shiftValue kind a count.toNat
  if count = 0#32 then
    ({ s with draws := s.draws + 1 }).putResult dest (r, logicFlags (Config.freeBit s.draws) r)
  else s.putResult dest (r, logicFlags (shiftExit kind a count.toNat) r)

/-! ### Memory as a list of cells: a partial map from addresses to bytes (R50) -/

/-- The cells that have been written, addresses strictly rising.  An address that is not listed holds no value the
program or its image gave it. -/
abbrev Memory := List Host.Cell

def Memory.lookup : Memory → Nat → Option Byte
  | [], _ => none
  | (k, b) :: rest, a => if k = a then some b else Memory.lookup rest a

def Memory.write : Memory → Nat → Byte → Memory
  | [], a, b => [(a, b)]
  | (k, x) :: rest, a, b =>
    if a < k then (a, b) :: (k, x) :: rest
    else if a = k then (a, b) :: rest
    else (k, x) :: Memory.write rest a b

/-- All listed addresses are above `low` and strictly rising. -/
def Memory.risingFrom : Nat → Memory → Bool
  | _, [] => true
  | low, (k, _) :: rest => decide (low ≤ k) && Memory.risingFrom (k + 1) rest

/-- The canonical form: addresses strictly rising and below 2^32.  An unlisted address reads as "no value", which no
entry can equal. -/
def Memory.wf (m : Memory) : Bool := Memory.risingFrom 0 m && m.all (fun c => decide (c.1 < 2 ^ 32))

/-- The byte at an address; one that nothing has written is a free value (R61). -/
def State.byteAt (s : State) (a : Word) : Byte :=
  (Memory.lookup s.mem a.toNat).getD (Config.unwrittenByte a.toNat)

/-! ### Widths, alignment and byte order (R52 to R56) -/

inductive Width where
  | byte | half | word
deriving DecidableEq, Repr

def Width.bytes : Width → Nat
  | .byte => 1 | .half => 2 | .word => 4

/-- `align(addr, n)`: the low bits the width does not need are cleared (R56). -/
def align (a : Word) : Width → Word
  | .byte => a
  | .half => (a >>> 1) <<< 1
  | .word => wordAlign a

/-- The little-endian value of the bytes from `a` (R52, R54), zero extended to 32 bits. -/
def State.loadBytes (s : State) (a : Word) : Width → Word
  | .byte => (s.byteAt a).zeroExtend 32
  | .half => BitVec.ofNat 32 ((s.byteAt a).toNat + 2 ^ 8 * (s.byteAt (a + 1#32)).toNat)
  | .word =>
    BitVec.ofNat 32 ((s.byteAt a).toNat + 2 ^ 8 * (s.byteAt (a + 1#32)).toNat
      + 2 ^ 16 * (s.byteAt (a + 2#32)).toNat + 2 ^ 24 * (s.byteAt (a + 3#32)).toNat)

/-- The low bytes of `v` into the bytes from `a`, little-endian (R52, R55). -/
def storeBytes (m : Memory) (a v : Word) : Width → Memory
  | .byte => Memory.write m a.toNat (v.extractLsb' 0 8)
  | .half => Memory.write (Memory.write m a.toNat (v.extractLsb' 0 8)) (a + 1#32).toNat (v.extractLsb' 8 8)
  | .word =>
    Memory.write (Memory.write (Memory.write (Memory.write m a.toNat (v.extractLsb' 0 8))
      (a + 1#32).toNat (v.extractLsb' 8 8)) (a + 2#32).toNat (v.extractLsb' 16 8)) (a + 3#32).toNat (v.extractLsb' 24 8)

/-! ### The address map (R50, R60, R61) -/

/-- What the platform has at an address: the unit's place in its list and the unit itself, memory, or nothing. -/
inductive Target where
  | ct (k : Nat) (u : Ct)
  | pio (k : Nat) (u : Pio)
  | dma (k : Nat) (u : Dma)
  | memory
  | unmapped
deriving DecidableEq, Repr

def Region.covers (r : Region) (a : Word) : Bool := decide (r.base ≤ a.toNat) && decide (a.toNat < r.base + r.size)

/-- The first unit of a list whose window of `size` bytes from its base holds the address, with its place. -/
def findUnit {α : Type} (base : α → Word) (size : Nat) (a : Word) : Nat → List α → Option (Nat × α)
  | _, [] => none
  | k, u :: rest => if (a - base u).toNat < size then some (k, u) else findUnit base size a (k + 1) rest

def State.target (s : State) (a : Word) : Target :=
  match findUnit Ct.base 16 a 0 s.cts with
  | some (k, u) => .ct k u
  | none =>
    match findUnit Pio.base 16 a 0 s.pios with
    | some (k, u) => .pio k u
    | none =>
      match findUnit Dma.base 24 a 0 s.dmas with
      | some (k, u) => .dma k u
      | none => if s.params.regions.any (fun r => r.covers a) then .memory else .unmapped

def Target.isMemory : Target → Bool
  | .memory => true
  | .ct .. | .pio .. | .dma .. | .unmapped => false

/-- Every byte of an access from `a` is backed by memory. -/
def State.memoryBacked (s : State) (a : Word) (w : Width) : Bool :=
  (List.range w.bytes).all (fun i => (s.target (a + BitVec.ofNat 32 i)).isMemory)

/-- The word number of a unit's register: PA is 0, PA + 4 is 1, and so on. -/
def registerIndex (base a : Word) : Nat := (a - base).toNat / 4

/-- Why an access of width `w` at `addr` has no meaning, if it has none (R61, R62). -/
def State.accessFault (s : State) (addr : Word) (w : Width) : Option Fault :=
  match s.target (align addr w) with
  | .memory => if s.memoryBacked (align addr w) w then none else some (.unmappedAddress (align addr w))
  | .unmapped => some (.unmappedAddress (align addr w))
  | .ct .. | .pio .. | .dma .. => if w = .word then none else some (.narrowDeviceAccess (align addr w))

/-- A value read from a unit; where the read column is "-" it is a free value (R230, U10). -/
def State.unitValue (s : State) (r : Option Word) : Word × State :=
  match r with
  | some v => (v, s)
  | none => (Config.freeWord s.draws, { s with draws := s.draws + 1 })

/-- `MemRead(addr, n)` (R54) and the state after it, which differs at most in the draws made. -/
def State.memRead (s : State) (addr : Word) (w : Width) : Except Fault (Word × State) :=
  match s.accessFault addr w with
  | some f => .error f
  | none =>
    match s.target (align addr w) with
    | .ct _ u => .ok (s.unitValue (u.read (registerIndex u.base (align addr w))))
    | .pio _ u => .ok (s.unitValue (u.read (registerIndex u.base (align addr w))))
    | .dma _ u => .ok (s.unitValue (u.read (registerIndex u.base (align addr w))))
    | .memory | .unmapped => .ok (s.loadBytes (align addr w) w, s)

/-- `MemWrite(addr, n, v)` (R55): memory bytes, or the register write of a unit (R62). -/
def State.memWrite (s : State) (addr : Word) (w : Width) (v : Word) : Except Fault State :=
  match s.accessFault addr w with
  | some f => .error f
  | none =>
    match s.target (align addr w) with
    | .ct k u => .ok (s.putCt k (u.write s.draws (registerIndex u.base (align addr w)) v))
    | .pio k u => .ok (s.putPio k (u.write s.draws (registerIndex u.base (align addr w)) v))
    | .dma k u => .ok (s.putDma k (u.write s.draws (registerIndex u.base (align addr w)) v))
    | .memory | .unmapped => .ok { s with mem := storeBytes s.mem (align addr w) v w }

/-- The outcome of an instruction that ran to its end or stopped in a fault. -/
def finish (r : Except Fault State) : StepOutcome :=
  match r with
  | .ok s => .next s
  | .error f => .fault f

/-! ### The R7 stack (R168 to R170) -/

/-- R7 - 4 → R7. -/
def State.growStack (s : State) : State := s.setReg .r7 (s.getReg .r7 - 4#32)

/-- R7 + 4 → R7. -/
def State.shrinkStack (s : State) : State := s.setReg .r7 (s.getReg .r7 + 4#32)

/-- R7 - 4 → R7; PC → MEM(R7). -/
def State.pushPc (s : State) : Except Fault State := s.growStack.memWrite (s.growStack.getReg .r7) .word s.pc

/-- MEM(R7) → PC; R7 + 4 → R7. -/
def State.popPc (s : State) : Except Fault State :=
  match s.memRead (s.getReg .r7) .word with
  | .error f => .error f
  | .ok (v, s1) => .ok (s1.setPc v).shrinkStack

/-! ### Interrupts -/

inductive InterruptKind where
  | maskable | nonMaskable
deriving DecidableEq, Repr

/-- The address of the word that holds the maskable handler's address (R5, R215). -/
def intVectorAddr : Word := 0x00000008#32

/-- The address of the first instruction of the non-maskable handler (R5, R216). -/
def nmiEntry : Word := 0x0000000C#32

/-- Clear (entry) or set (return) the enable of an interrupt: GIE or IIF (R215, R216, R194, R195). -/
def State.setEnable (s : State) (k : InterruptKind) (b : Bool) : State :=
  match k with
  | .maskable => s.setGie b
  | .nonMaskable => { s with iif := b }

/-- Control goes to the handler: the word at address 8 holds the maskable handler's address; the non-maskable
handler's code starts at address 0x0C. -/
def State.enterHandler (s : State) (k : InterruptKind) : Except Fault State :=
  match k with
  | .maskable =>
    match s.memRead intVectorAddr .word with
    | .error f => .error f
    | .ok (v, s1) => .ok (s1.setPc v)
  | .nonMaskable => .ok (s.setPc nmiEntry)

/-- Taking an interrupt (R215, R216): the enable is cleared, PC is pushed on the R7 stack, and control goes to the
handler.  SR is not saved. -/
def State.takeInterrupt (s : State) (k : InterruptKind) : Except Fault State :=
  match (s.setEnable k false).pushPc with
  | .error f => .error f
  | .ok s1 => s1.enterHandler k

/-- Returning from a handler (R194, R195, R219): PC is popped and the enable is set. -/
def State.returnFrom (s : State) (k : InterruptKind) : Except Fault State :=
  match s.popPc with
  | .error f => .error f
  | .ok s1 => .ok (s1.setEnable k true)

/-- The acceptance test of the non-maskable interrupt (R213). -/
def State.nmiAcceptable (s : State) : Bool := s.nmiRequest && s.iif

/-- The acceptance test of the maskable interrupt (R213); with `IIF_BLOCKS_MASKABLE` IIF = 0 holds it off as well (U8). -/
def State.intAcceptable (s : State) : Bool := s.intRequest && s.gie && !(s.params.iifBlocks && !s.iif)

/-- The interrupt to take at this boundary, the non-maskable one first (R218); none when the environment leaves an
acceptable request pending (R214). -/
def State.pendingInterrupt (s : State) (hold : Bool) : Option InterruptKind :=
  if hold then none
  else if s.nmiAcceptable then some .nonMaskable
  else if s.intAcceptable then some .maskable
  else none

/-! ### The units' own moves (R234, R243, R253, R254) -/

/-- FRISC-DMA number `k` moves one datum, if it is busy (R253). -/
def State.dmaMove (s : State) (k : Nat) : Except Fault State :=
  match s.dmas[k]? with
  | none => .ok s
  | some u =>
    if !u.busy then .ok s
    else
      match s.memRead u.src .word with
      | .error f => .error f
      | .ok (v, s1) =>
        match s1.memWrite u.dst .word v with
        | .error f => .error f
        | .ok s2 =>
          match s2.dmas[k]? with
          | none => .ok s2
          | some u2 => .ok (s2.putDma k (u2.advance, 0))

/-- One event at a boundary. -/
def State.applyEvent (s : State) (e : Event) : Except Fault State :=
  match e with
  | .ctPulse k =>
    match s.cts[k]? with
    | some u => .ok (s.putCt k (u.pulse s.draws))
    | none => .ok s
  | .pioTaken k =>
    match s.pios[k]? with
    | some u => .ok (s.putPio k (u.taken, 0))
    | none => .ok s
  | .pioInput k b strobe =>
    match s.pios[k]? with
    | some u => .ok (s.putPio k (u.input s.draws b strobe))
    | none => .ok s
  | .dmaDatum k => s.dmaMove k
  | .ctWild k v =>
    match s.cts[k]? with
    | some u => if u.wild then .ok (s.putCt k ({ v with base := u.base, wild := true }, 0)) else .ok s
    | none => .ok s
  | .pioWild k v =>
    match s.pios[k]? with
    | some u => if u.wild then .ok (s.putPio k ({ v with base := u.base, wild := true }, 0)) else .ok s
    | none => .ok s
  | .dmaWild k v =>
    match s.dmas[k]? with
    | some u =>
      if u.wild then .ok (s.putDma k ({ v with base := u.base, nonMaskable := u.nonMaskable, wild := true }, 0))
      else .ok s
    | none => .ok s

def State.applyEvents (s : State) : List Event → Except Fault State
  | [] => .ok s
  | e :: rest =>
    match s.applyEvent e with
    | .error f => .error f
    | .ok s1 => s1.applyEvents rest

/-- The environment's choices at this boundary: the next entry of `inputs`, or nothing when there is none. -/
def State.boundary (s : State) : Boundary :=
  match s.inputs with
  | [] => ⟨[], false⟩
  | b :: _ => b

/-- The state after the boundary's events. -/
def State.afterBoundary (s : State) : Except Fault State :=
  ({ s with inputs := s.inputs.tail }).applyEvents s.boundary.events

/-- Some FRISC-DMA holds the processor (R254). -/
def State.dmaHolds (s : State) : Bool := s.dmas.any Dma.holdsProcessor

/-- The place of the first FRISC-DMA that holds the processor and waits for no external unit. -/
def firstReady (k : Nat) : List Dma → Option Nat
  | [] => none
  | u :: rest => if u.holdsProcessor && u.memoryToMemory then some k else firstReady (k + 1) rest

/-- While a transfer in halting mode runs, the processor stands still and the transfer goes on by one datum; with an
external unit it waits for that unit's event (R253, R254). -/
def State.dmaHalted (s : State) : Except Fault State :=
  match firstReady 0 s.dmas with
  | some k => s.dmaMove k
  | none => .ok s

/-- The fetch: the word at PC, its two low bits ignored (R57), and PC + 4 → PC (R25). -/
def State.fetch (s : State) : Except Fault (Word × State) :=
  match s.memRead s.pc .word with
  | .error f => .error f
  | .ok (w, s1) => .ok (w, s1.setPc (s.pc + 4#32))

end Sys2Proof.Machine
end

