-- ==== Sys2Proof/Machine/Operands.lean ====
section
/-! DEFINITION. The operand forms: the constant, the effective address, and the targets of the control instructions
(30_encoding.md R91, R92; 42_memory_instructions.md R160). -/

namespace Sys2Proof.Machine

/-- `ext`: the 20-bit constant sign extended to 32 bits (R91). -/
def sext20 (k : Int) : Word := (imm20 k).signExtend 32

/-- The address form `(adr20)` (R160). -/
def eaAbs (adr : Int) : Word := sext20 adr

/-- The address form `(adrreg+offset20)` (R160); the sum wraps modulo 2^32 (R51). -/
def State.eaOff (s : State) (adrreg : Reg) (offset : Int) : Word := s.getReg adrreg + sext20 offset

/-- The target of JR: PC, which already holds the address of the next instruction, plus the offset (R24, R92). -/
def State.jrTarget (s : State) (offset : Int) : Word := s.pc + sext20 offset

end Sys2Proof.Machine
end

