-- ==== Sys2Proof/Machine/Arithmetic.lean ====
section
/-! DEFINITION. ADD, ADC, SUB, SBC and CMP (40_alu.md R120 to R128). -/

namespace Sys2Proof.Machine

/-- ADD src1, src2, dest with src2 a register (R124). -/
def execAddReg (src1 src2 dest : Reg) (s : State) : StepOutcome :=
  .next (s.putResult dest (addFlags (s.getReg src1) (s.getReg src2) false))

/-- ADD src1, src2, dest with src2 a constant (R124). -/
def execAddImm (src1 : Reg) (imm : Int) (dest : Reg) (s : State) : StepOutcome :=
  .next (s.putResult dest (addFlags (s.getReg src1) (sext20 imm) false))

/-- ADC src1, src2, dest with src2 a register (R125). -/
def execAdcReg (src1 src2 dest : Reg) (s : State) : StepOutcome :=
  .next (s.putResult dest (addFlags (s.getReg src1) (s.getReg src2) s.flagC))

/-- ADC src1, src2, dest with src2 a constant (R125). -/
def execAdcImm (src1 : Reg) (imm : Int) (dest : Reg) (s : State) : StepOutcome :=
  .next (s.putResult dest (addFlags (s.getReg src1) (sext20 imm) s.flagC))

/-- SUB src1, src2, dest with src2 a register (R126). -/
def execSubReg (src1 src2 dest : Reg) (s : State) : StepOutcome :=
  .next (s.putResult dest (subFlags (s.getReg src1) (s.getReg src2) 0))

/-- SUB src1, src2, dest with src2 a constant (R126). -/
def execSubImm (src1 : Reg) (imm : Int) (dest : Reg) (s : State) : StepOutcome :=
  .next (s.putResult dest (subFlags (s.getReg src1) (sext20 imm) 0))

/-- SBC src1, src2, dest with src2 a register (R127; the carry enters less `SBC_BIAS`). -/
def execSbcReg (src1 src2 dest : Reg) (s : State) : StepOutcome :=
  .next (s.putResult dest (subFlags (s.getReg src1) (s.getReg src2) (sbcAdjust s.flagC s.params.sbcBias)))

/-- SBC src1, src2, dest with src2 a constant (R127; the carry enters less `SBC_BIAS`). -/
def execSbcImm (src1 : Reg) (imm : Int) (dest : Reg) (s : State) : StepOutcome :=
  .next (s.putResult dest (subFlags (s.getReg src1) (sext20 imm) (sbcAdjust s.flagC s.params.sbcBias)))

/-- CMP src1, src2 with src2 a register (R128): the flags of SUB, no register written. -/
def execCmpReg (src1 src2 : Reg) (s : State) : StepOutcome :=
  .next (s.setFlags (subFlags (s.getReg src1) (s.getReg src2) 0).2)

/-- CMP src1, src2 with src2 a constant (R128). -/
def execCmpImm (src1 : Reg) (imm : Int) (s : State) : StepOutcome :=
  .next (s.setFlags (subFlags (s.getReg src1) (sext20 imm) 0).2)

end Sys2Proof.Machine
end

