-- ==== Sys2Proof/Machine/Control.lean ====
section
/-! DEFINITION. JP, JR, CALL, RET, RETI, RETN and HALT (43_control.md R180 to R199). -/

namespace Sys2Proof.Machine

/-- An instruction whose condition is false only lets PC advance (R182), which the fetch has done. -/
def State.when (s : State) (cond : Cond) (taken : StepOutcome) : StepOutcome :=
  if s.cond cond then taken else .next s

/-- JP{cond} adr20 (R184). -/
def execJpAbs (cond : Cond) (adr : Int) (s : State) : StepOutcome :=
  s.when cond (.next (s.setPc (sext20 adr)))

/-- JP{cond} (adrreg) (R185). -/
def execJpReg (cond : Cond) (adrreg : Reg) (s : State) : StepOutcome :=
  s.when cond (.next (s.setPc (s.getReg adrreg)))

/-- JR{cond} adr (R186). -/
def execJr (cond : Cond) (offset : Int) (s : State) : StepOutcome :=
  s.when cond (.next (s.setPc (s.jrTarget offset)))

/-- CALL{cond} adr20 (R190). -/
def execCallAbs (cond : Cond) (adr : Int) (s : State) : StepOutcome :=
  s.when cond
    (match s.pushPc with
    | .error f => .fault f
    | .ok s1 => .next (s1.setPc (sext20 adr)))

/-- CALL{cond} (adrreg) (R191): the register is read after R7 has been decremented (R192). -/
def execCallReg (cond : Cond) (adrreg : Reg) (s : State) : StepOutcome :=
  s.when cond
    (match s.pushPc with
    | .error f => .fault f
    | .ok s1 => .next (s1.setPc (s1.getReg adrreg)))

/-- RET{cond} (R193). -/
def execRet (cond : Cond) (s : State) : StepOutcome := s.when cond (finish s.popPc)

/-- RETI{cond} (R194). -/
def execReti (cond : Cond) (s : State) : StepOutcome := s.when cond (finish (s.returnFrom .maskable))

/-- RETN{cond} (R195). -/
def execRetn (cond : Cond) (s : State) : StepOutcome := s.when cond (finish (s.returnFrom .nonMaskable))

/-- HALT{cond} (R199). -/
def execHalt (cond : Cond) (s : State) : StepOutcome := s.when cond (.next { s with halted := true })

end Sys2Proof.Machine
end

