-- ==== Sys2Proof/Machine/Logic.lean ====
section
/-! DEFINITION. OR, AND and XOR (40_alu.md R129 to R131). -/

namespace Sys2Proof.Machine

/-- The result and flags of a logic instruction: C and V cleared (R129 to R131). -/
def logicResult (r : Word) : Word × Flags := (r, logicFlags false r)

/-- OR src1, src2, dest with src2 a register (R130). -/
def execOrReg (src1 src2 dest : Reg) (s : State) : StepOutcome :=
  .next (s.putResult dest (logicResult (s.getReg src1 ||| s.getReg src2)))

/-- OR src1, src2, dest with src2 a constant (R130). -/
def execOrImm (src1 : Reg) (imm : Int) (dest : Reg) (s : State) : StepOutcome :=
  .next (s.putResult dest (logicResult (s.getReg src1 ||| sext20 imm)))

/-- AND src1, src2, dest with src2 a register (R129). -/
def execAndReg (src1 src2 dest : Reg) (s : State) : StepOutcome :=
  .next (s.putResult dest (logicResult (s.getReg src1 &&& s.getReg src2)))

/-- AND src1, src2, dest with src2 a constant (R129). -/
def execAndImm (src1 : Reg) (imm : Int) (dest : Reg) (s : State) : StepOutcome :=
  .next (s.putResult dest (logicResult (s.getReg src1 &&& sext20 imm)))

/-- XOR src1, src2, dest with src2 a register (R131). -/
def execXorReg (src1 src2 dest : Reg) (s : State) : StepOutcome :=
  .next (s.putResult dest (logicResult (s.getReg src1 ^^^ s.getReg src2)))

/-- XOR src1, src2, dest with src2 a constant (R131). -/
def execXorImm (src1 : Reg) (imm : Int) (dest : Reg) (s : State) : StepOutcome :=
  .next (s.putResult dest (logicResult (s.getReg src1 ^^^ sext20 imm)))

end Sys2Proof.Machine
end

