-- ==== Sys2Proof/Machine/Move.lean ====
section
/-! DEFINITION. The three forms of MOVE (41_move.md R150 to R153). -/

namespace Sys2Proof.Machine

/-- MOVE src2, dest with src2 a register (R150). -/
def execMoveReg (src2 dest : Reg) (s : State) : StepOutcome := .next (s.setReg dest (s.getReg src2))

/-- MOVE src2, dest with src2 a constant (R150). -/
def execMoveImm (imm : Int) (dest : Reg) (s : State) : StepOutcome := .next (s.setReg dest (sext20 imm))

/-- MOVE SR, dest (R151): SR zero extended. -/
def execMoveFromSr (dest : Reg) (s : State) : StepOutcome := .next (s.setReg dest (s.sr.zeroExtend 32))

/-- SR takes the lowest byte of a value (R152). -/
def State.putSr (s : State) (v : Word) : State := { s with sr := v.extractLsb' 0 8 }

/-- MOVE src2, SR with src2 a register (R152). -/
def execMoveToSrReg (src2 : Reg) (s : State) : StepOutcome := .next (s.putSr (s.getReg src2))

/-- MOVE src2, SR with src2 a constant (R152). -/
def execMoveToSrImm (imm : Int) (s : State) : StepOutcome := .next (s.putSr (sext20 imm))

end Sys2Proof.Machine
end

