-- ==== Sys2Proof/Machine/Shift.lean ====
section
/-! DEFINITION. ROTL, ROTR, SHL, SHR and ASHR (40_alu.md R132 to R138). -/

namespace Sys2Proof.Machine

/-- ROTL src1, src2, dest with the count in a register (R137). -/
def execRotlReg (src1 src2 dest : Reg) (s : State) : StepOutcome :=
  .next (s.putShift .rotl (s.getReg src1) (s.getReg src2) dest)

/-- ROTL src1, src2, dest with the count a constant (R137). -/
def execRotlImm (src1 : Reg) (imm : Int) (dest : Reg) (s : State) : StepOutcome :=
  .next (s.putShift .rotl (s.getReg src1) (sext20 imm) dest)

/-- ROTR src1, src2, dest with the count in a register (R138). -/
def execRotrReg (src1 src2 dest : Reg) (s : State) : StepOutcome :=
  .next (s.putShift .rotr (s.getReg src1) (s.getReg src2) dest)

/-- ROTR src1, src2, dest with the count a constant (R138). -/
def execRotrImm (src1 : Reg) (imm : Int) (dest : Reg) (s : State) : StepOutcome :=
  .next (s.putShift .rotr (s.getReg src1) (sext20 imm) dest)

/-- SHL src1, src2, dest with the count in a register (R134). -/
def execShlReg (src1 src2 dest : Reg) (s : State) : StepOutcome :=
  .next (s.putShift .shl (s.getReg src1) (s.getReg src2) dest)

/-- SHL src1, src2, dest with the count a constant (R134). -/
def execShlImm (src1 : Reg) (imm : Int) (dest : Reg) (s : State) : StepOutcome :=
  .next (s.putShift .shl (s.getReg src1) (sext20 imm) dest)

/-- SHR src1, src2, dest with the count in a register (R135). -/
def execShrReg (src1 src2 dest : Reg) (s : State) : StepOutcome :=
  .next (s.putShift .shr (s.getReg src1) (s.getReg src2) dest)

/-- SHR src1, src2, dest with the count a constant (R135). -/
def execShrImm (src1 : Reg) (imm : Int) (dest : Reg) (s : State) : StepOutcome :=
  .next (s.putShift .shr (s.getReg src1) (sext20 imm) dest)

/-- ASHR src1, src2, dest with the count in a register (R136). -/
def execAshrReg (src1 src2 dest : Reg) (s : State) : StepOutcome :=
  .next (s.putShift .ashr (s.getReg src1) (s.getReg src2) dest)

/-- ASHR src1, src2, dest with the count a constant (R136). -/
def execAshrImm (src1 : Reg) (imm : Int) (dest : Reg) (s : State) : StepOutcome :=
  .next (s.putShift .ashr (s.getReg src1) (sext20 imm) dest)

end Sys2Proof.Machine
end

