-- ==== Sys2Proof/Machine/Stack.lean ====
section
/-! DEFINITION. PUSH and POP (42_memory_instructions.md R168 to R171). -/

namespace Sys2Proof.Machine

/-- PUSH src1 (R168): R7 is decremented first, so PUSH R7 stores the decremented value (R171). -/
def execPush (src1 : Reg) (s : State) : StepOutcome :=
  finish (s.growStack.memWrite (s.growStack.getReg .r7) .word (s.growStack.getReg src1))

/-- POP dest (R169): `dest` is loaded first and then R7 incremented, so POP R7 leaves the loaded word plus 4 (R171). -/
def execPop (dest : Reg) (s : State) : StepOutcome :=
  match s.memRead (s.getReg .r7) .word with
  | .error f => .fault f
  | .ok (v, s1) => .next (s1.setReg dest v).shrinkStack

end Sys2Proof.Machine
end

