-- ==== Sys2Proof/Machine/Transfer.lean ====
section
/-! DEFINITION. The loads and stores (42_memory_instructions.md R160 to R167). -/

namespace Sys2Proof.Machine

/-- `dest` takes what memory holds at the effective address; LOADH and LOADB zero extend (R162 to R164). -/
def State.loadInto (s : State) (dest : Reg) (ea : Word) (w : Width) : Except Fault State :=
  match s.memRead ea w with
  | .error f => .error f
  | .ok (v, s1) => .ok (s1.setReg dest v)

/-- LOAD dest, (adr20) (R162). -/
def execLoadAbs (dest : Reg) (adr : Int) (s : State) : StepOutcome :=
  finish (s.loadInto dest (eaAbs adr) .word)

/-- LOAD dest, (adrreg+offset20) (R162). -/
def execLoadOff (dest adrreg : Reg) (offset : Int) (s : State) : StepOutcome :=
  finish (s.loadInto dest (s.eaOff adrreg offset) .word)

/-- LOADH dest, (adr20) (R163). -/
def execLoadhAbs (dest : Reg) (adr : Int) (s : State) : StepOutcome :=
  finish (s.loadInto dest (eaAbs adr) .half)

/-- LOADH dest, (adrreg+offset20) (R163). -/
def execLoadhOff (dest adrreg : Reg) (offset : Int) (s : State) : StepOutcome :=
  finish (s.loadInto dest (s.eaOff adrreg offset) .half)

/-- LOADB dest, (adr20) (R164). -/
def execLoadbAbs (dest : Reg) (adr : Int) (s : State) : StepOutcome :=
  finish (s.loadInto dest (eaAbs adr) .byte)

/-- LOADB dest, (adrreg+offset20) (R164). -/
def execLoadbOff (dest adrreg : Reg) (offset : Int) (s : State) : StepOutcome :=
  finish (s.loadInto dest (s.eaOff adrreg offset) .byte)

/-- STORE src1, (adr20) (R165). -/
def execStoreAbs (src1 : Reg) (adr : Int) (s : State) : StepOutcome :=
  finish (s.memWrite (eaAbs adr) .word (s.getReg src1))

/-- STORE src1, (adrreg+offset20) (R165). -/
def execStoreOff (src1 adrreg : Reg) (offset : Int) (s : State) : StepOutcome :=
  finish (s.memWrite (s.eaOff adrreg offset) .word (s.getReg src1))

/-- STOREH src1, (adr20) (R166). -/
def execStorehAbs (src1 : Reg) (adr : Int) (s : State) : StepOutcome :=
  finish (s.memWrite (eaAbs adr) .half (s.getReg src1))

/-- STOREH src1, (adrreg+offset20) (R166). -/
def execStorehOff (src1 adrreg : Reg) (offset : Int) (s : State) : StepOutcome :=
  finish (s.memWrite (s.eaOff adrreg offset) .half (s.getReg src1))

/-- STOREB src1, (adr20) (R167). -/
def execStorebAbs (src1 : Reg) (adr : Int) (s : State) : StepOutcome :=
  finish (s.memWrite (eaAbs adr) .byte (s.getReg src1))

/-- STOREB src1, (adrreg+offset20) (R167). -/
def execStorebOff (src1 adrreg : Reg) (offset : Int) (s : State) : StepOutcome :=
  finish (s.memWrite (s.eaOff adrreg offset) .byte (s.getReg src1))

end Sys2Proof.Machine
end

