-- ==== Sys2Proof/Machine/Dispatch.lean ====
section
/-! DEFINITION. One arm per instruction: each calls the meaning of its own.  PC already holds the address of the next
instruction when an arm runs (10_state.md R24). -/

namespace Sys2Proof.Machine

def exec (i : Instr) (s : State) : Host.Outcome State Fault Refusal :=
  match i with
  | .orReg src1 src2 dest => Sys2Proof.Machine.execOrReg src1 src2 dest s
  | .orImm src1 imm dest => Sys2Proof.Machine.execOrImm src1 imm dest s
  | .andReg src1 src2 dest => Sys2Proof.Machine.execAndReg src1 src2 dest s
  | .andImm src1 imm dest => Sys2Proof.Machine.execAndImm src1 imm dest s
  | .xorReg src1 src2 dest => Sys2Proof.Machine.execXorReg src1 src2 dest s
  | .xorImm src1 imm dest => Sys2Proof.Machine.execXorImm src1 imm dest s
  | .addReg src1 src2 dest => Sys2Proof.Machine.execAddReg src1 src2 dest s
  | .addImm src1 imm dest => Sys2Proof.Machine.execAddImm src1 imm dest s
  | .adcReg src1 src2 dest => Sys2Proof.Machine.execAdcReg src1 src2 dest s
  | .adcImm src1 imm dest => Sys2Proof.Machine.execAdcImm src1 imm dest s
  | .subReg src1 src2 dest => Sys2Proof.Machine.execSubReg src1 src2 dest s
  | .subImm src1 imm dest => Sys2Proof.Machine.execSubImm src1 imm dest s
  | .sbcReg src1 src2 dest => Sys2Proof.Machine.execSbcReg src1 src2 dest s
  | .sbcImm src1 imm dest => Sys2Proof.Machine.execSbcImm src1 imm dest s
  | .rotlReg src1 src2 dest => Sys2Proof.Machine.execRotlReg src1 src2 dest s
  | .rotlImm src1 imm dest => Sys2Proof.Machine.execRotlImm src1 imm dest s
  | .rotrReg src1 src2 dest => Sys2Proof.Machine.execRotrReg src1 src2 dest s
  | .rotrImm src1 imm dest => Sys2Proof.Machine.execRotrImm src1 imm dest s
  | .shlReg src1 src2 dest => Sys2Proof.Machine.execShlReg src1 src2 dest s
  | .shlImm src1 imm dest => Sys2Proof.Machine.execShlImm src1 imm dest s
  | .shrReg src1 src2 dest => Sys2Proof.Machine.execShrReg src1 src2 dest s
  | .shrImm src1 imm dest => Sys2Proof.Machine.execShrImm src1 imm dest s
  | .ashrReg src1 src2 dest => Sys2Proof.Machine.execAshrReg src1 src2 dest s
  | .ashrImm src1 imm dest => Sys2Proof.Machine.execAshrImm src1 imm dest s
  | .cmpReg src1 src2 => Sys2Proof.Machine.execCmpReg src1 src2 s
  | .cmpImm src1 imm => Sys2Proof.Machine.execCmpImm src1 imm s
  | .moveReg src2 dest => Sys2Proof.Machine.execMoveReg src2 dest s
  | .moveImm imm dest => Sys2Proof.Machine.execMoveImm imm dest s
  | .moveFromSr dest => Sys2Proof.Machine.execMoveFromSr dest s
  | .moveToSrReg src2 => Sys2Proof.Machine.execMoveToSrReg src2 s
  | .moveToSrImm imm => Sys2Proof.Machine.execMoveToSrImm imm s
  | .loadAbs dest adr => Sys2Proof.Machine.execLoadAbs dest adr s
  | .loadOff dest adrreg offset => Sys2Proof.Machine.execLoadOff dest adrreg offset s
  | .loadhAbs dest adr => Sys2Proof.Machine.execLoadhAbs dest adr s
  | .loadhOff dest adrreg offset => Sys2Proof.Machine.execLoadhOff dest adrreg offset s
  | .loadbAbs dest adr => Sys2Proof.Machine.execLoadbAbs dest adr s
  | .loadbOff dest adrreg offset => Sys2Proof.Machine.execLoadbOff dest adrreg offset s
  | .storeAbs src1 adr => Sys2Proof.Machine.execStoreAbs src1 adr s
  | .storeOff src1 adrreg offset => Sys2Proof.Machine.execStoreOff src1 adrreg offset s
  | .storehAbs src1 adr => Sys2Proof.Machine.execStorehAbs src1 adr s
  | .storehOff src1 adrreg offset => Sys2Proof.Machine.execStorehOff src1 adrreg offset s
  | .storebAbs src1 adr => Sys2Proof.Machine.execStorebAbs src1 adr s
  | .storebOff src1 adrreg offset => Sys2Proof.Machine.execStorebOff src1 adrreg offset s
  | .push src1 => Sys2Proof.Machine.execPush src1 s
  | .pop dest => Sys2Proof.Machine.execPop dest s
  | .jpAbs cond adr => Sys2Proof.Machine.execJpAbs cond adr s
  | .jpReg cond adrreg => Sys2Proof.Machine.execJpReg cond adrreg s
  | .callAbs cond adr => Sys2Proof.Machine.execCallAbs cond adr s
  | .callReg cond adrreg => Sys2Proof.Machine.execCallReg cond adrreg s
  | .jr cond offset => Sys2Proof.Machine.execJr cond offset s
  | .ret cond => Sys2Proof.Machine.execRet cond s
  | .reti cond => Sys2Proof.Machine.execReti cond s
  | .retn cond => Sys2Proof.Machine.execRetn cond s
  | .halt cond => Sys2Proof.Machine.execHalt cond s

end Sys2Proof.Machine
end

