-- ==== Sys2Proof/Machine/Step.lean ====
section
/-! DEFINITION. One step: one instruction or one interrupt entry (70_reset_and_hazards.md R291), after what the
environment and the units do at the boundary before it. -/

namespace Sys2Proof.Machine

/-- Fetch, decode and execute one instruction. -/
def State.runInstruction (s : State) : StepOutcome :=
  match s.fetch with
  | .error f => .fault f
  | .ok (w, s1) =>
    match decodeWord w with
    | .error e => .fault (.undefinedInstruction e)
    | .ok i => exec i s1

/-- What the processor does once the boundary's events are over: it stands still while a FRISC-DMA in halting mode
holds it (R254) and while it is halted (R199); else it takes an interrupt (R213 to R218) or executes an instruction. -/
def State.processorStep (s : State) (hold : Bool) : StepOutcome :=
  if s.dmaHolds then finish s.dmaHalted
  else if s.halted then .next s
  else
    match s.pendingInterrupt hold with
    | some k => finish (s.takeInterrupt k)
    | none => s.runInstruction

def step (s : State) : Host.Outcome State Fault Refusal :=
  match s.afterBoundary with
  | .error f => .fault f
  | .ok s1 => s1.processorStep s.boundary.hold

/-- `s` with the instruction whose bits are `w` (of `nbits` bits, higher bits 0) stored little-endian where the next
step fetches: the four bytes of the aligned word at PC (R57). -/
def State.withFetchWord (s : State) (nbits w : Nat) : State :=
  { s with mem := storeBytes s.mem (align s.pc .word) (BitVec.ofNat 32 (w % 2 ^ nbits)) .word }

end Sys2Proof.Machine
end

