-- ==== Sys2Proof/Safety.lean ====
section
/-! DEFINITION. The terms claims are stated in: frames, values of memory, which registers an instruction writes
(10_state.md R22), the invariant of every step, and what a safe run is. -/

namespace Sys2Proof.Machine

/-! ### Frames -/

/-- Every general register but those of `ds` is unchanged. -/
def sameRegsBut (ds : List Reg) (s t : State) : Prop := ∀ r, r ∉ ds → t.getReg r = s.getReg r

/-- Every byte of memory reads as before. -/
def sameMemory (s t : State) : Prop := ∀ a : Word, t.byteAt a = s.byteAt a

/-- Every byte of memory outside the `n` bytes from `a` reads as before. -/
def sameMemoryOutside (a : Word) (n : Nat) (s t : State) : Prop :=
  ∀ b : Word, (∀ j, j < n → b ≠ a + BitVec.ofNat 32 j) → t.byteAt b = s.byteAt b

/-- Every register of every unit is unchanged. -/
def sameUnits (s t : State) : Prop := t.cts = s.cts ∧ t.pios = s.pios ∧ t.dmas = s.dmas

/-- IIF, the stopped state, the platform and the environment's inputs are unchanged. -/
def sameControl (s t : State) : Prop :=
  t.iif = s.iif ∧ t.halted = s.halted ∧ t.params = s.params ∧ t.inputs = s.inputs

/-- GIE and bits 7 to 5 of SR are unchanged. -/
def sameUpperSr (s t : State) : Prop := t.sr.extractLsb' 4 4 = s.sr.extractLsb' 4 4

/-- The platform is unchanged: the parameters, and every unit's base address and wiring. -/
def samePlatform (s t : State) : Prop :=
  t.params = s.params ∧ t.cts.map Ct.base = s.cts.map Ct.base ∧ t.pios.map Pio.base = s.pios.map Pio.base ∧
    t.dmas.map Dma.base = s.dmas.map Dma.base ∧ t.dmas.map Dma.nonMaskable = s.dmas.map Dma.nonMaskable

/-- All state of the processor: general registers, PC, SR, IIF and the stopped state. -/
def sameProcessor (s t : State) : Prop :=
  t.regs = s.regs ∧ t.pc = s.pc ∧ t.sr = s.sr ∧ t.iif = s.iif ∧ t.halted = s.halted

/-- The frame of an instruction that writes the registers `ds` and the four flags. -/
def aluFrame (ds : List Reg) (s t : State) : Prop :=
  sameRegsBut ds s t ∧ sameUpperSr s t ∧ sameControl s t ∧ sameMemory s t ∧ sameUnits s t ∧ t.pc = s.pc

/-- The frame of an instruction that writes the registers `ds`, no flag and no memory. -/
def regFrame (ds : List Reg) (s t : State) : Prop :=
  sameRegsBut ds s t ∧ t.sr = s.sr ∧ sameControl s t ∧ sameMemory s t ∧ sameUnits s t

/-- The frame of an instruction that stores `n` bytes at `a` and writes the registers `ds`. -/
def storeFrame (ds : List Reg) (a : Word) (n : Nat) (s t : State) : Prop :=
  sameRegsBut ds s t ∧ t.sr = s.sr ∧ sameControl s t ∧ sameMemoryOutside a n s t ∧ sameUnits s t

/-! ### Values -/

/-- The little-endian value of the `n` bytes from `a` (20_memory.md R52). -/
def leValue (s : State) (a : Word) : Nat → Nat
  | 0 => 0
  | n + 1 => leValue s a n + 256 ^ n * (s.byteAt (a + BitVec.ofNat 32 n)).toNat

/-- The flags and result of `a + b + cin` in exact integers (40_alu.md R121), and the frame. -/
def IsSum (a b : Word) (cin : Nat) (d : Reg) (s t : State) : Prop :=
  (t.getReg d).toNat = (a.toNat + b.toNat + cin) % 2 ^ 32 ∧
  (t.flagC = true ↔ 2 ^ 32 ≤ a.toNat + b.toNat + cin) ∧
  (t.flagV = true ↔ a.toInt + b.toInt + cin < -2 ^ 31 ∨ 2 ^ 31 - 1 < a.toInt + b.toInt + cin) ∧
  (t.flagN = true ↔ 2 ^ 31 ≤ (t.getReg d).toNat) ∧
  (t.flagZ = true ↔ t.getReg d = 0#32) ∧
  aluFrame [d] s t

/-- The flags of `a - b + adj` in exact integers (R122), for the 32-bit result `r`. -/
def DifferenceFlags (a b : Word) (adj : Int) (r : Word) (t : State) : Prop :=
  (r.toNat : Int) = ((a.toNat : Int) - b.toNat + adj) % 2 ^ 32 ∧
  (t.flagC = true ↔ 0 ≤ (a.toNat : Int) - b.toNat + adj) ∧
  (t.flagV = true ↔ a.toInt - b.toInt + adj < -2 ^ 31 ∨ 2 ^ 31 - 1 < a.toInt - b.toInt + adj) ∧
  (t.flagN = true ↔ 2 ^ 31 ≤ r.toNat) ∧
  (t.flagZ = true ↔ r = 0#32)

/-- A bitwise result with C and V cleared (R129 to R131), and the frame. -/
def IsBitwise (f : Bool → Bool → Bool) (a b : Word) (d : Reg) (s t : State) : Prop :=
  (∀ j, j < 32 → (t.getReg d).getLsbD j = f (a.getLsbD j) (b.getLsbD j)) ∧
  t.flagC = false ∧ t.flagV = false ∧
  (t.flagN = true ↔ 2 ^ 31 ≤ (t.getReg d).toNat) ∧
  (t.flagZ = true ↔ t.getReg d = 0#32) ∧
  aluFrame [d] s t

/-- What every shift and rotation does whatever the count (R133): V cleared, N and Z from the result, the frame; and
with a count of zero the operand is the result (flag C is then not stated). -/
def ShiftCommon (a : Word) (n : Nat) (d : Reg) (s t : State) : Prop :=
  (n = 0 → t.getReg d = a) ∧
  t.flagV = false ∧
  (t.flagN = true ↔ 2 ^ 31 ≤ (t.getReg d).toNat) ∧
  (t.flagZ = true ↔ t.getReg d = 0#32) ∧
  aluFrame [d] s t

/-- SHL by `n` places (R134). -/
def ShlSpec (a : Word) (n : Nat) (d : Reg) (s t : State) : Prop :=
  ShiftCommon a n d s t ∧
  (1 ≤ n → n ≤ 32 → (t.getReg d).toNat = a.toNat * 2 ^ n % 2 ^ 32 ∧ t.flagC = a.getLsbD (32 - n)) ∧
  (33 ≤ n → t.getReg d = 0#32 ∧ t.flagC = false)

/-- SHR by `n` places (R135). -/
def ShrSpec (a : Word) (n : Nat) (d : Reg) (s t : State) : Prop :=
  ShiftCommon a n d s t ∧
  (1 ≤ n → n ≤ 32 → (t.getReg d).toNat = a.toNat / 2 ^ n ∧ t.flagC = a.getLsbD (n - 1)) ∧
  (33 ≤ n → t.getReg d = 0#32 ∧ t.flagC = false)

/-- ASHR by `n` places (R136); the division rounds toward minus infinity. -/
def AshrSpec (a : Word) (n : Nat) (d : Reg) (s t : State) : Prop :=
  ShiftCommon a n d s t ∧
  (1 ≤ n → n ≤ 31 → (t.getReg d).toInt = a.toInt / 2 ^ n ∧ t.flagC = a.getLsbD (n - 1)) ∧
  (32 ≤ n → (t.getReg d).toInt = (if a.getLsbD 31 then -1 else 0) ∧ t.flagC = a.getLsbD 31)

/-- ROTL by `n` places (R137): bit j of the operand goes to bit (j + n) mod 32. -/
def RotlSpec (a : Word) (n : Nat) (d : Reg) (s t : State) : Prop :=
  ShiftCommon a n d s t ∧
  (∀ j, j < 32 → (t.getReg d).getLsbD ((j + n) % 32) = a.getLsbD j) ∧
  (1 ≤ n → t.flagC = (t.getReg d).getLsbD 0)

/-- ROTR by `n` places (R138): bit j of the result is bit (j + n) mod 32 of the operand. -/
def RotrSpec (a : Word) (n : Nat) (d : Reg) (s t : State) : Prop :=
  ShiftCommon a n d s t ∧
  (∀ j, j < 32 → (t.getReg d).getLsbD j = a.getLsbD ((j + n) % 32)) ∧
  (1 ≤ n → t.flagC = (t.getReg d).getLsbD 31)

/-- The table of R123: what the conditions say of the operands X and Y of the CMP or SUB that set the flags. -/
def RelationsHold (x y : Word) (t : State) : Prop :=
  (t.cond .z = true ↔ x = y) ∧
  (t.cond .nz = true ↔ x ≠ y) ∧
  (t.cond .nc = true ↔ x.toNat < y.toNat) ∧
  (t.cond .c = true ↔ y.toNat ≤ x.toNat) ∧
  (t.cond .ule = true ↔ x.toNat ≤ y.toNat) ∧
  (t.cond .ugt = true ↔ y.toNat < x.toNat) ∧
  (t.cond .slt = true ↔ x.toInt < y.toInt) ∧
  (t.cond .sge = true ↔ y.toInt ≤ x.toInt) ∧
  (t.cond .sle = true ↔ x.toInt ≤ y.toInt) ∧
  (t.cond .sgt = true ↔ y.toInt < x.toInt)

/-! ### Loads and stores -/

/-- A load of `w.bytes` bytes at the effective address `ea` from memory into `d` (42_memory_instructions.md R162 to
R164): the little-endian value, higher bits zero. -/
def LoadsMemory (w : Width) (ea : Word) (d : Reg) (s : State) (out : StepOutcome) : Prop :=
  s.memoryBacked (align ea w) w = true →
    ∃ t, out = .next t ∧ (t.getReg d).toNat = leValue s (align ea w) w.bytes ∧ regFrame [d] s t ∧ t.pc = s.pc

/-- A store of the low `w.bytes` bytes of `v` at the effective address `ea` to memory (R165 to R167). -/
def StoresMemory (w : Width) (ea v : Word) (s : State) (out : StepOutcome) : Prop :=
  s.memoryBacked (align ea w) w = true →
    ∃ t, out = .next t ∧
      (∀ j, j < w.bytes → t.byteAt (align ea w + BitVec.ofNat 32 j) = v.extractLsb' (8 * j) 8) ∧
      storeFrame [] (align ea w) w.bytes s t ∧ t.pc = s.pc

/-- A word load from a register of a FRISC-CT (60_exceptions.md R231, R237). -/
def LoadsCt (ea : Word) (d : Reg) (s : State) (out : StepOutcome) : Prop :=
  ∀ j u, s.target (align ea .word) = .ct j u →
    ∃ t, out = .next t ∧ regFrame [d] s t ∧ t.pc = s.pc ∧
      (align ea .word - u.base = 0#32 → (t.getReg d).toNat = u.cr.toNat) ∧
      (align ea .word - u.base = 4#32 → (t.getReg d).toNat = u.dc.toNat) ∧
      (align ea .word - u.base = 8#32 → (t.getReg d).toNat = u.status.toNat)

/-- A word load from a register of a FRISC-PIO (R240, R242, R246). -/
def LoadsPio (ea : Word) (d : Reg) (s : State) (out : StepOutcome) : Prop :=
  ∀ j u, s.target (align ea .word) = .pio j u →
    ∃ t, out = .next t ∧ regFrame [d] s t ∧ t.pc = s.pc ∧
      (align ea .word - u.base = 0#32 →
        (t.getReg d).toNat = 2 ^ 16 * u.active.toNat + 2 ^ 8 * u.mask.toNat + u.ctl.toNat) ∧
      (align ea .word - u.base = 4#32 →
        (t.getReg d).toNat = if u.ctl.extractLsb' 0 2 = 3#2 then u.lines.toNat else u.dr.toNat) ∧
      (align ea .word - u.base = 8#32 → (t.getReg d).toNat = u.status.toNat)

/-- A word load from a register of a FRISC-DMA (R250, R256). -/
def LoadsDma (ea : Word) (d : Reg) (s : State) (out : StepOutcome) : Prop :=
  ∀ j u, s.target (align ea .word) = .dma j u →
    ∃ t, out = .next t ∧ regFrame [d] s t ∧ t.pc = s.pc ∧
      (align ea .word - u.base = 0#32 → t.getReg d = u.src) ∧
      (align ea .word - u.base = 4#32 → t.getReg d = u.dst) ∧
      (align ea .word - u.base = 8#32 → t.getReg d = u.cnt) ∧
      (align ea .word - u.base = 12#32 → (t.getReg d).toNat = u.cr.toNat) ∧
      (align ea .word - u.base = 20#32 → (t.getReg d).toNat = u.status.toNat)

/-- A word store to a register of a FRISC-CT (R231 to R236). -/
def StoresCt (ea v : Word) (s : State) (out : StepOutcome) : Prop :=
  ∀ j u, s.target (align ea .word) = .ct j u →
    ∃ t u', out = .next t ∧ sameProcessor s t ∧ sameControl s t ∧ sameMemory s t ∧
      t.cts = s.cts.set j u' ∧ t.pios = s.pios ∧ t.dmas = s.dmas ∧
      (align ea .word - u.base = 0#32 → u' = { u with cr := v.extractLsb' 0 3 }) ∧
      (align ea .word - u.base = 4#32 → u.cr.getLsbD 0 = false →
        u' = { u with lr := v.extractLsb' 0 16, dc := v.extractLsb' 0 16 }) ∧
      (align ea .word - u.base = 8#32 →
        u' = { u with status := false, waitEos := u.waitEos || (u.status && u.cr.getLsbD 1) }) ∧
      (align ea .word - u.base = 12#32 → u' = { u with waitEos := false })

/-- A word store to a register of a FRISC-PIO (R240 to R245). -/
def StoresPio (ea v : Word) (s : State) (out : StepOutcome) : Prop :=
  ∀ j u, s.target (align ea .word) = .pio j u →
    ∃ t u', out = .next t ∧ sameProcessor s t ∧ sameControl s t ∧ sameMemory s t ∧
      t.cts = s.cts ∧ t.pios = s.pios.set j u' ∧ t.dmas = s.dmas ∧
      (align ea .word - u.base = 0#32 → (u.status = false ∨ v.extractLsb' 0 2 = u.ctl.extractLsb' 0 2) →
        u' = { u with active := v.extractLsb' 16 8, mask := v.extractLsb' 8 8, ctl := v.extractLsb' 0 5 }) ∧
      (align ea .word - u.base = 4#32 →
        u' = { u with
          dr := v.extractLsb' 0 8
          lines := if u.ctl.extractLsb' 0 2 = 2#2 then v.extractLsb' 0 8 else u.lines }) ∧
      (align ea .word - u.base = 8#32 →
        u' = { u with status := false, waitEos := u.waitEos || (u.status && u.ctl.getLsbD 2) }) ∧
      (align ea .word - u.base = 12#32 → u' = { u with waitEos := false })

/-- A word store to a register of a FRISC-DMA (R250 to R255). -/
def StoresDma (ea v : Word) (s : State) (out : StepOutcome) : Prop :=
  ∀ j u, s.target (align ea .word) = .dma j u →
    ∃ t u', out = .next t ∧ sameProcessor s t ∧ sameControl s t ∧ sameMemory s t ∧
      t.cts = s.cts ∧ t.pios = s.pios ∧ t.dmas = s.dmas.set j u' ∧
      (align ea .word - u.base = 0#32 → u.busy = false → u' = { u with src := v }) ∧
      (align ea .word - u.base = 4#32 → u.busy = false → u' = { u with dst := v }) ∧
      (align ea .word - u.base = 8#32 → u.busy = false → u' = { u with cnt := v }) ∧
      (align ea .word - u.base = 12#32 → u.busy = false → u' = { u with cr := v.extractLsb' 0 4 }) ∧
      (align ea .word - u.base = 16#32 → u.busy = false → u.cnt ≠ 0#32 → u.overlaps = false →
        u' = { u with busy := true }) ∧
      (align ea .word - u.base = 20#32 → u' = { u with status := false })

/-- The bit-testing condition of a FRISC-PIO for the levels `b` (R244): every tested bit is active with AND, some tested
bit with OR. -/
def Pio.ConditionHolds (u : Pio) (b : Byte) : Prop :=
  if u.ctl.getLsbD 4 then ∀ i, i < 8 → u.mask.getLsbD i = true → b.getLsbD i = u.active.getLsbD i
  else ∃ i, i < 8 ∧ u.mask.getLsbD i = true ∧ b.getLsbD i = u.active.getLsbD i

/-! ### What an instruction may write -/

/-- The general registers an instruction writes (10_state.md R22). -/
def regsWritten : Instr → List Reg
  | .orReg _ _ d | .andReg _ _ d | .xorReg _ _ d | .addReg _ _ d | .adcReg _ _ d | .subReg _ _ d | .sbcReg _ _ d
  | .rotlReg _ _ d | .rotrReg _ _ d | .shlReg _ _ d | .shrReg _ _ d | .ashrReg _ _ d => [d]
  | .orImm _ _ d | .andImm _ _ d | .xorImm _ _ d | .addImm _ _ d | .adcImm _ _ d | .subImm _ _ d | .sbcImm _ _ d
  | .rotlImm _ _ d | .rotrImm _ _ d | .shlImm _ _ d | .shrImm _ _ d | .ashrImm _ _ d => [d]
  | .moveReg _ d | .moveImm _ d | .moveFromSr d => [d]
  | .loadAbs d _ | .loadOff d _ _ | .loadhAbs d _ | .loadhOff d _ _ | .loadbAbs d _ | .loadbOff d _ _ => [d]
  | .push _ => [.r7]
  | .pop d => [d, .r7]
  | .callAbs .. | .callReg .. | .ret .. | .reti .. | .retn .. => [.r7]
  | .cmpReg .. | .cmpImm .. | .moveToSrReg .. | .moveToSrImm ..
  | .storeAbs .. | .storeOff .. | .storehAbs .. | .storehOff .. | .storebAbs .. | .storebOff ..
  | .jpAbs .. | .jpReg .. | .jr .. | .halt .. => []

/-- The instructions that write N, C, V and Z (10_state.md R29). -/
def writesFlags : Instr → Bool
  | .orReg .. | .andReg .. | .xorReg .. | .addReg .. | .adcReg .. | .subReg .. | .sbcReg .. | .cmpReg ..
  | .rotlReg .. | .rotrReg .. | .shlReg .. | .shrReg .. | .ashrReg ..
  | .orImm .. | .andImm .. | .xorImm .. | .addImm .. | .adcImm .. | .subImm .. | .sbcImm .. | .cmpImm ..
  | .rotlImm .. | .rotrImm .. | .shlImm .. | .shrImm .. | .ashrImm ..
  | .moveToSrReg .. | .moveToSrImm .. => true
  | .moveReg .. | .moveImm .. | .moveFromSr .. | .loadAbs .. | .loadOff .. | .loadhAbs .. | .loadhOff ..
  | .loadbAbs .. | .loadbOff .. | .storeAbs .. | .storeOff .. | .storehAbs .. | .storehOff .. | .storebAbs ..
  | .storebOff .. | .push .. | .pop .. | .jpAbs .. | .jpReg .. | .callAbs .. | .callReg .. | .jr .. | .ret ..
  | .reti .. | .retn .. | .halt .. => false

/-- The instructions that write memory (or, through memory addresses, a unit): 10_state.md R34. -/
def storesMemory : Instr → Bool
  | .storeAbs .. | .storeOff .. | .storehAbs .. | .storehOff .. | .storebAbs .. | .storebOff .. | .push ..
  | .callAbs .. | .callReg .. => true
  | .orReg .. | .andReg .. | .xorReg .. | .addReg .. | .adcReg .. | .subReg .. | .sbcReg .. | .cmpReg ..
  | .rotlReg .. | .rotrReg .. | .shlReg .. | .shrReg .. | .ashrReg ..
  | .orImm .. | .andImm .. | .xorImm .. | .addImm .. | .adcImm .. | .subImm .. | .sbcImm .. | .cmpImm ..
  | .rotlImm .. | .rotrImm .. | .shlImm .. | .shrImm .. | .ashrImm ..
  | .moveToSrReg .. | .moveToSrImm .. | .moveReg .. | .moveImm .. | .moveFromSr .. | .loadAbs .. | .loadOff ..
  | .loadhAbs .. | .loadhOff .. | .loadbAbs .. | .loadbOff .. | .pop .. | .jpAbs .. | .jpReg .. | .jr ..
  | .ret .. | .reti .. | .retn .. | .halt .. => false

/-- The address names a register of a unit. -/
def Target.isUnit : Target → Bool
  | .ct .. | .pio .. | .dma .. => true
  | .memory | .unmapped => false

/-- The effective address and the width of the data access an instruction makes in the state it executes in; none for
an instruction that makes none or whose condition is false (42_memory_instructions.md R160, R168, R169; 43_control.md
R182, R190, R193). -/
def memoryAccess (s : State) : Instr → Option (Word × Width)
  | .loadAbs _ k | .storeAbs _ k => some (eaAbs k, .word)
  | .loadOff _ r k | .storeOff _ r k => some (s.eaOff r k, .word)
  | .loadhAbs _ k | .storehAbs _ k => some (eaAbs k, .half)
  | .loadhOff _ r k | .storehOff _ r k => some (s.eaOff r k, .half)
  | .loadbAbs _ k | .storebAbs _ k => some (eaAbs k, .byte)
  | .loadbOff _ r k | .storebOff _ r k => some (s.eaOff r k, .byte)
  | .push _ => some (s.getReg .r7 - 4#32, .word)
  | .pop _ => some (s.getReg .r7, .word)
  | .callAbs cc _ | .callReg cc _ => if s.cond cc then some (s.getReg .r7 - 4#32, .word) else none
  | .ret cc | .reti cc | .retn cc => if s.cond cc then some (s.getReg .r7, .word) else none
  | .orReg .. | .andReg .. | .xorReg .. | .addReg .. | .adcReg .. | .subReg .. | .sbcReg .. | .cmpReg ..
  | .rotlReg .. | .rotrReg .. | .shlReg .. | .shrReg .. | .ashrReg ..
  | .orImm .. | .andImm .. | .xorImm .. | .addImm .. | .adcImm .. | .subImm .. | .sbcImm .. | .cmpImm ..
  | .rotlImm .. | .rotrImm .. | .shlImm .. | .shrImm .. | .ashrImm ..
  | .moveToSrReg .. | .moveToSrImm .. | .moveReg .. | .moveImm .. | .moveFromSr .. | .jpAbs .. | .jpReg ..
  | .jr .. | .halt .. => none

/-! ### The invariant and safe runs -/

/-- Memory is in its canonical form, and lists bytes only at addresses that the platform backs with memory, never in
a unit's window or where there is nothing. -/
def State.Inv (s : State) : Prop :=
  Memory.wf s.mem = true ∧ ∀ c ∈ s.mem, (s.target (BitVec.ofNat 32 c.1)).isMemory = true

/-- At this boundary the processor goes on from `s1`: the events are over, no FRISC-DMA holds it, it is not halted. -/
def State.ProcessorFree (s s1 : State) : Prop :=
  s.afterBoundary = .ok s1 ∧ s1.dmaHolds = false ∧ s1.halted = false

/-- The processor executes the instruction `i` in this step, in the state `s2` after its fetch. -/
def State.Executes (s : State) (i : Instr) (s2 : State) : Prop :=
  ∃ s1 w, s.ProcessorFree s1 ∧ s1.pendingInterrupt s.boundary.hold = none ∧ s1.fetch = .ok (w, s2) ∧
    decodeWord w = .ok i

/-- The states a run can reach. -/
inductive Reaches (s : State) : State → Prop where
  | refl : Reaches s s
  | next {t u : State} : Reaches s t → step t = .next u → Reaches s u

/-- A safe run never stops: no state it reaches faults or is refused. -/
def State.Safe (s : State) : Prop := ∀ t, Reaches s t → ∃ u, step t = .next u

end Sys2Proof.Machine
end

