-- ==== Sys2Proof/Certificates/Slice0/Obligations.lean ====
section
/-! DEFINITION. The statements for the provers.  PC in an `exec` statement is the address of the next instruction
(10_state.md R24): the fetch has moved it. -/

open Sys2Proof Sys2Proof.Machine

/-! ### Encoding -/

/-- R81 to R92: decoding the stored bytes of a well-formed instruction gives the instruction, whatever bytes follow. The
encoding is the spec's decision D5 (assumption log 17). -/
def Obligations.DecodeOfEncodedBytes : Prop :=
  ∀ (i : Instr) (rest : List Byte), i.wellFormed = true → decodeBytes (encodeBytes i ++ rest) = .ok i

/-- R104 with R95: every word that decodes is the encoding of a well-formed instruction, so no two words decode to one
instruction and no bit of a word is ignored. The strict decoder is the spec's decision D6 (log 18). -/
def Obligations.DecodedWordIsItsEncoding : Prop :=
  ∀ (w : Word) (i : Instr), decodeWord w = .ok i → i.wellFormed = true ∧ encode i = w

/-- Words of R106 and of 95_test_vectors.md section 3.1 decode to the instructions they stand for. (Decision D5, log
17.) -/
def Obligations.ListedWordsDecode : Prop :=
  decodeTableWord 32 0x07810000 = some (.moveImm 0x10000 .r7) ∧
  decodeTableWord 32 0x21020000 = some (.addReg .r0 .r1 .r2) ∧
  decodeTableWord 32 0x35B00001 = some (.subImm .r3 1 .r3) ∧
  decodeTableWord 32 0xB4100004 = some (.loadOff .r0 .r1 4) ∧
  decodeTableWord 32 0xA53FFFFE = some (.loadhOff .r2 .r3 (-2)) ∧
  decodeTableWord 32 0x88000000 = some (.push .r0) ∧
  decodeTableWord 32 0xC4000100 = some (.jpAbs .always 0x100) ∧
  decodeTableWord 32 0xD60FFFF4 = some (.jr .nz (-12)) ∧
  decodeTableWord 32 0xD8000003 = some (.retn .always) ∧
  decodeTableWord 32 0x00200000 = some (.moveFromSr .r0) ∧
  decodeTableWord 32 0xF8000000 = some (.halt .always)

/-- R94 and R96: the reserved operation codes, condition code, return kind and combinations are rejected. (Decision D6,
log 18.) -/
def Obligations.ReservedPatternsAreRejected : Prop :=
  ∀ w : Word,
    ((fieldOp w).toNat ∈ [14, 15, 28, 29, 30] → decodeWord w = .error .reservedOpcode) ∧
    ((fieldOp w).toNat ∈ [24, 25, 26, 27, 31] → w.extractLsb' 22 4 = 15#4 →
      decodeWord w = .error .reservedCondition) ∧
    ((fieldOp w).toNat = 27 → w.extractLsb' 0 2 = 2#2 → ∃ e, decodeWord w = .error e) ∧
    ((fieldOp w).toNat = 0 → w.extractLsb' 20 2 = 3#2 → ∃ e, decodeWord w = .error e) ∧
    ((fieldOp w).toNat = 0 → w.extractLsb' 21 1 = 1#1 → w.extractLsb' 26 1 = 1#1 → ∃ e, decodeWord w = .error e) ∧
    ((fieldOp w).toNat = 26 → w.extractLsb' 26 1 = 0#1 → ∃ e, decodeWord w = .error e) ∧
    ((fieldOp w).toNat ∈ [16, 17] → w.extractLsb' 26 1 = 1#1 → ∃ e, decodeWord w = .error e) ∧
    ((fieldOp w).toNat = 13 → w.extractLsb' 23 3 ≠ 0#3 → ∃ e, decodeWord w = .error e)

/-- R93, R186: the JR that the assembler writes at address `a` for the target `adr` goes to `adr` when its condition is
true. (Decision D2, log 20.) -/
def Obligations.AssembledJrReachesItsTarget : Prop :=
  ∀ (cc : Cond) (a adr : Nat) (i : Instr) (s : State),
    assembleJr cc a adr = some i → s.pc = BitVec.ofNat 32 (a + 4) → s.cond cc = true →
      ∃ t, exec i s = .next t ∧ t.pc = BitVec.ofNat 32 adr

/-! ### The step -/

/-- R25, R57, R64: when the processor is free, no interrupt is taken and the four bytes of the aligned word at PC decode
to `i`, the step is `exec i` in the state whose PC has moved to the next instruction. The order of what happens at a
boundary is the model's choice (log 14), the advance of PC and the ignored low bits are decisions D1, D2 and D4 (logs 19
and 20). -/
def Obligations.StepRunsTheDecodedInstruction : Prop :=
  ∀ (s s1 : State) (i : Instr), s.ProcessorFree s1 → s1.pendingInterrupt s.boundary.hold = none →
    s1.memoryBacked (align s1.pc .word) .word = true →
    decodeBytes [s1.byteAt (align s1.pc .word), s1.byteAt (align s1.pc .word + 1#32),
      s1.byteAt (align s1.pc .word + 2#32), s1.byteAt (align s1.pc .word + 3#32)] = .ok i →
    step s = exec i (s1.setPc (s1.pc + 4#32))

/-- R94 to R96: when those bytes are no instruction, the step is the fault that names why. (Decision D6, log 18.) -/
def Obligations.UndefinedWordFaults : Prop :=
  ∀ (s s1 : State) (e : DecodeError), s.ProcessorFree s1 → s1.pendingInterrupt s.boundary.hold = none →
    s1.memoryBacked (align s1.pc .word) .word = true →
    decodeBytes [s1.byteAt (align s1.pc .word), s1.byteAt (align s1.pc .word + 1#32),
      s1.byteAt (align s1.pc .word + 2#32), s1.byteAt (align s1.pc .word + 3#32)] = .error e →
    step s = .fault (.undefinedInstruction e)

/-! ### Arithmetic and logic -/

/-- R121, R124, R125: ADD writes the sum and the four flags, ADC the sum with the flag C that stands before the
instruction, and nothing else, in both forms. -/
def Obligations.AddAndAdcWriteSumAndFlags : Prop :=
  ∀ (a d : Reg) (s : State),
    (∀ b, ∃ t, exec (.addReg a b d) s = .next t ∧ IsSum (s.getReg a) (s.getReg b) 0 d s t) ∧
    (∀ k, ∃ t, exec (.addImm a k d) s = .next t ∧ IsSum (s.getReg a) (sext20 k) 0 d s t) ∧
    (∀ b, ∃ t, exec (.adcReg a b d) s = .next t ∧ IsSum (s.getReg a) (s.getReg b) s.flagC.toNat d s t) ∧
    (∀ k, ∃ t, exec (.adcImm a k d) s = .next t ∧ IsSum (s.getReg a) (sext20 k) s.flagC.toNat d s t)

/-- R122, R126: SUB writes src1 - src2 and the four flags, C being "no borrow", and nothing else. -/
def Obligations.SubWritesDifferenceAndFlags : Prop :=
  ∀ (a d : Reg) (s : State),
    (∀ b, ∃ t, exec (.subReg a b d) s = .next t ∧
      DifferenceFlags (s.getReg a) (s.getReg b) 0 (t.getReg d) t ∧ aluFrame [d] s t) ∧
    (∀ k, ∃ t, exec (.subImm a k d) s = .next t ∧
      DifferenceFlags (s.getReg a) (sext20 k) 0 (t.getReg d) t ∧ aluFrame [d] s t)

/-- R127: SBC, for both values of the open parameter `SBC_BIAS`. (Decision D7, log 1.) -/
def Obligations.SbcWritesAdjustedDifference : Prop :=
  ∀ (a d : Reg) (s : State),
    (∀ b, ∃ t, exec (.sbcReg a b d) s = .next t ∧
      DifferenceFlags (s.getReg a) (s.getReg b) ((s.flagC.toNat : Int) - s.params.sbcBias.toNat) (t.getReg d) t ∧
      aluFrame [d] s t) ∧
    (∀ k, ∃ t, exec (.sbcImm a k d) s = .next t ∧
      DifferenceFlags (s.getReg a) (sext20 k) ((s.flagC.toNat : Int) - s.params.sbcBias.toNat) (t.getReg d) t ∧
      aluFrame [d] s t)

/-- R128: CMP writes the flags of the difference and no register. -/
def Obligations.CmpWritesFlagsOnly : Prop :=
  ∀ (a : Reg) (s : State),
    (∀ b, ∃ t r, exec (.cmpReg a b) s = .next t ∧ DifferenceFlags (s.getReg a) (s.getReg b) 0 r t ∧ aluFrame [] s t) ∧
    (∀ k, ∃ t r, exec (.cmpImm a k) s = .next t ∧ DifferenceFlags (s.getReg a) (sext20 k) 0 r t ∧ aluFrame [] s t)

/-- R123: after CMP or SUB each of the ten relational conditions is true exactly when its relation holds between src1
and src2. -/
def Obligations.ConditionsCompareTheOperands : Prop :=
  ∀ (a d : Reg) (s : State),
    (∀ b, ∃ t, exec (.cmpReg a b) s = .next t ∧ RelationsHold (s.getReg a) (s.getReg b) t) ∧
    (∀ k, ∃ t, exec (.cmpImm a k) s = .next t ∧ RelationsHold (s.getReg a) (sext20 k) t) ∧
    (∀ b, ∃ t, exec (.subReg a b d) s = .next t ∧ RelationsHold (s.getReg a) (s.getReg b) t) ∧
    (∀ k, ∃ t, exec (.subImm a k d) s = .next t ∧ RelationsHold (s.getReg a) (sext20 k) t)

/-- R125 (use): ADD on the low words and ADC on the high words add two 64-bit numbers. -/
def Obligations.AddThenAdcIsLongAddition : Prop :=
  ∀ (a0 a1 b0 b1 d0 d1 : Reg) (s : State), d0 ≠ a1 → d0 ≠ b1 → d0 ≠ d1 →
    ∃ t u, exec (.addReg a0 b0 d0) s = .next t ∧ exec (.adcReg a1 b1 d1) t = .next u ∧
      (u.getReg d0).toNat + 2 ^ 32 * (u.getReg d1).toNat =
        ((s.getReg a0).toNat + 2 ^ 32 * (s.getReg a1).toNat
          + ((s.getReg b0).toNat + 2 ^ 32 * (s.getReg b1).toNat)) % 2 ^ 64

/-- 90_conflicts.md C1: SUB on the low words and SBC on the high words subtract two 64-bit numbers under `SBC_BIAS` = 1,
and give a high word one too large under `SBC_BIAS` = 0. -/
def Obligations.SubThenSbcLongSubtraction : Prop :=
  ∀ (a0 a1 b0 b1 d0 d1 : Reg) (s : State), d0 ≠ a1 → d0 ≠ b1 → d0 ≠ d1 →
    ∃ t u, exec (.subReg a0 b0 d0) s = .next t ∧ exec (.sbcReg a1 b1 d1) t = .next u ∧
      ((u.getReg d0).toNat : Int) + 2 ^ 32 * (u.getReg d1).toNat =
        (((s.getReg a0).toNat : Int) + 2 ^ 32 * (s.getReg a1).toNat
          - (((s.getReg b0).toNat : Int) + 2 ^ 32 * (s.getReg b1).toNat)
          + if s.params.sbcBias then 0 else 2 ^ 32) % 2 ^ 64

/-- R129 to R131: AND, OR and XOR are bitwise, clear C and V and set N and Z, in both forms. -/
def Obligations.LogicIsBitwise : Prop :=
  ∀ (a d : Reg) (s : State),
    (∀ b, ∃ t, exec (.andReg a b d) s = .next t ∧ IsBitwise (· && ·) (s.getReg a) (s.getReg b) d s t) ∧
    (∀ k, ∃ t, exec (.andImm a k d) s = .next t ∧ IsBitwise (· && ·) (s.getReg a) (sext20 k) d s t) ∧
    (∀ b, ∃ t, exec (.orReg a b d) s = .next t ∧ IsBitwise (· || ·) (s.getReg a) (s.getReg b) d s t) ∧
    (∀ k, ∃ t, exec (.orImm a k d) s = .next t ∧ IsBitwise (· || ·) (s.getReg a) (sext20 k) d s t) ∧
    (∀ b, ∃ t, exec (.xorReg a b d) s = .next t ∧ IsBitwise xor (s.getReg a) (s.getReg b) d s t) ∧
    (∀ k, ∃ t, exec (.xorImm a k d) s = .next t ∧ IsBitwise xor (s.getReg a) (sext20 k) d s t)

/-! ### Shifts and rotations -/

/-- R132 to R136: SHL, SHR and ASHR, in both forms, for every count. With a count of zero flag C is not stated: it is
free (assumption log 3). That the whole count acts is decision D8 (log 21). -/
def Obligations.ShiftsMultiplyAndDivide : Prop :=
  ∀ (a d : Reg) (s : State),
    (∀ b, ∃ t, exec (.shlReg a b d) s = .next t ∧ ShlSpec (s.getReg a) (s.getReg b).toNat d s t) ∧
    (∀ k, ∃ t, exec (.shlImm a k d) s = .next t ∧ ShlSpec (s.getReg a) (sext20 k).toNat d s t) ∧
    (∀ b, ∃ t, exec (.shrReg a b d) s = .next t ∧ ShrSpec (s.getReg a) (s.getReg b).toNat d s t) ∧
    (∀ k, ∃ t, exec (.shrImm a k d) s = .next t ∧ ShrSpec (s.getReg a) (sext20 k).toNat d s t) ∧
    (∀ b, ∃ t, exec (.ashrReg a b d) s = .next t ∧ AshrSpec (s.getReg a) (s.getReg b).toNat d s t) ∧
    (∀ k, ∃ t, exec (.ashrImm a k d) s = .next t ∧ AshrSpec (s.getReg a) (sext20 k).toNat d s t)

/-- R132, R133, R137, R138. Decisions D8 and D9 (logs 21 and 3). -/
def Obligations.RotationsMoveBitsRound : Prop :=
  ∀ (a d : Reg) (s : State),
    (∀ b, ∃ t, exec (.rotlReg a b d) s = .next t ∧ RotlSpec (s.getReg a) (s.getReg b).toNat d s t) ∧
    (∀ k, ∃ t, exec (.rotlImm a k d) s = .next t ∧ RotlSpec (s.getReg a) (sext20 k).toNat d s t) ∧
    (∀ b, ∃ t, exec (.rotrReg a b d) s = .next t ∧ RotrSpec (s.getReg a) (s.getReg b).toNat d s t) ∧
    (∀ k, ∃ t, exec (.rotrImm a k d) s = .next t ∧ RotrSpec (s.getReg a) (sext20 k).toNat d s t)

/-- R133: the closed forms equal `ShiftOp`, `n` steps of one place each: the result for every count, and the exit bit
of the last step for every count of at least 1. -/
def Obligations.ShiftClosedFormsEqualSteps : Prop :=
  ∀ (kind : ShiftKind) (a : Word) (n : Nat),
    (shiftSteps kind a n).1 = shiftValue kind a n ∧
    (1 ≤ n → (shiftSteps kind a n).2 = some (shiftExit kind a n))

/-! ### MOVE -/

/-- R150: MOVE src2, dest writes the register and changes no flag and nothing else. -/
def Obligations.MoveWritesRegister : Prop :=
  ∀ (d : Reg) (s : State),
    (∀ b, ∃ t, exec (.moveReg b d) s = .next t ∧ t.getReg d = s.getReg b ∧ regFrame [d] s t ∧ t.pc = s.pc) ∧
    (∀ k, ∃ t, exec (.moveImm k d) s = .next t ∧ t.getReg d = sext20 k ∧ regFrame [d] s t ∧ t.pc = s.pc)

/-- R151: MOVE SR, dest reads N in bit 0, C in bit 1, V in bit 2, Z in bit 3, GIE in bit 4, the unnamed bits in 7 to 5
and zeros above.  That the unnamed bits read back is the spec's decision D10. -/
def Obligations.MoveReadsSr : Prop :=
  ∀ (d : Reg) (s : State), ∃ t, exec (.moveFromSr d) s = .next t ∧
    (t.getReg d).getLsbD 0 = s.flagN ∧ (t.getReg d).getLsbD 1 = s.flagC ∧ (t.getReg d).getLsbD 2 = s.flagV ∧
    (t.getReg d).getLsbD 3 = s.flagZ ∧ (t.getReg d).getLsbD 4 = s.gie ∧
    (t.getReg d).extractLsb' 5 3 = s.sr.extractLsb' 5 3 ∧ (t.getReg d).extractLsb' 8 24 = 0#24 ∧
    regFrame [d] s t ∧ t.pc = s.pc

/-- R152: MOVE src2, SR writes N, C, V, Z, GIE and the unnamed bits from the lowest byte of src2 and nothing else. That
the unnamed bits are stored is decision D10 (log 22), that all four flags are written 90_conflicts.md C3 (log 37). -/
def Obligations.MoveWritesSr : Prop :=
  ∀ (v : Word) (s : State) (out : StepOutcome),
    ((∃ b, s.getReg b = v ∧ out = exec (.moveToSrReg b) s) ∨ (∃ k, sext20 k = v ∧ out = exec (.moveToSrImm k) s)) →
    ∃ t, out = .next t ∧ t.flagN = v.getLsbD 0 ∧ t.flagC = v.getLsbD 1 ∧ t.flagV = v.getLsbD 2 ∧
      t.flagZ = v.getLsbD 3 ∧ t.gie = v.getLsbD 4 ∧ t.sr.extractLsb' 5 3 = v.extractLsb' 5 3 ∧
      sameRegsBut [] s t ∧ sameControl s t ∧ sameMemory s t ∧ sameUnits s t ∧ t.pc = s.pc

/-! ### Loads, stores and the stack -/

/-- R160 to R164: LOAD, LOADH and LOADB from memory, in both address forms. Byte order and alignment are decisions D3
and D4 (log 19). -/
def Obligations.LoadsReadMemory : Prop :=
  ∀ (d : Reg) (s : State),
    (∀ k, LoadsMemory .word (eaAbs k) d s (exec (.loadAbs d k) s)) ∧
    (∀ r k, LoadsMemory .word (s.eaOff r k) d s (exec (.loadOff d r k) s)) ∧
    (∀ k, LoadsMemory .half (eaAbs k) d s (exec (.loadhAbs d k) s)) ∧
    (∀ r k, LoadsMemory .half (s.eaOff r k) d s (exec (.loadhOff d r k) s)) ∧
    (∀ k, LoadsMemory .byte (eaAbs k) d s (exec (.loadbAbs d k) s)) ∧
    (∀ r k, LoadsMemory .byte (s.eaOff r k) d s (exec (.loadbOff d r k) s))

/-- R160, R161, R165 to R167: STORE, STOREH and STOREB to memory, in both address forms. Byte order and alignment are
decisions D3 and D4 (log 19). -/
def Obligations.StoresWriteMemory : Prop :=
  ∀ (a : Reg) (s : State),
    (∀ k, StoresMemory .word (eaAbs k) (s.getReg a) s (exec (.storeAbs a k) s)) ∧
    (∀ r k, StoresMemory .word (s.eaOff r k) (s.getReg a) s (exec (.storeOff a r k) s)) ∧
    (∀ k, StoresMemory .half (eaAbs k) (s.getReg a) s (exec (.storehAbs a k) s)) ∧
    (∀ r k, StoresMemory .half (s.eaOff r k) (s.getReg a) s (exec (.storehOff a r k) s)) ∧
    (∀ k, StoresMemory .byte (eaAbs k) (s.getReg a) s (exec (.storebAbs a k) s)) ∧
    (∀ r k, StoresMemory .byte (s.eaOff r k) (s.getReg a) s (exec (.storebOff a r k) s))

/-- R11, R51, R56, R91, R160: a constant address is the sign extended constant, a register address the sum modulo 2^32,
and alignment clears the low bits that the width does not need, and no more. (Decisions D4 and D25, log 19.) -/
def Obligations.AddressesWrapAndAlign : Prop :=
  ∀ (k : Int) (r : Reg) (s : State) (a : Word),
    (fits20 k = true →
      (sext20 k).toInt = k ∧ (eaAbs k).toInt = k ∧
      ((s.eaOff r k).toNat : Int) = ((s.getReg r).toNat + k) % 2 ^ 32) ∧
    (align a .byte).toNat = a.toNat ∧ (align a .half).toNat = a.toNat / 2 * 2 ∧
    (align a .word).toNat = a.toNat / 4 * 4

/-- R54, R61, R62, R161, R210: an instruction stops only where its data access has no meaning. Without an access it
answers a next state, and so it does with one all of whose bytes are memory or that is a word access to a unit. An
access outside the units with a byte that is not memory, and one to a unit in a narrower width, stops in the fault that
says so. The faults are the model's, by decisions D21 and D23 (log 31). -/
def Obligations.OnlyMeaninglessAccessesStop : Prop :=
  ∀ (i : Instr) (s : State),
    (memoryAccess s i = none → ∃ t, exec i s = .next t) ∧
    ∀ ea w, memoryAccess s i = some (ea, w) →
      (s.memoryBacked (align ea w) w = true ∨ (w = .word ∧ (s.target (align ea w)).isUnit = true) →
        ∃ t, exec i s = .next t) ∧
      (s.memoryBacked (align ea w) w = false → (s.target (align ea w)).isUnit = false →
        exec i s = .fault (.unmappedAddress (align ea w))) ∧
      (w ≠ .word → (s.target (align ea w)).isUnit = true → exec i s = .fault (.narrowDeviceAccess (align ea w)))

/-- R162, R231, R237, R240, R242, R246, R250, R256: LOAD from the registers of the three units, in both address forms.
The width and the zeros above a narrow register are the spec's decision D23; a register with "-" in the read column
gives a free value (assumption log 10), so nothing is said of it but the frame. -/
def Obligations.LoadReadsUnitRegisters : Prop :=
  ∀ (d : Reg) (s : State),
    (∀ k, LoadsCt (eaAbs k) d s (exec (.loadAbs d k) s) ∧ LoadsPio (eaAbs k) d s (exec (.loadAbs d k) s) ∧
      LoadsDma (eaAbs k) d s (exec (.loadAbs d k) s)) ∧
    (∀ r k, LoadsCt (s.eaOff r k) d s (exec (.loadOff d r k) s) ∧ LoadsPio (s.eaOff r k) d s (exec (.loadOff d r k) s) ∧
      LoadsDma (s.eaOff r k) d s (exec (.loadOff d r k) s))

/-- R165, R231 to R236, R240 to R245, R250 to R255: STORE to the registers of the three units, in both address forms.
The formats are decision D23 (log 27).  That the acknowledgement starts the wait for the end-of-service notice only when
the status flip-flop is set is the model's reading (log 9, decision D15).  What a store does to a FRISC-PIO in its modes
rests on R243, which is general knowledge, and decision D24; that a write to CR tests no line and leaves the flip-flop
alone, and that a write to DR drives the lines in bit-setting mode and leaves them in the others, is the model's choice
(log 29).  In the corner cases of U9 only the frame is stated (log 12). -/
def Obligations.StoreWritesUnitRegisters : Prop :=
  ∀ (a : Reg) (s : State),
    (∀ k, StoresCt (eaAbs k) (s.getReg a) s (exec (.storeAbs a k) s) ∧
      StoresPio (eaAbs k) (s.getReg a) s (exec (.storeAbs a k) s) ∧
      StoresDma (eaAbs k) (s.getReg a) s (exec (.storeAbs a k) s)) ∧
    (∀ r k, StoresCt (s.eaOff r k) (s.getReg a) s (exec (.storeOff a r k) s) ∧
      StoresPio (s.eaOff r k) (s.getReg a) s (exec (.storeOff a r k) s) ∧
      StoresDma (s.eaOff r k) (s.getReg a) s (exec (.storeOff a r k) s))

/-- R168, R171: PUSH decrements R7 by 4 and stores the register at the new R7; PUSH R7 stores the decremented value.
(Decision D11 for PUSH R7, log 23.) -/
def Obligations.PushStoresBelowTheStack : Prop :=
  ∀ (a : Reg) (s : State), s.memoryBacked (align (s.getReg .r7 - 4#32) .word) .word = true →
    ∃ t, exec (.push a) s = .next t ∧ t.getReg .r7 = s.getReg .r7 - 4#32 ∧
      leValue t (align (s.getReg .r7 - 4#32) .word) 4 =
        (if a = .r7 then s.getReg .r7 - 4#32 else s.getReg a).toNat ∧
      storeFrame [.r7] (align (s.getReg .r7 - 4#32) .word) 4 s t ∧ t.pc = s.pc

/-- R169, R171: POP loads the word at R7 and then increments R7 by 4; POP R7 leaves the loaded word plus 4. (Decision
D11 for POP R7, log 23.) -/
def Obligations.PopLoadsTheTopOfTheStack : Prop :=
  ∀ (d : Reg) (s : State), s.memoryBacked (align (s.getReg .r7) .word) .word = true →
    ∃ t v, exec (.pop d) s = .next t ∧ v.toNat = leValue s (align (s.getReg .r7) .word) 4 ∧
      (d ≠ .r7 → t.getReg d = v ∧ t.getReg .r7 = s.getReg .r7 + 4#32) ∧
      (d = .r7 → t.getReg .r7 = v + 4#32) ∧
      regFrame [d, .r7] s t ∧ t.pc = s.pc

/-- R170, R171, R190 to R193: PUSH then POP of the same register, R7 among them, restores every register, and a taken
CALL, in either form, then a taken RET comes back to the instruction after the CALL with every register as it was.
That PUSH R7 and POP R7 undo each other rests on decision D11 (log 23). -/
def Obligations.StackOperationsUndoEachOther : Prop :=
  ∀ s : State, s.memoryBacked (align (s.getReg .r7 - 4#32) .word) .word = true →
    (∀ a : Reg, ∃ t u, exec (.push a) s = .next t ∧ exec (.pop a) t = .next u ∧ u.regs = s.regs ∧ u.sr = s.sr) ∧
    (∀ (cc cc' : Cond) (i : Instr) (pc : Word), s.cond cc = true → s.cond cc' = true →
      ((∃ k, i = .callAbs cc k) ∨ (∃ r, i = .callReg cc r)) →
      ∃ t u, exec i s = .next t ∧ exec (.ret cc') (t.setPc pc) = .next u ∧
        u.pc = s.pc ∧ u.regs = s.regs ∧ u.sr = s.sr)

/-! ### Control -/

/-- R181: the condition table. -/
def Obligations.ConditionTable : Prop :=
  ∀ s : State,
    (s.cond .always = true) ∧
    (s.cond .c = true ↔ s.flagC = true) ∧ (s.cond .nc = true ↔ s.flagC = false) ∧
    (s.cond .v = true ↔ s.flagV = true) ∧ (s.cond .nv = true ↔ s.flagV = false) ∧
    (s.cond .n = true ↔ s.flagN = true) ∧ (s.cond .nn = true ↔ s.flagN = false) ∧
    (s.cond .z = true ↔ s.flagZ = true) ∧ (s.cond .nz = true ↔ s.flagZ = false) ∧
    (s.cond .ule = true ↔ s.flagC = false ∨ s.flagZ = true) ∧
    (s.cond .ugt = true ↔ s.flagC = true ∧ s.flagZ = false) ∧
    (s.cond .sle = true ↔ s.flagN ≠ s.flagV ∨ s.flagZ = true) ∧
    (s.cond .sgt = true ↔ s.flagN = s.flagV ∧ s.flagZ = false) ∧
    (s.cond .slt = true ↔ s.flagN ≠ s.flagV) ∧ (s.cond .sge = true ↔ s.flagN = s.flagV)

/-- R182: a control instruction whose condition is false does nothing but let PC advance. (Decision D12, log 37.) -/
def Obligations.FalseConditionDoesNothing : Prop :=
  ∀ (cc : Cond) (k : Int) (r : Reg) (s : State), s.cond cc = false →
    exec (.jpAbs cc k) s = .next s ∧ exec (.jpReg cc r) s = .next s ∧ exec (.jr cc k) s = .next s ∧
    exec (.callAbs cc k) s = .next s ∧ exec (.callReg cc r) s = .next s ∧ exec (.ret cc) s = .next s ∧
    exec (.reti cc) s = .next s ∧ exec (.retn cc) s = .next s ∧ exec (.halt cc) s = .next s

/-- R184, R185: JP with a true condition writes PC and nothing else.  That with a false one it writes nothing is R182's
decision D12 (log 37). -/
def Obligations.JumpGoesToItsTarget : Prop :=
  ∀ (cc : Cond) (k : Int) (r : Reg) (s : State),
    exec (.jpAbs cc k) s = .next { s with pc := if s.cond cc then sext20 k else s.pc } ∧
    exec (.jpReg cc r) s = .next { s with pc := if s.cond cc then s.getReg r else s.pc }

/-- R186: a taken JR adds the signed offset to the address of the next instruction (decision D2) and does nothing
else. -/
def Obligations.RelativeJumpAddsItsOffset : Prop :=
  ∀ (cc : Cond) (k : Int) (s : State), s.cond cc = true →
    ∃ t, exec (.jr cc k) s = .next t ∧ (fits20 k = true → (t.pc.toNat : Int) = (s.pc.toNat + k) % 2 ^ 32) ∧
      t = { s with pc := t.pc }

/-- R190 to R192: a taken CALL pushes the return address and goes to its target; CALL (R7) goes to the decremented R7.
(Decisions D2 and D11, logs 20 and 23.) -/
def Obligations.TakenCallsPushTheReturnAddress : Prop :=
  ∀ (cc : Cond) (k : Int) (r : Reg) (s : State), s.cond cc = true →
    s.memoryBacked (align (s.getReg .r7 - 4#32) .word) .word = true →
    (∃ t, exec (.callAbs cc k) s = .next t ∧ t.pc = sext20 k ∧ t.getReg .r7 = s.getReg .r7 - 4#32 ∧
      leValue t (align (s.getReg .r7 - 4#32) .word) 4 = s.pc.toNat ∧
      storeFrame [.r7] (align (s.getReg .r7 - 4#32) .word) 4 s t) ∧
    (∃ t, exec (.callReg cc r) s = .next t ∧
      t.pc = (if r = .r7 then s.getReg .r7 - 4#32 else s.getReg r) ∧ t.getReg .r7 = s.getReg .r7 - 4#32 ∧
      leValue t (align (s.getReg .r7 - 4#32) .word) 4 = s.pc.toNat ∧
      storeFrame [.r7] (align (s.getReg .r7 - 4#32) .word) 4 s t)

/-- R193 to R196: a taken RET, RETI or RETN pops PC; RETI sets GIE, RETN sets IIF; the flags stay. -/
def Obligations.TakenReturnsPopPc : Prop :=
  ∀ (cc : Cond) (s : State), s.cond cc = true → s.memoryBacked (align (s.getReg .r7) .word) .word = true →
    ∃ t u w, exec (.ret cc) s = .next t ∧ exec (.reti cc) s = .next u ∧ exec (.retn cc) s = .next w ∧
      t.pc.toNat = leValue s (align (s.getReg .r7) .word) 4 ∧ t.getReg .r7 = s.getReg .r7 + 4#32 ∧
      regFrame [.r7] s t ∧
      u.pc = t.pc ∧ u.regs = t.regs ∧ u.gie = true ∧ (∀ j, j ≠ 4 → u.sr.getLsbD j = s.sr.getLsbD j) ∧
      sameControl s u ∧ sameMemory s u ∧ sameUnits s u ∧
      w.pc = t.pc ∧ w.regs = t.regs ∧ w.sr = s.sr ∧ w.iif = true ∧ w.halted = s.halted ∧ w.params = s.params ∧
      w.inputs = s.inputs ∧ sameMemory s w ∧ sameUnits s w

/-- R199: a taken HALT stops the processor and changes nothing else. (Decision D16, log 32.) -/
def Obligations.TakenHaltStops : Prop :=
  ∀ (cc : Cond) (s : State), s.cond cc = true → exec (.halt cc) s = .next { s with halted := true }

/-! ### Interrupts -/

/-- R213, R218: which interrupt is taken at a boundary. Sampling, delay and priority are decision D14 (log 25),
`IIF_BLOCKS_MASKABLE` is U8 (log 16). -/
def Obligations.AcceptanceTest : Prop :=
  ∀ (s : State) (hold : Bool),
    (s.pendingInterrupt hold = some .nonMaskable ↔ hold = false ∧ s.nmiRequest = true ∧ s.iif = true) ∧
    (s.pendingInterrupt hold = some .maskable ↔
      hold = false ∧ ¬(s.nmiRequest = true ∧ s.iif = true) ∧ s.intRequest = true ∧ s.gie = true ∧
        (s.params.iifBlocks = true → s.iif = true))

/-- R212, R235, R245, R255: the request signals are the ORs over the units of the kind. (Decision D15, log 26.) -/
def Obligations.RequestSignals : Prop :=
  ∀ s : State,
    (s.intRequest = true ↔
      (∃ u ∈ s.cts, u.status = true ∧ u.cr.getLsbD 1 = true ∧ u.cr.getLsbD 2 = false ∧
        ¬(s.params.eosBlocks = true ∧ u.waitEos = true)) ∨
      (∃ u ∈ s.pios, u.status = true ∧ u.ctl.getLsbD 2 = true ∧ u.ctl.getLsbD 3 = false ∧
        ¬(s.params.eosBlocks = true ∧ u.waitEos = true)) ∨
      (∃ u ∈ s.dmas, u.status = true ∧ u.cr.getLsbD 0 = true ∧ u.nonMaskable = false)) ∧
    (s.nmiRequest = true ↔
      (∃ u ∈ s.cts, u.status = true ∧ u.cr.getLsbD 1 = true ∧ u.cr.getLsbD 2 = true ∧
        ¬(s.params.eosBlocks = true ∧ u.waitEos = true)) ∨
      (∃ u ∈ s.pios, u.status = true ∧ u.ctl.getLsbD 2 = true ∧ u.ctl.getLsbD 3 = true ∧
        ¬(s.params.eosBlocks = true ∧ u.waitEos = true)) ∨
      (∃ u ∈ s.dmas, u.status = true ∧ u.cr.getLsbD 0 = true ∧ u.nonMaskable = true))

/-- R216: entry to the non-maskable interrupt. (Decision D13, log 24.) -/
def Obligations.NonMaskableEntry : Prop :=
  ∀ s s1 : State, s.ProcessorFree s1 → s.boundary.hold = false → s1.nmiRequest = true → s1.iif = true →
    s1.memoryBacked (align (s1.getReg .r7 - 4#32) .word) .word = true →
    ∃ t, step s = .next t ∧ t.pc = 0x0000000C#32 ∧ t.iif = false ∧ t.sr = s1.sr ∧
      t.getReg .r7 = s1.getReg .r7 - 4#32 ∧ sameRegsBut [.r7] s1 t ∧
      leValue t (align (s1.getReg .r7 - 4#32) .word) 4 = s1.pc.toNat ∧
      sameMemoryOutside (align (s1.getReg .r7 - 4#32) .word) 4 s1 t ∧ sameUnits s1 t ∧
      t.halted = s1.halted ∧ t.params = s1.params ∧ t.inputs = s1.inputs

/-- R215: entry to the maskable interrupt; the handler's address is the word at address 8. (Decision D13, log 24.) -/
def Obligations.MaskableEntry : Prop :=
  ∀ s s1 : State, s.ProcessorFree s1 → s.boundary.hold = false → ¬(s1.nmiRequest = true ∧ s1.iif = true) →
    s1.intRequest = true → s1.gie = true → (s1.params.iifBlocks = true → s1.iif = true) →
    s1.memoryBacked (align (s1.getReg .r7 - 4#32) .word) .word = true → s1.memoryBacked 8#32 .word = true →
    ∃ t, step s = .next t ∧ t.pc.toNat = leValue t 8#32 4 ∧ t.gie = false ∧
      (∀ j, j ≠ 4 → t.sr.getLsbD j = s1.sr.getLsbD j) ∧
      t.getReg .r7 = s1.getReg .r7 - 4#32 ∧ sameRegsBut [.r7] s1 t ∧
      leValue t (align (s1.getReg .r7 - 4#32) .word) 4 = s1.pc.toNat ∧
      sameMemoryOutside (align (s1.getReg .r7 - 4#32) .word) 4 s1 t ∧ sameUnits s1 t ∧ sameControl s1 t

/-- R218: with both requests acceptable the non-maskable interrupt is taken first, and the maskable one before the first
instruction of the non-maskable handler. That an empty `inputs` leaves no request pending is the model's choice (log 8),
the priority is decision D14 (log 25). -/
def Obligations.NonMaskableFirstThenMaskable : Prop :=
  ∀ s : State, s.inputs = [] → s.dmaHolds = false → s.halted = false →
    s.nmiRequest = true → s.iif = true → s.intRequest = true → s.gie = true → s.params.iifBlocks = false →
    s.memoryBacked (align (s.getReg .r7 - 4#32) .word) .word = true →
    s.memoryBacked (align (s.getReg .r7 - 8#32) .word) .word = true → s.memoryBacked 8#32 .word = true →
    ∃ t u, step s = .next t ∧ step t = .next u ∧ t.pc = 0x0000000C#32 ∧ t.iif = false ∧
      u.pc.toNat = leValue u 8#32 4 ∧ u.gie = false ∧ u.iif = false ∧
      u.getReg .r7 = s.getReg .r7 - 8#32 ∧
      leValue u (align (s.getReg .r7 - 4#32) .word) 4 = s.pc.toNat ∧
      leValue u (align (s.getReg .r7 - 8#32) .word) 4 = 12

/-- R217, R219: the return that belongs to an interrupt undoes its entry: PC, the registers, the flags and the enable
are as before it. -/
def Obligations.ReturnUndoesEntry : Prop :=
  ∀ (s t : State),
    s.memoryBacked (align (s.getReg .r7 - 4#32) .word) .word = true →
    (s.takeInterrupt .maskable = .ok t → s.gie = true →
      ∃ u, exec (.reti .always) t = .next u ∧ u.pc = s.pc ∧ u.regs = s.regs ∧ u.sr = s.sr ∧ u.iif = s.iif) ∧
    (s.takeInterrupt .nonMaskable = .ok t → s.iif = true →
      ∃ u, exec (.retn .always) t = .next u ∧ u.pc = s.pc ∧ u.regs = s.regs ∧ u.sr = s.sr ∧ u.iif = s.iif)

/-! ### The whole machine -/

/-- R22: an instruction changes no general register but those the table lists for it. -/
def Obligations.RegistersChangeOnlyAsListed : Prop :=
  ∀ (i : Instr) (s t : State) (r : Reg), exec i s = .next t → r ∉ regsWritten i → t.getReg r = s.getReg r

/-- R29: N, C, V and Z change only by the arithmetic-logic instructions and MOVE src2, SR. -/
def Obligations.FlagsChangeOnlyAsListed : Prop :=
  ∀ (i : Instr) (s t : State), exec i s = .next t → writesFlags i = false → t.flags = s.flags

/-- R34: an instruction that is no store, PUSH or CALL changes no byte of memory and no unit. -/
def Obligations.MemoryChangesOnlyByStores : Prop :=
  ∀ (i : Instr) (s t : State), exec i s = .next t → storesMemory i = false → sameMemory s t ∧ sameUnits s t

/-- R31, R216: only a taken RETN sets IIF. -/
def Obligations.OnlyRetnSetsIif : Prop :=
  ∀ s t : State, step s = .next t → s.iif = false → t.iif = true →
    ∃ cc s2, s.Executes (.retn cc) s2 ∧ s2.cond cc = true

/-- R30, R152, R194: only a taken RETI or MOVE src2, SR sets GIE. -/
def Obligations.OnlyRetiAndMoveSetGie : Prop :=
  ∀ s t : State, step s = .next t → s.gie = false → t.gie = true →
    ∃ i s2, s.Executes i s2 ∧
      ((∃ cc, i = .reti cc ∧ s2.cond cc = true) ∨ (∃ r, i = .moveToSrReg r) ∨ (∃ k, i = .moveToSrImm k))

/-- R199, R272: a halted processor stays halted, and nothing of it changes. Decision D16; that the step is then a next
state is the model's choice (logs 11 and 32). -/
def Obligations.HaltedProcessorStandsStill : Prop :=
  ∀ s t : State, s.halted = true → step s = .next t → sameProcessor s t

/-- R69, R254: while a FRISC-DMA in halting mode is busy after the boundary's events, the step leaves the processor as
it is. (Decision D24, log 13.) -/
def Obligations.HaltingDmaStopsTheProcessor : Prop :=
  ∀ s s1 t : State, s.afterBoundary = .ok s1 → s1.dmaHolds = true → step s = .next t → sameProcessor s t

/-- R32, R60: no step changes the platform: the parameters, the units' base addresses and their wiring. That the
platform stands in the state is the model's choice (logs 6 and 16). -/
def Obligations.PlatformNeverChanges : Prop :=
  ∀ s t : State, step s = .next t → samePlatform s t

/-- R50, R60, R61: every step keeps the invariant: memory in its canonical form, with bytes only at addresses the
platform backs with memory. The invariant is the model's own (log 4). -/
def Obligations.EveryStepKeepsTheInvariant : Prop :=
  ∀ s t : State, s.Inv → step s = .next t → t.Inv

/-- The state after reset has the invariant. -/
def Obligations.ResetHasTheInvariant : Prop := State.reset.Inv

/-- R40, R280: the values the spec gives for reset. They are the spec's decision D17 (log 33). -/
def Obligations.ResetState : Prop :=
  State.reset.pc = 0#32 ∧ State.reset.gie = false ∧ State.reset.sr.extractLsb' 5 3 = 0#3 ∧
  State.reset.iif = true ∧ State.reset.halted = false ∧
  (∀ u ∈ State.reset.cts, u.cr = 0#3 ∧ u.status = false ∧ u.waitEos = false) ∧
  (∀ u ∈ State.reset.pios, u.active = 0#8 ∧ u.mask = 0#8 ∧ u.ctl = 0#5 ∧ u.status = false ∧ u.waitEos = false) ∧
  (∀ u ∈ State.reset.dmas, u.cr = 0#4 ∧ u.status = false ∧ u.busy = false) ∧
  State.reset.intRequest = false ∧ State.reset.nmiRequest = false

/-! ### The units -/

/-- R234: a running FRISC-CT that starts from DC = LR counts down one per pulse, and at pulse number LR sets its status
flip-flop and starts again from LR; a stopped one holds its value. (Decision D24, log 28.) -/
def Obligations.CounterFiresOnceEveryLrPulses : Prop :=
  ∀ (s : State) (j n : Nat) (u : Ct), s.cts[j]? = some u → u.lr ≠ 0#16 → u.dc = u.lr → n ≤ u.lr.toNat →
    (u.cr.getLsbD 0 = true →
      ∃ t, s.applyEvents (List.replicate n (.ctPulse j)) = .ok t ∧
        t = { s with cts := s.cts.set j (if n = u.lr.toNat then { u with status := true }
          else { u with dc := u.lr - BitVec.ofNat 16 n }) }) ∧
    (u.cr.getLsbD 0 = false → s.applyEvents (List.replicate n (.ctPulse j)) = .ok s)

/-- R241 to R244: in bit-testing mode with some bit tested, a byte on the lines sets the status flip-flop exactly when
every (AND) or some (OR) tested bit is active, and a read of DR gives the levels of the lines.  Once the condition has
set the flip-flop, a read gives a byte that satisfies it: another byte changes nothing.  That the levels are tested when
they arrive, and that such a byte is not taken, is the model's choice (log 29). -/
def Obligations.BitTestSetsStatus : Prop :=
  ∀ (s : State) (j : Nat) (u : Pio) (b : Byte) (strobe : Bool), s.pios[j]? = some u → u.ctl.extractLsb' 0 2 = 3#2 →
    u.mask ≠ 0#8 →
    ∃ t v, s.applyEvent (.pioInput j b strobe) = .ok t ∧ t = { s with pios := s.pios.set j v } ∧
      v = { u with lines := v.lines, status := v.status } ∧
      (v.status = true ↔ u.status = true ∨ u.ConditionHolds b) ∧
      (u.ConditionHolds b ∨ ¬(u.status = true ∧ u.ConditionHolds u.lines) → v.lines = b) ∧
      (u.status = true → u.ConditionHolds u.lines → ¬u.ConditionHolds b → v = u) ∧
      (∃ x, v.read 1 = some x ∧ x.toNat = v.lines.toNat)

/-- R243, R244: while the flip-flop stands set by the condition, no events of the outside at a boundary, in any number
and order, change the unit but for its lines, and a read of DR still gives a byte that satisfies the condition (the
reading of log 29).  A datum that a FRISC-DMA moves to the port and the free state of an unconstrained port (log 12) are
no such events. -/
def Obligations.TestedByteSatisfiesTheCondition : Prop :=
  ∀ (s : State) (j : Nat) (u : Pio) (es : List Event), s.pios[j]? = some u → u.ctl.extractLsb' 0 2 = 3#2 →
    u.mask ≠ 0#8 → u.status = true → u.ConditionHolds u.lines →
    (∀ e ∈ es, (∀ k, e ≠ .dmaDatum k) ∧ ∀ k v, e ≠ .pioWild k v) →
    ∃ t v x, s.applyEvents es = .ok t ∧ t.pios[j]? = some v ∧ v = { u with lines := v.lines } ∧
      v.ConditionHolds v.lines ∧ v.read 1 = some x ∧ x.toNat = v.lines.toNat

/-- R243: what the outside does to a FRISC-PIO in each mode.  In output mode a byte taken sets the status flip-flop; in
input mode a byte goes to DR and the handshake sets the flip-flop; in bit-setting mode the outside changes nothing, the
flip-flop least of all.  A bit test with no bit tested is a corner case of U9, after which the port is unconstrained
(log 12).  That an event of another mode does nothing is the model's choice (log 29). -/
def Obligations.PortEventsFollowTheMode : Prop :=
  ∀ (s : State) (j : Nat) (u : Pio) (b : Byte) (strobe : Bool), s.pios[j]? = some u →
    (u.ctl.extractLsb' 0 2 = 0#2 →
      s.applyEvent (.pioTaken j) = .ok { s with pios := s.pios.set j { u with status := true } } ∧
      s.applyEvent (.pioInput j b strobe) = .ok s) ∧
    (u.ctl.extractLsb' 0 2 = 1#2 →
      s.applyEvent (.pioTaken j) = .ok s ∧
      s.applyEvent (.pioInput j b strobe) =
        .ok { s with pios := s.pios.set j { u with dr := b, status := u.status || strobe } }) ∧
    (u.ctl.extractLsb' 0 2 = 2#2 →
      s.applyEvent (.pioTaken j) = .ok s ∧ s.applyEvent (.pioInput j b strobe) = .ok s) ∧
    (u.ctl.extractLsb' 0 2 = 3#2 →
      s.applyEvent (.pioTaken j) = .ok s ∧
      (u.mask = 0#8 → ∃ t v, s.applyEvent (.pioInput j b strobe) = .ok t ∧
        t = { s with pios := s.pios.set j v, draws := t.draws } ∧ v.base = u.base ∧ v.wild = true))

/-- R253: one datum of a FRISC-DMA transfer between words of memory. (Decision D30, log 30.) -/
def Obligations.DmaMovesOneDatum : Prop :=
  ∀ (s : State) (j : Nat) (u : Dma), s.dmas[j]? = some u → u.busy = true →
    s.memoryBacked (align u.src .word) .word = true → s.memoryBacked (align u.dst .word) .word = true →
    ∃ t, s.applyEvent (.dmaDatum j) = .ok t ∧
      leValue t (align u.dst .word) 4 = leValue s (align u.src .word) 4 ∧
      sameMemoryOutside (align u.dst .word) 4 s t ∧ sameProcessor s t ∧ t.cts = s.cts ∧ t.pios = s.pios ∧
      t.dmas = s.dmas.set j { u with
        src := if u.cr.getLsbD 2 then u.src else u.src + 4#32
        dst := if u.cr.getLsbD 3 then u.dst else u.dst + 4#32
        cnt := u.cnt - 1#32
        busy := decide (u.cnt ≠ 1#32)
        status := u.status || decide (u.cnt = 1#32) }

/-- R253, R254: a memory to memory transfer in halting mode of `n` words between ranges that do not overlap. With no
other unit of its kind and nothing from the environment, `n` steps move all the words, leave the processor and the rest
of memory as they are, and end with the counter at 0, the unit idle and its status flip-flop set. One datum a step is
the model's choice (log 13), the datum is decision D30 (log 30). -/
def Obligations.HaltingTransferCopiesEveryWord : Prop :=
  ∀ (n : Nat) (s : State) (u : Dma), s.dmas = [u] → s.inputs = [] → u.busy = true → u.cnt.toNat = n → 0 < n →
    u.cr.getLsbD 1 = false → u.cr.getLsbD 2 = false → u.cr.getLsbD 3 = false → u.overlaps = false →
    (∀ j, j < n → s.memoryBacked (align u.src .word + BitVec.ofNat 32 (4 * j)) .word = true ∧
      s.memoryBacked (align u.dst .word + BitVec.ofNat 32 (4 * j)) .word = true) →
    ∃ t, Host.Core.run Sys2Proof.core n s = .next t ∧
      (∀ j, j < n → leValue t (align u.dst .word + BitVec.ofNat 32 (4 * j)) 4 =
        leValue s (align u.src .word + BitVec.ofNat 32 (4 * j)) 4) ∧
      sameMemoryOutside (align u.dst .word) (4 * n) s t ∧ sameProcessor s t ∧
      t.dmas = [{ u with
        src := u.src + BitVec.ofNat 32 (4 * n)
        dst := u.dst + BitVec.ofNat 32 (4 * n)
        cnt := 0#32
        busy := false
        status := true }]
end

