-- ==== Sys2Proof/Laws/State.lean ====
section
/-! SUPPORT. One lemma per field per named update of State, and what the readers of State see through each update. -/

namespace Sys2Proof.Machine

/-! ### setReg -/

@[simp] theorem State.setReg_pc (s : State) (r : Reg) (v : Word) : (s.setReg r v).pc = s.pc := rfl
@[simp] theorem State.setReg_sr (s : State) (r : Reg) (v : Word) : (s.setReg r v).sr = s.sr := rfl
@[simp] theorem State.setReg_iif (s : State) (r : Reg) (v : Word) : (s.setReg r v).iif = s.iif := rfl
@[simp] theorem State.setReg_halted (s : State) (r : Reg) (v : Word) : (s.setReg r v).halted = s.halted := rfl
@[simp] theorem State.setReg_mem (s : State) (r : Reg) (v : Word) : (s.setReg r v).mem = s.mem := rfl
@[simp] theorem State.setReg_cts (s : State) (r : Reg) (v : Word) : (s.setReg r v).cts = s.cts := rfl
@[simp] theorem State.setReg_pios (s : State) (r : Reg) (v : Word) : (s.setReg r v).pios = s.pios := rfl
@[simp] theorem State.setReg_dmas (s : State) (r : Reg) (v : Word) : (s.setReg r v).dmas = s.dmas := rfl
@[simp] theorem State.setReg_params (s : State) (r : Reg) (v : Word) : (s.setReg r v).params = s.params := rfl
@[simp] theorem State.setReg_inputs (s : State) (r : Reg) (v : Word) : (s.setReg r v).inputs = s.inputs := rfl
@[simp] theorem State.setReg_draws (s : State) (r : Reg) (v : Word) : (s.setReg r v).draws = s.draws := rfl

/-! ### setPc -/

@[simp] theorem State.setPc_regs (s : State) (v : Word) : (s.setPc v).regs = s.regs := rfl
@[simp] theorem State.setPc_sr (s : State) (v : Word) : (s.setPc v).sr = s.sr := rfl
@[simp] theorem State.setPc_iif (s : State) (v : Word) : (s.setPc v).iif = s.iif := rfl
@[simp] theorem State.setPc_halted (s : State) (v : Word) : (s.setPc v).halted = s.halted := rfl
@[simp] theorem State.setPc_mem (s : State) (v : Word) : (s.setPc v).mem = s.mem := rfl
@[simp] theorem State.setPc_cts (s : State) (v : Word) : (s.setPc v).cts = s.cts := rfl
@[simp] theorem State.setPc_pios (s : State) (v : Word) : (s.setPc v).pios = s.pios := rfl
@[simp] theorem State.setPc_dmas (s : State) (v : Word) : (s.setPc v).dmas = s.dmas := rfl
@[simp] theorem State.setPc_params (s : State) (v : Word) : (s.setPc v).params = s.params := rfl
@[simp] theorem State.setPc_inputs (s : State) (v : Word) : (s.setPc v).inputs = s.inputs := rfl
@[simp] theorem State.setPc_draws (s : State) (v : Word) : (s.setPc v).draws = s.draws := rfl

@[simp] theorem State.setPc_pc (s : State) (v : Word) : (s.setPc v).pc = v := rfl

/-! ### setFlags -/

@[simp] theorem State.setFlags_regs (s : State) (f : Flags) : (s.setFlags f).regs = s.regs := rfl
@[simp] theorem State.setFlags_pc (s : State) (f : Flags) : (s.setFlags f).pc = s.pc := rfl
@[simp] theorem State.setFlags_iif (s : State) (f : Flags) : (s.setFlags f).iif = s.iif := rfl
@[simp] theorem State.setFlags_halted (s : State) (f : Flags) : (s.setFlags f).halted = s.halted := rfl
@[simp] theorem State.setFlags_mem (s : State) (f : Flags) : (s.setFlags f).mem = s.mem := rfl
@[simp] theorem State.setFlags_cts (s : State) (f : Flags) : (s.setFlags f).cts = s.cts := rfl
@[simp] theorem State.setFlags_pios (s : State) (f : Flags) : (s.setFlags f).pios = s.pios := rfl
@[simp] theorem State.setFlags_dmas (s : State) (f : Flags) : (s.setFlags f).dmas = s.dmas := rfl
@[simp] theorem State.setFlags_params (s : State) (f : Flags) : (s.setFlags f).params = s.params := rfl
@[simp] theorem State.setFlags_inputs (s : State) (f : Flags) : (s.setFlags f).inputs = s.inputs := rfl
@[simp] theorem State.setFlags_draws (s : State) (f : Flags) : (s.setFlags f).draws = s.draws := rfl

@[simp] theorem State.setFlags_sr (s : State) (f : Flags) : (s.setFlags f).sr = srWithFlags s.sr f := rfl

/-! ### setGie -/

@[simp] theorem State.setGie_regs (s : State) (b : Bool) : (s.setGie b).regs = s.regs := rfl
@[simp] theorem State.setGie_pc (s : State) (b : Bool) : (s.setGie b).pc = s.pc := rfl
@[simp] theorem State.setGie_iif (s : State) (b : Bool) : (s.setGie b).iif = s.iif := rfl
@[simp] theorem State.setGie_halted (s : State) (b : Bool) : (s.setGie b).halted = s.halted := rfl
@[simp] theorem State.setGie_mem (s : State) (b : Bool) : (s.setGie b).mem = s.mem := rfl
@[simp] theorem State.setGie_cts (s : State) (b : Bool) : (s.setGie b).cts = s.cts := rfl
@[simp] theorem State.setGie_pios (s : State) (b : Bool) : (s.setGie b).pios = s.pios := rfl
@[simp] theorem State.setGie_dmas (s : State) (b : Bool) : (s.setGie b).dmas = s.dmas := rfl
@[simp] theorem State.setGie_params (s : State) (b : Bool) : (s.setGie b).params = s.params := rfl
@[simp] theorem State.setGie_inputs (s : State) (b : Bool) : (s.setGie b).inputs = s.inputs := rfl
@[simp] theorem State.setGie_draws (s : State) (b : Bool) : (s.setGie b).draws = s.draws := rfl

@[simp] theorem State.setGie_sr (s : State) (b : Bool) : (s.setGie b).sr = srWithGie s.sr b := rfl

/-! ### putSr -/

@[simp] theorem State.putSr_regs (s : State) (v : Word) : (s.putSr v).regs = s.regs := rfl
@[simp] theorem State.putSr_pc (s : State) (v : Word) : (s.putSr v).pc = s.pc := rfl
@[simp] theorem State.putSr_iif (s : State) (v : Word) : (s.putSr v).iif = s.iif := rfl
@[simp] theorem State.putSr_halted (s : State) (v : Word) : (s.putSr v).halted = s.halted := rfl
@[simp] theorem State.putSr_mem (s : State) (v : Word) : (s.putSr v).mem = s.mem := rfl
@[simp] theorem State.putSr_cts (s : State) (v : Word) : (s.putSr v).cts = s.cts := rfl
@[simp] theorem State.putSr_pios (s : State) (v : Word) : (s.putSr v).pios = s.pios := rfl
@[simp] theorem State.putSr_dmas (s : State) (v : Word) : (s.putSr v).dmas = s.dmas := rfl
@[simp] theorem State.putSr_params (s : State) (v : Word) : (s.putSr v).params = s.params := rfl
@[simp] theorem State.putSr_inputs (s : State) (v : Word) : (s.putSr v).inputs = s.inputs := rfl
@[simp] theorem State.putSr_draws (s : State) (v : Word) : (s.putSr v).draws = s.draws := rfl

@[simp] theorem State.putSr_sr (s : State) (v : Word) : (s.putSr v).sr = v.extractLsb' 0 8 := rfl

/-! ### putResult -/

@[simp] theorem State.putResult_pc (s : State) (d : Reg) (r : Word × Flags) : (s.putResult d r).pc = s.pc := rfl
@[simp] theorem State.putResult_iif (s : State) (d : Reg) (r : Word × Flags) : (s.putResult d r).iif = s.iif := rfl
@[simp] theorem State.putResult_halted (s : State) (d : Reg) (r : Word × Flags) : (s.putResult d r).halted = s.halted := rfl
@[simp] theorem State.putResult_mem (s : State) (d : Reg) (r : Word × Flags) : (s.putResult d r).mem = s.mem := rfl
@[simp] theorem State.putResult_cts (s : State) (d : Reg) (r : Word × Flags) : (s.putResult d r).cts = s.cts := rfl
@[simp] theorem State.putResult_pios (s : State) (d : Reg) (r : Word × Flags) : (s.putResult d r).pios = s.pios := rfl
@[simp] theorem State.putResult_dmas (s : State) (d : Reg) (r : Word × Flags) : (s.putResult d r).dmas = s.dmas := rfl
@[simp] theorem State.putResult_params (s : State) (d : Reg) (r : Word × Flags) : (s.putResult d r).params = s.params := rfl
@[simp] theorem State.putResult_inputs (s : State) (d : Reg) (r : Word × Flags) : (s.putResult d r).inputs = s.inputs := rfl
@[simp] theorem State.putResult_draws (s : State) (d : Reg) (r : Word × Flags) : (s.putResult d r).draws = s.draws := rfl

@[simp] theorem State.putResult_regs (s : State) (d : Reg) (r : Word × Flags) : (s.putResult d r).regs = s.regs.set d r.1 := rfl
@[simp] theorem State.putResult_sr (s : State) (d : Reg) (r : Word × Flags) : (s.putResult d r).sr = srWithFlags s.sr r.2 := rfl

/-! ### putShift -/

@[simp] theorem State.putShift_pc (s : State) (k : ShiftKind) (a n : Word) (d : Reg) : (s.putShift k a n d).pc = s.pc := by
  unfold State.putShift; split <;> rfl
@[simp] theorem State.putShift_iif (s : State) (k : ShiftKind) (a n : Word) (d : Reg) : (s.putShift k a n d).iif = s.iif := by
  unfold State.putShift; split <;> rfl
@[simp] theorem State.putShift_halted (s : State) (k : ShiftKind) (a n : Word) (d : Reg) : (s.putShift k a n d).halted = s.halted := by
  unfold State.putShift; split <;> rfl
@[simp] theorem State.putShift_mem (s : State) (k : ShiftKind) (a n : Word) (d : Reg) : (s.putShift k a n d).mem = s.mem := by
  unfold State.putShift; split <;> rfl
@[simp] theorem State.putShift_cts (s : State) (k : ShiftKind) (a n : Word) (d : Reg) : (s.putShift k a n d).cts = s.cts := by
  unfold State.putShift; split <;> rfl
@[simp] theorem State.putShift_pios (s : State) (k : ShiftKind) (a n : Word) (d : Reg) : (s.putShift k a n d).pios = s.pios := by
  unfold State.putShift; split <;> rfl
@[simp] theorem State.putShift_dmas (s : State) (k : ShiftKind) (a n : Word) (d : Reg) : (s.putShift k a n d).dmas = s.dmas := by
  unfold State.putShift; split <;> rfl
@[simp] theorem State.putShift_params (s : State) (k : ShiftKind) (a n : Word) (d : Reg) : (s.putShift k a n d).params = s.params := by
  unfold State.putShift; split <;> rfl
@[simp] theorem State.putShift_inputs (s : State) (k : ShiftKind) (a n : Word) (d : Reg) : (s.putShift k a n d).inputs = s.inputs := by
  unfold State.putShift; split <;> rfl

/-! ### growStack -/

@[simp] theorem State.growStack_pc (s : State) : (s.growStack).pc = s.pc := rfl
@[simp] theorem State.growStack_sr (s : State) : (s.growStack).sr = s.sr := rfl
@[simp] theorem State.growStack_iif (s : State) : (s.growStack).iif = s.iif := rfl
@[simp] theorem State.growStack_halted (s : State) : (s.growStack).halted = s.halted := rfl
@[simp] theorem State.growStack_mem (s : State) : (s.growStack).mem = s.mem := rfl
@[simp] theorem State.growStack_cts (s : State) : (s.growStack).cts = s.cts := rfl
@[simp] theorem State.growStack_pios (s : State) : (s.growStack).pios = s.pios := rfl
@[simp] theorem State.growStack_dmas (s : State) : (s.growStack).dmas = s.dmas := rfl
@[simp] theorem State.growStack_params (s : State) : (s.growStack).params = s.params := rfl
@[simp] theorem State.growStack_inputs (s : State) : (s.growStack).inputs = s.inputs := rfl
@[simp] theorem State.growStack_draws (s : State) : (s.growStack).draws = s.draws := rfl

/-! ### shrinkStack -/

@[simp] theorem State.shrinkStack_pc (s : State) : (s.shrinkStack).pc = s.pc := rfl
@[simp] theorem State.shrinkStack_sr (s : State) : (s.shrinkStack).sr = s.sr := rfl
@[simp] theorem State.shrinkStack_iif (s : State) : (s.shrinkStack).iif = s.iif := rfl
@[simp] theorem State.shrinkStack_halted (s : State) : (s.shrinkStack).halted = s.halted := rfl
@[simp] theorem State.shrinkStack_mem (s : State) : (s.shrinkStack).mem = s.mem := rfl
@[simp] theorem State.shrinkStack_cts (s : State) : (s.shrinkStack).cts = s.cts := rfl
@[simp] theorem State.shrinkStack_pios (s : State) : (s.shrinkStack).pios = s.pios := rfl
@[simp] theorem State.shrinkStack_dmas (s : State) : (s.shrinkStack).dmas = s.dmas := rfl
@[simp] theorem State.shrinkStack_params (s : State) : (s.shrinkStack).params = s.params := rfl
@[simp] theorem State.shrinkStack_inputs (s : State) : (s.shrinkStack).inputs = s.inputs := rfl
@[simp] theorem State.shrinkStack_draws (s : State) : (s.shrinkStack).draws = s.draws := rfl

/-! ### putCt -/

@[simp] theorem State.putCt_regs (s : State) (k : Nat) (r : Ct × Nat) : (s.putCt k r).regs = s.regs := rfl
@[simp] theorem State.putCt_pc (s : State) (k : Nat) (r : Ct × Nat) : (s.putCt k r).pc = s.pc := rfl
@[simp] theorem State.putCt_sr (s : State) (k : Nat) (r : Ct × Nat) : (s.putCt k r).sr = s.sr := rfl
@[simp] theorem State.putCt_iif (s : State) (k : Nat) (r : Ct × Nat) : (s.putCt k r).iif = s.iif := rfl
@[simp] theorem State.putCt_halted (s : State) (k : Nat) (r : Ct × Nat) : (s.putCt k r).halted = s.halted := rfl
@[simp] theorem State.putCt_mem (s : State) (k : Nat) (r : Ct × Nat) : (s.putCt k r).mem = s.mem := rfl
@[simp] theorem State.putCt_pios (s : State) (k : Nat) (r : Ct × Nat) : (s.putCt k r).pios = s.pios := rfl
@[simp] theorem State.putCt_dmas (s : State) (k : Nat) (r : Ct × Nat) : (s.putCt k r).dmas = s.dmas := rfl
@[simp] theorem State.putCt_params (s : State) (k : Nat) (r : Ct × Nat) : (s.putCt k r).params = s.params := rfl
@[simp] theorem State.putCt_inputs (s : State) (k : Nat) (r : Ct × Nat) : (s.putCt k r).inputs = s.inputs := rfl

/-! ### putPio -/

@[simp] theorem State.putPio_regs (s : State) (k : Nat) (r : Pio × Nat) : (s.putPio k r).regs = s.regs := rfl
@[simp] theorem State.putPio_pc (s : State) (k : Nat) (r : Pio × Nat) : (s.putPio k r).pc = s.pc := rfl
@[simp] theorem State.putPio_sr (s : State) (k : Nat) (r : Pio × Nat) : (s.putPio k r).sr = s.sr := rfl
@[simp] theorem State.putPio_iif (s : State) (k : Nat) (r : Pio × Nat) : (s.putPio k r).iif = s.iif := rfl
@[simp] theorem State.putPio_halted (s : State) (k : Nat) (r : Pio × Nat) : (s.putPio k r).halted = s.halted := rfl
@[simp] theorem State.putPio_mem (s : State) (k : Nat) (r : Pio × Nat) : (s.putPio k r).mem = s.mem := rfl
@[simp] theorem State.putPio_cts (s : State) (k : Nat) (r : Pio × Nat) : (s.putPio k r).cts = s.cts := rfl
@[simp] theorem State.putPio_dmas (s : State) (k : Nat) (r : Pio × Nat) : (s.putPio k r).dmas = s.dmas := rfl
@[simp] theorem State.putPio_params (s : State) (k : Nat) (r : Pio × Nat) : (s.putPio k r).params = s.params := rfl
@[simp] theorem State.putPio_inputs (s : State) (k : Nat) (r : Pio × Nat) : (s.putPio k r).inputs = s.inputs := rfl

/-! ### putDma -/

@[simp] theorem State.putDma_regs (s : State) (k : Nat) (r : Dma × Nat) : (s.putDma k r).regs = s.regs := rfl
@[simp] theorem State.putDma_pc (s : State) (k : Nat) (r : Dma × Nat) : (s.putDma k r).pc = s.pc := rfl
@[simp] theorem State.putDma_sr (s : State) (k : Nat) (r : Dma × Nat) : (s.putDma k r).sr = s.sr := rfl
@[simp] theorem State.putDma_iif (s : State) (k : Nat) (r : Dma × Nat) : (s.putDma k r).iif = s.iif := rfl
@[simp] theorem State.putDma_halted (s : State) (k : Nat) (r : Dma × Nat) : (s.putDma k r).halted = s.halted := rfl
@[simp] theorem State.putDma_mem (s : State) (k : Nat) (r : Dma × Nat) : (s.putDma k r).mem = s.mem := rfl
@[simp] theorem State.putDma_cts (s : State) (k : Nat) (r : Dma × Nat) : (s.putDma k r).cts = s.cts := rfl
@[simp] theorem State.putDma_pios (s : State) (k : Nat) (r : Dma × Nat) : (s.putDma k r).pios = s.pios := rfl
@[simp] theorem State.putDma_params (s : State) (k : Nat) (r : Dma × Nat) : (s.putDma k r).params = s.params := rfl
@[simp] theorem State.putDma_inputs (s : State) (k : Nat) (r : Dma × Nat) : (s.putDma k r).inputs = s.inputs := rfl

@[simp] theorem State.putCt_cts (s : State) (k : Nat) (r : Ct × Nat) : (s.putCt k r).cts = s.cts.set k r.1 := rfl
@[simp] theorem State.putPio_pios (s : State) (k : Nat) (r : Pio × Nat) : (s.putPio k r).pios = s.pios.set k r.1 := rfl
@[simp] theorem State.putDma_dmas (s : State) (k : Nat) (r : Dma × Nat) : (s.putDma k r).dmas = s.dmas.set k r.1 := rfl

/-! ### setEnable -/

@[simp] theorem State.setEnable_regs (s : State) (k : InterruptKind) (b : Bool) : (s.setEnable k b).regs = s.regs := by cases k <;> rfl
@[simp] theorem State.setEnable_pc (s : State) (k : InterruptKind) (b : Bool) : (s.setEnable k b).pc = s.pc := by cases k <;> rfl
@[simp] theorem State.setEnable_halted (s : State) (k : InterruptKind) (b : Bool) : (s.setEnable k b).halted = s.halted := by cases k <;> rfl
@[simp] theorem State.setEnable_mem (s : State) (k : InterruptKind) (b : Bool) : (s.setEnable k b).mem = s.mem := by cases k <;> rfl
@[simp] theorem State.setEnable_cts (s : State) (k : InterruptKind) (b : Bool) : (s.setEnable k b).cts = s.cts := by cases k <;> rfl
@[simp] theorem State.setEnable_pios (s : State) (k : InterruptKind) (b : Bool) : (s.setEnable k b).pios = s.pios := by cases k <;> rfl
@[simp] theorem State.setEnable_dmas (s : State) (k : InterruptKind) (b : Bool) : (s.setEnable k b).dmas = s.dmas := by cases k <;> rfl
@[simp] theorem State.setEnable_params (s : State) (k : InterruptKind) (b : Bool) : (s.setEnable k b).params = s.params := by cases k <;> rfl
@[simp] theorem State.setEnable_inputs (s : State) (k : InterruptKind) (b : Bool) : (s.setEnable k b).inputs = s.inputs := by cases k <;> rfl
@[simp] theorem State.setEnable_draws (s : State) (k : InterruptKind) (b : Bool) : (s.setEnable k b).draws = s.draws := by cases k <;> rfl

/-! ### unitValue -/

@[simp] theorem State.unitValue_regs (s : State) (r : Option Word) : ((s.unitValue r).2).regs = s.regs := by cases r <;> rfl
@[simp] theorem State.unitValue_pc (s : State) (r : Option Word) : ((s.unitValue r).2).pc = s.pc := by cases r <;> rfl
@[simp] theorem State.unitValue_sr (s : State) (r : Option Word) : ((s.unitValue r).2).sr = s.sr := by cases r <;> rfl
@[simp] theorem State.unitValue_iif (s : State) (r : Option Word) : ((s.unitValue r).2).iif = s.iif := by cases r <;> rfl
@[simp] theorem State.unitValue_halted (s : State) (r : Option Word) : ((s.unitValue r).2).halted = s.halted := by cases r <;> rfl
@[simp] theorem State.unitValue_mem (s : State) (r : Option Word) : ((s.unitValue r).2).mem = s.mem := by cases r <;> rfl
@[simp] theorem State.unitValue_cts (s : State) (r : Option Word) : ((s.unitValue r).2).cts = s.cts := by cases r <;> rfl
@[simp] theorem State.unitValue_pios (s : State) (r : Option Word) : ((s.unitValue r).2).pios = s.pios := by cases r <;> rfl
@[simp] theorem State.unitValue_dmas (s : State) (r : Option Word) : ((s.unitValue r).2).dmas = s.dmas := by cases r <;> rfl
@[simp] theorem State.unitValue_params (s : State) (r : Option Word) : ((s.unitValue r).2).params = s.params := by cases r <;> rfl
@[simp] theorem State.unitValue_inputs (s : State) (r : Option Word) : ((s.unitValue r).2).inputs = s.inputs := by cases r <;> rfl

/-! ### Readers -/

@[simp] theorem State.setReg_byteAt (s : State) (r : Reg) (v : Word) (a : Word) : (s.setReg r v).byteAt a = s.byteAt a := rfl
@[simp] theorem State.setReg_target (s : State) (r : Reg) (v : Word) (a : Word) : (s.setReg r v).target a = s.target a := rfl
@[simp] theorem State.setReg_accessFault (s : State) (r : Reg) (v : Word) (a : Word) (w : Width) :
    (s.setReg r v).accessFault a w = s.accessFault a w := rfl
@[simp] theorem State.setReg_memoryBacked (s : State) (r : Reg) (v : Word) (a : Word) (w : Width) :
    (s.setReg r v).memoryBacked a w = s.memoryBacked a w := rfl
@[simp] theorem State.setReg_flags (s : State) (r : Reg) (v : Word) : (s.setReg r v).flags = s.flags := rfl
@[simp] theorem State.setReg_cond (s : State) (r : Reg) (v : Word) (cc : Cond) : (s.setReg r v).cond cc = s.cond cc := rfl
@[simp] theorem State.setPc_byteAt (s : State) (v : Word) (a : Word) : (s.setPc v).byteAt a = s.byteAt a := rfl
@[simp] theorem State.setPc_target (s : State) (v : Word) (a : Word) : (s.setPc v).target a = s.target a := rfl
@[simp] theorem State.setPc_accessFault (s : State) (v : Word) (a : Word) (w : Width) :
    (s.setPc v).accessFault a w = s.accessFault a w := rfl
@[simp] theorem State.setPc_memoryBacked (s : State) (v : Word) (a : Word) (w : Width) :
    (s.setPc v).memoryBacked a w = s.memoryBacked a w := rfl
@[simp] theorem State.setPc_getReg (s : State) (v : Word) (q : Reg) : (s.setPc v).getReg q = s.getReg q := rfl
@[simp] theorem State.setPc_flags (s : State) (v : Word) : (s.setPc v).flags = s.flags := rfl
@[simp] theorem State.setPc_cond (s : State) (v : Word) (cc : Cond) : (s.setPc v).cond cc = s.cond cc := rfl
@[simp] theorem State.setFlags_byteAt (s : State) (f : Flags) (a : Word) : (s.setFlags f).byteAt a = s.byteAt a := rfl
@[simp] theorem State.setFlags_target (s : State) (f : Flags) (a : Word) : (s.setFlags f).target a = s.target a := rfl
@[simp] theorem State.setFlags_accessFault (s : State) (f : Flags) (a : Word) (w : Width) :
    (s.setFlags f).accessFault a w = s.accessFault a w := rfl
@[simp] theorem State.setFlags_memoryBacked (s : State) (f : Flags) (a : Word) (w : Width) :
    (s.setFlags f).memoryBacked a w = s.memoryBacked a w := rfl
@[simp] theorem State.setFlags_getReg (s : State) (f : Flags) (q : Reg) : (s.setFlags f).getReg q = s.getReg q := rfl
@[simp] theorem State.setGie_byteAt (s : State) (b : Bool) (a : Word) : (s.setGie b).byteAt a = s.byteAt a := rfl
@[simp] theorem State.setGie_target (s : State) (b : Bool) (a : Word) : (s.setGie b).target a = s.target a := rfl
@[simp] theorem State.setGie_accessFault (s : State) (b : Bool) (a : Word) (w : Width) :
    (s.setGie b).accessFault a w = s.accessFault a w := rfl
@[simp] theorem State.setGie_memoryBacked (s : State) (b : Bool) (a : Word) (w : Width) :
    (s.setGie b).memoryBacked a w = s.memoryBacked a w := rfl
@[simp] theorem State.setGie_getReg (s : State) (b : Bool) (q : Reg) : (s.setGie b).getReg q = s.getReg q := rfl
@[simp] theorem State.growStack_byteAt (s : State) (a : Word) : (s.growStack).byteAt a = s.byteAt a := rfl
@[simp] theorem State.growStack_target (s : State) (a : Word) : (s.growStack).target a = s.target a := rfl
@[simp] theorem State.growStack_accessFault (s : State) (a : Word) (w : Width) :
    (s.growStack).accessFault a w = s.accessFault a w := rfl
@[simp] theorem State.growStack_memoryBacked (s : State) (a : Word) (w : Width) :
    (s.growStack).memoryBacked a w = s.memoryBacked a w := rfl
@[simp] theorem State.growStack_flags (s : State) : (s.growStack).flags = s.flags := rfl
@[simp] theorem State.growStack_cond (s : State) (cc : Cond) : (s.growStack).cond cc = s.cond cc := rfl
@[simp] theorem State.shrinkStack_byteAt (s : State) (a : Word) : (s.shrinkStack).byteAt a = s.byteAt a := rfl
@[simp] theorem State.shrinkStack_target (s : State) (a : Word) : (s.shrinkStack).target a = s.target a := rfl
@[simp] theorem State.shrinkStack_accessFault (s : State) (a : Word) (w : Width) :
    (s.shrinkStack).accessFault a w = s.accessFault a w := rfl
@[simp] theorem State.shrinkStack_memoryBacked (s : State) (a : Word) (w : Width) :
    (s.shrinkStack).memoryBacked a w = s.memoryBacked a w := rfl
@[simp] theorem State.shrinkStack_flags (s : State) : (s.shrinkStack).flags = s.flags := rfl
@[simp] theorem State.shrinkStack_cond (s : State) (cc : Cond) : (s.shrinkStack).cond cc = s.cond cc := rfl
@[simp] theorem State.putSr_byteAt (s : State) (v : Word) (a : Word) : (s.putSr v).byteAt a = s.byteAt a := rfl
@[simp] theorem State.putSr_target (s : State) (v : Word) (a : Word) : (s.putSr v).target a = s.target a := rfl
@[simp] theorem State.putSr_accessFault (s : State) (v : Word) (a : Word) (w : Width) :
    (s.putSr v).accessFault a w = s.accessFault a w := rfl
@[simp] theorem State.putSr_memoryBacked (s : State) (v : Word) (a : Word) (w : Width) :
    (s.putSr v).memoryBacked a w = s.memoryBacked a w := rfl
@[simp] theorem State.putSr_getReg (s : State) (v : Word) (q : Reg) : (s.putSr v).getReg q = s.getReg q := rfl
@[simp] theorem State.putResult_byteAt (s : State) (d : Reg) (r : Word × Flags) (a : Word) : (s.putResult d r).byteAt a = s.byteAt a := rfl
@[simp] theorem State.putResult_target (s : State) (d : Reg) (r : Word × Flags) (a : Word) : (s.putResult d r).target a = s.target a := rfl
@[simp] theorem State.putResult_accessFault (s : State) (d : Reg) (r : Word × Flags) (a : Word) (w : Width) :
    (s.putResult d r).accessFault a w = s.accessFault a w := rfl
@[simp] theorem State.putResult_memoryBacked (s : State) (d : Reg) (r : Word × Flags) (a : Word) (w : Width) :
    (s.putResult d r).memoryBacked a w = s.memoryBacked a w := rfl

end Sys2Proof.Machine
end

