-- ==== Sys2Proof/Laws/Registers.lean ====
section
/-! SUPPORT. The general registers and the bits of SR: what reading after writing gives. -/

namespace Sys2Proof.Machine

@[simp] theorem RegFile.get_set (f : RegFile) (d r : Reg) (v : Word) :
    (f.set d v).get r = if r = d then v else f.get r := by
  cases d <;> cases r <;> rfl

theorem RegFile.ext_get {f g : RegFile} (h : ∀ r, f.get r = g.get r) : f = g := by
  cases f; cases g
  have h0 := h .r0; have h1 := h .r1; have h2 := h .r2; have h3 := h .r3
  have h4 := h .r4; have h5 := h .r5; have h6 := h .r6; have h7 := h .r7
  simp only [RegFile.get] at h0 h1 h2 h3 h4 h5 h6 h7
  subst h0 h1 h2 h3 h4 h5 h6 h7
  rfl

@[simp] theorem State.getReg_setReg (s : State) (d r : Reg) (v : Word) :
    (s.setReg d v).getReg r = if r = d then v else s.getReg r := RegFile.get_set s.regs d r v

theorem State.getReg_setReg_self (s : State) (d : Reg) (v : Word) : (s.setReg d v).getReg d = v := by simp

theorem State.getReg_setReg_ne (s : State) {d r : Reg} (v : Word) (h : r ≠ d) :
    (s.setReg d v).getReg r = s.getReg r := by simp [h]

@[simp] theorem State.getReg_putResult (s : State) (d r : Reg) (x : Word × Flags) :
    (s.putResult d x).getReg r = if r = d then x.1 else s.getReg r := RegFile.get_set s.regs d r x.1

@[simp] theorem State.getReg_growStack (s : State) (r : Reg) :
    s.growStack.getReg r = if r = .r7 then s.getReg .r7 - 4#32 else s.getReg r := RegFile.get_set s.regs .r7 r _

@[simp] theorem State.getReg_shrinkStack (s : State) (r : Reg) :
    s.shrinkStack.getReg r = if r = .r7 then s.getReg .r7 + 4#32 else s.getReg r := RegFile.get_set s.regs .r7 r _

@[simp] theorem State.getReg_setEnable (s : State) (k : InterruptKind) (b : Bool) (r : Reg) :
    (s.setEnable k b).getReg r = s.getReg r := by cases k <;> rfl

/-! ### SR -/

/-- The flags of SR with its flags written. -/
theorem srWithFlags_low (sr : BitVec 8) (f : Flags) :
    (srWithFlags sr f)[0] = f.n ∧ (srWithFlags sr f)[1] = f.c ∧ (srWithFlags sr f)[2] = f.v ∧
      (srWithFlags sr f)[3] = f.z := by
  obtain ⟨n, c, v, z⟩ := f
  cases n <;> cases c <;> cases v <;> cases z <;> simp [srWithFlags]

@[simp] theorem srWithFlags_n (sr : BitVec 8) (f : Flags) : (srWithFlags sr f)[0] = f.n := (srWithFlags_low sr f).1
@[simp] theorem srWithFlags_c (sr : BitVec 8) (f : Flags) : (srWithFlags sr f)[1] = f.c := (srWithFlags_low sr f).2.1
@[simp] theorem srWithFlags_v (sr : BitVec 8) (f : Flags) : (srWithFlags sr f)[2] = f.v := (srWithFlags_low sr f).2.2.1
@[simp] theorem srWithFlags_z (sr : BitVec 8) (f : Flags) : (srWithFlags sr f)[3] = f.z := (srWithFlags_low sr f).2.2.2

@[simp] theorem srWithFlags_upper (sr : BitVec 8) (f : Flags) :
    (srWithFlags sr f).extractLsb' 4 4 = sr.extractLsb' 4 4 := by
  obtain ⟨n, c, v, z⟩ := f
  ext i hi
  have : i = 0 ∨ i = 1 ∨ i = 2 ∨ i = 3 := by omega
  rcases this with rfl | rfl | rfl | rfl <;> cases n <;> cases c <;> cases v <;> cases z <;> simp [srWithFlags]

@[simp] theorem srWithGie_gie (sr : BitVec 8) (b : Bool) : (srWithGie sr b)[4] = b := by
  cases b <;> simp [srWithGie]

/-- Writing GIE leaves every other bit of SR. -/
theorem srWithGie_other (sr : BitVec 8) (b : Bool) (j : Nat) (h : j ≠ 4) :
    (srWithGie sr b).getLsbD j = sr.getLsbD j := by
  rcases Nat.lt_or_ge j 8 with h8 | h8
  · have : j = 0 ∨ j = 1 ∨ j = 2 ∨ j = 3 ∨ j = 5 ∨ j = 6 ∨ j = 7 := by omega
    rcases this with rfl | rfl | rfl | rfl | rfl | rfl | rfl <;> cases b <;> simp [srWithGie]
  · rw [BitVec.getLsbD_of_ge _ _ h8, BitVec.getLsbD_of_ge _ _ h8]

@[simp] theorem State.setFlags_flags (s : State) (f : Flags) : (s.setFlags f).flags = f := by
  simp [State.flags, State.flagN, State.flagC, State.flagV, State.flagZ]

@[simp] theorem State.putResult_flags (s : State) (d : Reg) (x : Word × Flags) : (s.putResult d x).flags = x.2 :=
  State.setFlags_flags (s.setReg d x.1) x.2

@[simp] theorem State.setGie_gie (s : State) (b : Bool) : (s.setGie b).gie = b := by simp [State.gie]

@[simp] theorem State.setGie_flags (s : State) (b : Bool) : (s.setGie b).flags = s.flags := by
  simp only [State.flags, State.flagN, State.flagC, State.flagV, State.flagZ, State.setGie_sr]
  rw [srWithGie_other _ _ 0 (by decide), srWithGie_other _ _ 1 (by decide), srWithGie_other _ _ 2 (by decide),
    srWithGie_other _ _ 3 (by decide)]

@[simp] theorem State.setEnable_flags (s : State) (k : InterruptKind) (b : Bool) :
    (s.setEnable k b).flags = s.flags := by
  cases k
  · exact State.setGie_flags s b
  · rfl

@[simp] theorem State.setGie_setGie_true_of_gie (sr : BitVec 8) (h : sr.getLsbD 4 = true) :
    srWithGie (srWithGie sr false) true = sr := by
  apply BitVec.eq_of_getLsbD_eq
  intro j hj
  by_cases h4 : j = 4
  · subst h4; rw [h]; simp
  · rw [srWithGie_other _ _ _ h4, srWithGie_other _ _ _ h4]

/-- Everything `putShift` can do: the closed-form result into `dest`; V cleared; C the exit bit for a count of at
least 1. -/
theorem State.putShift_spec (s : State) (k : ShiftKind) (a n : Word) (d : Reg) :
    (∀ r, (s.putShift k a n d).getReg r = if r = d then shiftValue k a n.toNat else s.getReg r) ∧
    (∃ cc, (s.putShift k a n d).flags = logicFlags cc (shiftValue k a n.toNat) ∧
      (n ≠ 0#32 → cc = shiftExit k a n.toNat)) ∧
    (s.putShift k a n d).sr.extractLsb' 4 4 = s.sr.extractLsb' 4 4 := by
  unfold State.putShift
  by_cases h : n = 0#32
  · simp only [h, if_true]
    refine ⟨fun r => ?_, ⟨_, State.putResult_flags _ _ _, fun hn => absurd rfl hn⟩, ?_⟩
    · rw [State.getReg_putResult]; rfl
    · simp
  · simp only [h, if_false]
    refine ⟨fun r => ?_, ⟨_, State.putResult_flags _ _ _, fun _ => rfl⟩, ?_⟩
    · rw [State.getReg_putResult]
    · simp

end Sys2Proof.Machine
end

