-- ==== Sys2Proof/Laws/Memory.lean ====
section
/-! SUPPORT. The memory list: a read after a write, the canonical form kept, and the bytes of a wide access. -/

namespace Sys2Proof.Machine

/-- A read after a write: the written byte at the written address, the old one elsewhere. -/
@[simp] theorem Memory.lookup_write (m : Memory) (a : Nat) (b : Byte) (x : Nat) :
    Memory.lookup (Memory.write m a b) x = if x = a then some b else Memory.lookup m x := by
  induction m with
  | nil => simp only [Memory.write, Memory.lookup]; grind
  | cons c rest ih =>
    obtain ⟨k, y⟩ := c
    simp only [Memory.write]
    split
    · simp only [Memory.lookup]; grind
    · split <;> simp only [Memory.lookup] <;> grind

theorem Memory.risingFrom_mono {m : Memory} {i j : Nat} (h : i ≤ j) (hm : Memory.risingFrom j m = true) :
    Memory.risingFrom i m = true := by
  cases m with
  | nil => rfl
  | cons c rest =>
    obtain ⟨k, y⟩ := c
    simp only [Memory.risingFrom, Bool.and_eq_true, decide_eq_true_eq] at hm ⊢
    exact ⟨by omega, hm.2⟩

theorem Memory.risingFrom_write {m : Memory} {low a : Nat} (b : Byte) (hm : Memory.risingFrom low m = true)
    (ha : low ≤ a) : Memory.risingFrom low (Memory.write m a b) = true := by
  induction m generalizing low with
  | nil => simp [Memory.write, Memory.risingFrom, ha]
  | cons c rest ih =>
    obtain ⟨k, y⟩ := c
    simp only [Memory.risingFrom, Bool.and_eq_true, decide_eq_true_eq] at hm
    simp only [Memory.write]
    split
    · simp only [Memory.risingFrom, Bool.and_eq_true, decide_eq_true_eq]
      exact ⟨ha, by omega, hm.2⟩
    · split
      · rename_i h2
        subst h2
        simp only [Memory.risingFrom, Bool.and_eq_true, decide_eq_true_eq]
        exact ⟨ha, hm.2⟩
      · simp only [Memory.risingFrom, Bool.and_eq_true, decide_eq_true_eq]
        exact ⟨hm.1, ih hm.2 (by omega)⟩

/-- The cells after a write: the new one, and old ones. -/
theorem Memory.mem_write {m : Memory} {a : Nat} {b : Byte} {c : Host.Cell} (h : c ∈ Memory.write m a b) :
    c = (a, b) ∨ c ∈ m := by
  induction m with
  | nil => exact .inl (by simpa [Memory.write] using h)
  | cons d rest ih =>
    obtain ⟨k, y⟩ := d
    simp only [Memory.write] at h
    split at h
    · rcases List.mem_cons.mp h with h | h
      · exact .inl h
      · exact .inr h
    · split at h
      · rcases List.mem_cons.mp h with h | h
        · exact .inl h
        · exact .inr (List.mem_cons_of_mem _ h)
      · rcases List.mem_cons.mp h with h | h
        · exact .inr (h ▸ List.mem_cons_self)
        · exact (ih h).imp_right (List.mem_cons_of_mem _)

/-- Every write below 2^32 keeps the canonical form. -/
theorem Memory.wf_write {m : Memory} (hm : Memory.wf m = true) (a : Word) (b : Byte) :
    Memory.wf (Memory.write m a.toNat b) = true := by
  simp only [Memory.wf, Bool.and_eq_true, List.all_eq_true, decide_eq_true_eq] at hm ⊢
  refine ⟨Memory.risingFrom_write b hm.1 (Nat.zero_le _), fun c hc => ?_⟩
  rcases Memory.mem_write hc with rfl | h
  · exact a.isLt
  · exact hm.2 c h

/-- Every store keeps the canonical form. -/
theorem Memory.wf_storeBytes {m : Memory} (hm : Memory.wf m = true) (a v : Word) (w : Width) :
    Memory.wf (storeBytes m a v w) = true := by
  cases w
  · exact wf_write hm _ _
  · exact wf_write (wf_write hm _ _) _ _
  · exact wf_write (wf_write (wf_write (wf_write hm _ _) _ _) _ _) _ _

/-- The cells after a store: old ones, and ones at the addresses stored to. -/
theorem Memory.mem_storeBytes {m : Memory} {a v : Word} {w : Width} {c : Host.Cell} (h : c ∈ storeBytes m a v w) :
    c ∈ m ∨ ∃ j, j < w.bytes ∧ c.1 = (a + BitVec.ofNat 32 j).toNat := by
  cases w
  · rcases mem_write h with rfl | h
    · exact .inr ⟨0, by decide, by simp⟩
    · exact .inl h
  · rcases mem_write h with rfl | h
    · exact .inr ⟨1, by decide, rfl⟩
    · rcases mem_write h with rfl | h
      · exact .inr ⟨0, by decide, by simp⟩
      · exact .inl h
  · rcases mem_write h with rfl | h
    · exact .inr ⟨3, by decide, rfl⟩
    · rcases mem_write h with rfl | h
      · exact .inr ⟨2, by decide, rfl⟩
      · rcases mem_write h with rfl | h
        · exact .inr ⟨1, by decide, rfl⟩
        · rcases mem_write h with rfl | h
          · exact .inr ⟨0, by decide, by simp⟩
          · exact .inl h

/-! ### Bytes and wide accesses -/

theorem State.byteAt_of_mem_eq {s t : State} (h : t.mem = s.mem) (a : Word) : t.byteAt a = s.byteAt a := by
  simp only [State.byteAt, h]

/-- A byte outside a store reads as before. -/
theorem State.byteAt_store_outside (s : State) (a v b : Word) (w : Width)
    (h : ∀ j, j < w.bytes → b ≠ a + BitVec.ofNat 32 j) :
    ({ s with mem := storeBytes s.mem a v w } : State).byteAt b = s.byteAt b := by
  have ne : ∀ j, j < w.bytes → b.toNat ≠ (a + BitVec.ofNat 32 j).toNat := fun j hj e => h j hj (BitVec.eq_of_toNat_eq e)
  cases w
  · have h0 := ne 0 (by decide)
    rw [BitVec.add_zero] at h0
    simp only [State.byteAt, storeBytes, Memory.lookup_write, if_neg h0]
  · have h0 := ne 0 (by decide); have h1 := ne 1 (by decide)
    rw [BitVec.add_zero] at h0
    simp only [State.byteAt, storeBytes, Memory.lookup_write, if_neg h0, if_neg h1]
  · have h0 := ne 0 (by decide); have h1 := ne 1 (by decide); have h2 := ne 2 (by decide); have h3 := ne 3 (by decide)
    rw [BitVec.add_zero] at h0
    simp only [State.byteAt, storeBytes, Memory.lookup_write, if_neg h0, if_neg h1, if_neg h2, if_neg h3]

/-- The stored bytes, little-endian. -/
theorem State.byteAt_store_inside (s : State) (a v : Word) (w : Width) (j : Nat) (hj : j < w.bytes) :
    ({ s with mem := storeBytes s.mem a v w } : State).byteAt (a + BitVec.ofNat 32 j) = v.extractLsb' (8 * j) 8 := by
  cases w
  · have : j = 0 := by simp only [Width.bytes] at hj; omega
    subst this
    simp [State.byteAt, storeBytes]
  · have : j = 0 ∨ j = 1 := by simp only [Width.bytes] at hj; omega
    rcases this with rfl | rfl
    · have h : a.toNat ≠ (a + 1#32).toNat := by bv_omega
      simp only [State.byteAt, storeBytes, Memory.lookup_write, BitVec.add_zero, if_neg h]
      simp
    · simp [State.byteAt, storeBytes]
  · have : j = 0 ∨ j = 1 ∨ j = 2 ∨ j = 3 := by simp only [Width.bytes] at hj; omega
    rcases this with rfl | rfl | rfl | rfl
    · have h1 : a.toNat ≠ (a + 1#32).toNat := by bv_omega
      have h2 : a.toNat ≠ (a + 2#32).toNat := by bv_omega
      have h3 : a.toNat ≠ (a + 3#32).toNat := by bv_omega
      simp only [State.byteAt, storeBytes, Memory.lookup_write, BitVec.add_zero, if_neg h1,
        if_neg h2, if_neg h3]
      simp
    · have h2 : (a + 1#32).toNat ≠ (a + 2#32).toNat := by bv_omega
      have h3 : (a + 1#32).toNat ≠ (a + 3#32).toNat := by bv_omega
      simp only [State.byteAt, storeBytes, Memory.lookup_write, if_neg h2, if_neg h3]
      simp
    · have h3 : (a + 2#32).toNat ≠ (a + 3#32).toNat := by bv_omega
      simp only [State.byteAt, storeBytes, Memory.lookup_write, if_neg h3]
      simp
    · simp [State.byteAt, storeBytes]

/-- A load gives the little-endian value of its bytes. -/
theorem State.loadBytes_toNat (s : State) (a : Word) (w : Width) : (s.loadBytes a w).toNat = leValue s a w.bytes := by
  have b0 := (s.byteAt a).isLt; have b1 := (s.byteAt (a + 1#32)).isLt
  have b2 := (s.byteAt (a + 2#32)).isLt; have b3 := (s.byteAt (a + 3#32)).isLt
  cases w
  · simp [State.loadBytes, leValue, Width.bytes]; omega
  · simp [State.loadBytes, leValue, Width.bytes]; omega
  · simp [State.loadBytes, leValue, Width.bytes]; omega

theorem leValue_congr {s t : State} (a : Word) (n : Nat)
    (h : ∀ j, j < n → t.byteAt (a + BitVec.ofNat 32 j) = s.byteAt (a + BitVec.ofNat 32 j)) :
    leValue t a n = leValue s a n := by
  induction n with
  | zero => rfl
  | succ n ih =>
    simp only [leValue]
    rw [ih (fun j hj => h j (by omega)), h n (by omega)]

theorem State.loadBytes_congr {s t : State} (a : Word) (w : Width)
    (h : ∀ j, j < w.bytes → t.byteAt (a + BitVec.ofNat 32 j) = s.byteAt (a + BitVec.ofNat 32 j)) :
    t.loadBytes a w = s.loadBytes a w := by
  apply BitVec.eq_of_toNat_eq
  rw [State.loadBytes_toNat, State.loadBytes_toNat, leValue_congr a w.bytes h]

/-- A word loaded from where it was stored is the word. -/
theorem State.loadBytes_store (s : State) (a v : Word) :
    ({ s with mem := storeBytes s.mem a v .word } : State).loadBytes a .word = v := by
  apply BitVec.eq_of_toNat_eq
  rw [State.loadBytes_toNat]
  have h := State.byteAt_store_inside s a v .word
  simp only [Width.bytes, leValue, h 0 (by decide), h 1 (by decide), h 2 (by decide), h 3 (by decide)]
  simp only [BitVec.extractLsb'_toNat, Nat.shiftRight_eq_div_pow]
  have := v.isLt
  omega

/-! ### Alignment -/

/-- `align` clears the low bits: it subtracts the remainder by the width. -/
theorem align_toNat (a : Word) (w : Width) : (align a w).toNat = a.toNat - a.toNat % w.bytes := by
  have := a.isLt
  cases w
  · simp [align, Width.bytes, Nat.mod_one]
  · simp only [align, Width.bytes, BitVec.toNat_shiftLeft, BitVec.toNat_ushiftRight, Nat.shiftLeft_eq,
      Nat.shiftRight_eq_div_pow]
    omega
  · simp only [align, wordAlign, Width.bytes, BitVec.toNat_shiftLeft, BitVec.toNat_ushiftRight, Nat.shiftLeft_eq,
      Nat.shiftRight_eq_div_pow]
    omega

theorem align_align (a : Word) (w : Width) : align (align a w) w = align a w := by
  apply BitVec.eq_of_toNat_eq
  rw [align_toNat, align_toNat]
  cases w <;> simp only [Width.bytes] <;> omega

end Sys2Proof.Machine
end

