-- ==== Sys2Proof/Laws/Access.lean ====
section
/-! SUPPORT. The address map and the two access operations: which unit an address names, that no operation moves a
unit, and everything `memRead` and `memWrite` can do. -/

namespace Sys2Proof.Machine

/-! ### Finding a unit -/

/-- A unit that is found stands at its place in the list, and its window holds the address. -/
theorem findUnit_some {α : Type} {base : α → Word} {size : Nat} {a : Word} {k0 k : Nat} {l : List α} {u : α}
    (h : findUnit base size a k0 l = some (k, u)) : k0 ≤ k ∧ l[k - k0]? = some u ∧ (a - base u).toNat < size := by
  induction l generalizing k0 with
  | nil => simp [findUnit] at h
  | cons x rest ih =>
    simp only [findUnit] at h
    split at h
    · simp only [Option.some.injEq, Prod.mk.injEq] at h
      obtain ⟨rfl, rfl⟩ := h
      simp_all
    · obtain ⟨h1, h2, h3⟩ := ih h
      refine ⟨by omega, ?_, h3⟩
      have : k - k0 = (k - (k0 + 1)) + 1 := by omega
      rw [this]; simpa using h2

/-- Which place is found depends on the base addresses alone. -/
theorem findUnit_place_congr {α : Type} {base : α → Word} {size : Nat} {a : Word} {l l' : List α}
    (h : l'.map base = l.map base) (k0 : Nat) :
    (findUnit base size a k0 l').map Prod.fst = (findUnit base size a k0 l).map Prod.fst := by
  induction l generalizing l' k0 with
  | nil => cases l' with
    | nil => rfl
    | cons x r => simp at h
  | cons x rest ih => cases l' with
    | nil => simp at h
    | cons y r =>
      simp only [List.map_cons, List.cons.injEq] at h
      simp only [findUnit, h.1]
      split
      · rfl
      · exact ih h.2 (k0 + 1)

theorem findUnit_none_congr {α : Type} {base : α → Word} {size : Nat} {a : Word} {l l' : List α}
    (h : l'.map base = l.map base) (k0 : Nat) :
    findUnit base size a k0 l' = none ↔ findUnit base size a k0 l = none := by
  have := findUnit_place_congr (size := size) (a := a) h k0
  constructor <;> intro hn <;> simpa [hn] using this

/-- Replacing a unit by one at the same base leaves the list of bases. -/
theorem map_set_same {α β : Type} (f : α → β) (l : List α) (k : Nat) (u v : α) (hk : l[k]? = some u) (hb : f v = f u) :
    (l.set k v).map f = l.map f := by
  induction l generalizing k with
  | nil => rfl
  | cons x rest ih =>
    cases k with
    | zero => simp only [List.getElem?_cons_zero, Option.some.injEq] at hk; subst hk; simp [hb]
    | succ k => simp only [List.getElem?_cons_succ] at hk; simp [ih k hk]

theorem State.target_ct {s : State} {a : Word} {k : Nat} {u : Ct} (h : s.target a = .ct k u) : s.cts[k]? = some u := by
  unfold State.target at h
  split at h
  · rename_i h1; cases h; simpa using (findUnit_some h1).2.1
  · split at h
    · cases h
    · split at h
      · cases h
      · split at h <;> cases h

theorem State.target_pio {s : State} {a : Word} {k : Nat} {u : Pio} (h : s.target a = .pio k u) :
    s.pios[k]? = some u := by
  unfold State.target at h
  split at h
  · cases h
  · split at h
    · rename_i h1; cases h; simpa using (findUnit_some h1).2.1
    · split at h
      · cases h
      · split at h <;> cases h

theorem State.target_dma {s : State} {a : Word} {k : Nat} {u : Dma} (h : s.target a = .dma k u) :
    s.dmas[k]? = some u := by
  unfold State.target at h
  split at h
  · cases h
  · split at h
    · cases h
    · split at h
      · rename_i h1; cases h; simpa using (findUnit_some h1).2.1
      · split at h <;> cases h

/-- Whether an address is memory depends on the platform alone. -/
theorem State.target_isMemory_congr {s t : State} (h : samePlatform s t) (a : Word) :
    (t.target a).isMemory = (s.target a).isMemory := by
  obtain ⟨hp, hc, hi, hd, -⟩ := h
  have e1 := findUnit_none_congr (size := 16) (a := a) hc 0
  have e2 := findUnit_none_congr (size := 16) (a := a) hi 0
  have e3 := findUnit_none_congr (size := 24) (a := a) hd 0
  unfold State.target
  rw [hp]
  cases h1 : findUnit Ct.base 16 a 0 s.cts with
  | some x =>
    cases h1' : findUnit Ct.base 16 a 0 t.cts with
    | some y => rfl
    | none => rw [e1.mp h1'] at h1; cases h1
  | none =>
    rw [e1.mpr h1]
    cases h2 : findUnit Pio.base 16 a 0 s.pios with
    | some x =>
      cases h2' : findUnit Pio.base 16 a 0 t.pios with
      | some y => rfl
      | none => rw [e2.mp h2'] at h2; cases h2
    | none =>
      rw [e2.mpr h2]
      cases h3 : findUnit Dma.base 24 a 0 s.dmas with
      | some x =>
        cases h3' : findUnit Dma.base 24 a 0 t.dmas with
        | some y => rfl
        | none => rw [e3.mp h3'] at h3; cases h3
      | none => rw [e3.mpr h3]

theorem State.memoryBacked_congr {s t : State} (h : samePlatform s t) (a : Word) (w : Width) :
    t.memoryBacked a w = s.memoryBacked a w := by
  simp only [State.memoryBacked, State.target_isMemory_congr h]

theorem samePlatform.refl (s : State) : samePlatform s s := ⟨rfl, rfl, rfl, rfl, rfl⟩

theorem samePlatform.trans {s t u : State} (h : samePlatform s t) (k : samePlatform t u) : samePlatform s u :=
  ⟨k.1.trans h.1, k.2.1.trans h.2.1, k.2.2.1.trans h.2.2.1, k.2.2.2.1.trans h.2.2.2.1, k.2.2.2.2.trans h.2.2.2.2⟩

/-- States with the same units and parameters are on the same platform. -/
theorem samePlatform.of_eq {s t : State} (hp : t.params = s.params) (hc : t.cts = s.cts) (hi : t.pios = s.pios)
    (hd : t.dmas = s.dmas) : samePlatform s t := ⟨hp, by rw [hc], by rw [hi], by rw [hd], by rw [hd]⟩

/-! ### A unit never moves and is never rewired -/

@[simp] theorem Ct.unspecified_base (u : Ct) (n : Nat) : (u.unspecified n).base = u.base := rfl
@[simp] theorem Pio.unspecified_base (u : Pio) (n : Nat) : (u.unspecified n).base = u.base := rfl
@[simp] theorem Dma.unspecified_base (u : Dma) (n : Nat) : (u.unspecified n).base = u.base := rfl
@[simp] theorem Dma.unspecified_nonMaskable (u : Dma) (n : Nat) : (u.unspecified n).nonMaskable = u.nonMaskable := rfl

@[simp] theorem Ct.write_base (u : Ct) (n j : Nat) (w : Word) : (u.write n j w).1.base = u.base := by
  unfold Ct.write; split <;> (try split) <;> rfl

@[simp] theorem Ct.pulse_base (u : Ct) (n : Nat) : (u.pulse n).1.base = u.base := by
  unfold Ct.pulse; repeat' split
  all_goals rfl

@[simp] theorem Pio.write_base (u : Pio) (n j : Nat) (w : Word) : (u.write n j w).1.base = u.base := by
  unfold Pio.write; split <;> (try split) <;> rfl

@[simp] theorem Pio.taken_base (u : Pio) : u.taken.base = u.base := by unfold Pio.taken; split <;> rfl

@[simp] theorem Pio.input_base (u : Pio) (n : Nat) (b : Byte) (st : Bool) : (u.input n b st).1.base = u.base := by
  unfold Pio.input; split <;> (try split) <;> (try split) <;> rfl

@[simp] theorem Dma.write_base (u : Dma) (n j : Nat) (w : Word) : (u.write n j w).1.base = u.base := by
  unfold Dma.write; repeat' split
  all_goals rfl

@[simp] theorem Dma.write_nonMaskable (u : Dma) (n j : Nat) (w : Word) :
    (u.write n j w).1.nonMaskable = u.nonMaskable := by
  unfold Dma.write; repeat' split
  all_goals rfl

@[simp] theorem Dma.advance_base (u : Dma) : u.advance.base = u.base := rfl
@[simp] theorem Dma.advance_nonMaskable (u : Dma) : u.advance.nonMaskable = u.nonMaskable := rfl

theorem State.putCt_platform {s : State} {k : Nat} {u : Ct} (hk : s.cts[k]? = some u) (r : Ct × Nat)
    (hb : r.1.base = u.base) : samePlatform s (s.putCt k r) :=
  ⟨rfl, map_set_same Ct.base s.cts k u r.1 hk hb, rfl, rfl, rfl⟩

theorem State.putPio_platform {s : State} {k : Nat} {u : Pio} (hk : s.pios[k]? = some u) (r : Pio × Nat)
    (hb : r.1.base = u.base) : samePlatform s (s.putPio k r) :=
  ⟨rfl, rfl, map_set_same Pio.base s.pios k u r.1 hk hb, rfl, rfl⟩

theorem State.putDma_platform {s : State} {k : Nat} {u : Dma} (hk : s.dmas[k]? = some u) (r : Dma × Nat)
    (hb : r.1.base = u.base) (hn : r.1.nonMaskable = u.nonMaskable) : samePlatform s (s.putDma k r) :=
  ⟨rfl, rfl, rfl, map_set_same Dma.base s.dmas k u r.1 hk hb, map_set_same Dma.nonMaskable s.dmas k u r.1 hk hn⟩

/-! ### The access operations -/

theorem State.memoryBacked_byte {s : State} {a : Word} {w : Width} (h : s.memoryBacked a w = true) {j : Nat}
    (hj : j < w.bytes) : (s.target (a + BitVec.ofNat 32 j)).isMemory = true := by
  simp only [State.memoryBacked, List.all_eq_true, List.mem_range] at h
  exact h j hj

theorem State.target_of_memoryBacked {s : State} {a : Word} {w : Width} (h : s.memoryBacked a w = true) :
    s.target a = .memory := by
  have h0 := State.memoryBacked_byte h (j := 0) (by cases w <;> decide)
  rw [BitVec.add_zero] at h0
  cases ht : s.target a <;> rw [ht] at h0 <;> first | rfl | cases h0

theorem State.accessFault_of_memoryBacked {s : State} {a : Word} {w : Width}
    (h : s.memoryBacked (align a w) w = true) : s.accessFault a w = none := by
  simp [State.accessFault, State.target_of_memoryBacked h, h]

/-- A read of memory gives the value of the bytes and changes nothing. -/
theorem State.memRead_memory {s : State} {a : Word} {w : Width} (h : s.memoryBacked (align a w) w = true) :
    s.memRead a w = .ok (s.loadBytes (align a w) w, s) := by
  simp [State.memRead, State.accessFault_of_memoryBacked h, State.target_of_memoryBacked h]

/-- A write to memory stores the bytes and changes nothing else. -/
theorem State.memWrite_memory {s : State} {a v : Word} {w : Width} (h : s.memoryBacked (align a w) w = true) :
    s.memWrite a w v = .ok { s with mem := storeBytes s.mem (align a w) v w } := by
  simp [State.memWrite, State.accessFault_of_memoryBacked h, State.target_of_memoryBacked h]

/-- Everything a read can do to the state: draw free values. -/
theorem State.memRead_state {s t : State} {a v : Word} {w : Width} (h : s.memRead a w = .ok (v, t)) :
    ∃ n, t = { s with draws := n } := by
  have key : ∀ r : Option Word, ∃ n, (s.unitValue r).2 = { s with draws := n } := by
    intro r; cases r
    · exact ⟨s.draws + 1, rfl⟩
    · exact ⟨s.draws, rfl⟩
  unfold State.memRead at h
  split at h
  · cases h
  · split at h
    · simp only [Except.ok.injEq, Prod.ext_iff] at h; exact h.2 ▸ key _
    · simp only [Except.ok.injEq, Prod.ext_iff] at h; exact h.2 ▸ key _
    · simp only [Except.ok.injEq, Prod.ext_iff] at h; exact h.2 ▸ key _
    · simp only [Except.ok.injEq, Prod.ext_iff] at h; exact h.2 ▸ ⟨s.draws, rfl⟩
    · simp only [Except.ok.injEq, Prod.ext_iff] at h; exact h.2 ▸ ⟨s.draws, rfl⟩

/-- Everything a write can do: bytes of memory, or one register write of one unit. -/
theorem State.memWrite_cases {s t : State} {a v : Word} {w : Width} (h : s.memWrite a w v = .ok t) :
    (s.memoryBacked (align a w) w = true ∧ t = { s with mem := storeBytes s.mem (align a w) v w }) ∨
    (∃ k u, s.target (align a w) = .ct k u ∧ w = .word ∧
      t = s.putCt k (u.write s.draws (registerIndex u.base (align a w)) v)) ∨
    (∃ k u, s.target (align a w) = .pio k u ∧ w = .word ∧
      t = s.putPio k (u.write s.draws (registerIndex u.base (align a w)) v)) ∨
    (∃ k u, s.target (align a w) = .dma k u ∧ w = .word ∧
      t = s.putDma k (u.write s.draws (registerIndex u.base (align a w)) v)) := by
  unfold State.memWrite State.accessFault at h
  cases ht : s.target (align a w) <;> simp only [ht] at h
  · rename_i k u
    by_cases hw : w = .word <;> simp only [hw, if_true, if_false] at h
    · exact .inr (.inl ⟨k, u, rfl, hw, by cases h; rw [hw]⟩)
    · cases h
  · rename_i k u
    by_cases hw : w = .word <;> simp only [hw, if_true, if_false] at h
    · exact .inr (.inr (.inl ⟨k, u, rfl, hw, by cases h; rw [hw]⟩))
    · cases h
  · rename_i k u
    by_cases hw : w = .word <;> simp only [hw, if_true, if_false] at h
    · exact .inr (.inr (.inr ⟨k, u, rfl, hw, by cases h; rw [hw]⟩))
    · cases h
  · by_cases hb : s.memoryBacked (align a w) w = true
    · simp only [hb, if_true] at h
      exact .inl ⟨hb, by cases h; rfl⟩
    · simp only [hb] at h; cases h
  · cases h

/-- What no write touches. -/
theorem State.memWrite_frame {s t : State} {a v : Word} {w : Width} (h : s.memWrite a w v = .ok t) :
    t.regs = s.regs ∧ t.pc = s.pc ∧ t.sr = s.sr ∧ t.iif = s.iif ∧ t.halted = s.halted ∧ t.inputs = s.inputs ∧
      samePlatform s t := by
  rcases State.memWrite_cases h with ⟨-, rfl⟩ | ⟨k, u, hu, -, rfl⟩ | ⟨k, u, hu, -, rfl⟩ | ⟨k, u, hu, -, rfl⟩
  · exact ⟨rfl, rfl, rfl, rfl, rfl, rfl, .refl s⟩
  · exact ⟨rfl, rfl, rfl, rfl, rfl, rfl, State.putCt_platform (State.target_ct hu) _ (Ct.write_base ..)⟩
  · exact ⟨rfl, rfl, rfl, rfl, rfl, rfl, State.putPio_platform (State.target_pio hu) _ (Pio.write_base ..)⟩
  · exact ⟨rfl, rfl, rfl, rfl, rfl, rfl,
      State.putDma_platform (State.target_dma hu) _ (Dma.write_base ..) (Dma.write_nonMaskable ..)⟩

end Sys2Proof.Machine
end

