-- ==== Sys2Proof/Laws/Encoding.lean ====
section
/-! SUPPORT. The fields of the two word layouts, and the round trips of register numbers, condition codes and constants. -/

namespace Sys2Proof

@[simp] theorem Reg.ofBits_toBits (r : Reg) : Reg.ofBits r.toBits = r := by cases r <;> rfl

@[simp] theorem Reg.toBits_ofBits (b : BitVec 3) : (Reg.ofBits b).toBits = b := by
  revert b; decide

@[simp] theorem Cond.ofBits_toBits (cc : Cond) : Cond.ofBits cc.toBits = some cc := by cases cc <;> rfl

theorem Cond.toBits_of_ofBits : ∀ (b : BitVec 4) (x : Cond), Cond.ofBits b = some x → x.toBits = b := by decide

/-- A constant that fits survives the 20-bit field. -/
theorem imm20_toInt {k : Int} (h : fits20 k = true) : (imm20 k).toInt = k := by
  simp only [fits20, Bool.and_eq_true, decide_eq_true_eq] at h
  rw [imm20, BitVec.toInt_ofInt]
  exact Int.bmod_eq_of_le (by omega) (by omega)

/-- The constant read from a field fits, and its field is that field. -/
theorem imm20_of_toInt (b : BitVec 20) : fits20 b.toInt = true ∧ imm20 b.toInt = b := by
  have h1 := BitVec.le_toInt b
  have h2 := BitVec.toInt_lt (x := b)
  refine ⟨?_, BitVec.ofInt_toInt⟩
  simp only [fits20, Bool.and_eq_true, decide_eq_true_eq]
  omega

/-- The fields of `layoutReg`. -/
theorem layoutReg_fields (op : BitVec 5) (m : BitVec 1) (f1 f2 : BitVec 3) (low : BitVec 20) :
    fieldOp (layoutReg op m f1 f2 low) = op ∧
    (layoutReg op m f1 f2 low).extractLsb' 26 1 = m ∧
    (layoutReg op m f1 f2 low).extractLsb' 23 3 = f1 ∧
    (layoutReg op m f1 f2 low).extractLsb' 20 3 = f2 ∧
    (layoutReg op m f1 f2 low).extractLsb' 0 20 = low := by
  have h1 := op.isLt; have h2 := m.isLt; have h3 := f1.isLt; have h4 := f2.isLt; have h5 := low.isLt
  refine ⟨?_, ?_, ?_, ?_, ?_⟩ <;> apply BitVec.eq_of_toNat_eq <;>
    simp only [fieldOp, layoutReg, BitVec.extractLsb'_toNat, BitVec.toNat_ofNat, Nat.shiftRight_eq_div_pow] <;> omega

/-- The fields of `layoutCond`. -/
theorem layoutCond_fields (op : BitVec 5) (m : BitVec 1) (cc : Cond) (low : BitVec 20) :
    fieldOp (layoutCond op m cc low) = op ∧
    (layoutCond op m cc low).extractLsb' 26 1 = m ∧
    fieldCond (layoutCond op m cc low) = some cc ∧
    (layoutCond op m cc low).extractLsb' 20 2 = 0#2 ∧
    (layoutCond op m cc low).extractLsb' 0 20 = low := by
  have h1 := op.isLt; have h2 := m.isLt; have h3 := cc.toBits.isLt; have h5 := low.isLt
  have hc : (layoutCond op m cc low).extractLsb' 22 4 = cc.toBits := by
    apply BitVec.eq_of_toNat_eq
    simp only [layoutCond, BitVec.extractLsb'_toNat, BitVec.toNat_ofNat, Nat.shiftRight_eq_div_pow]
    omega
  refine ⟨?_, ?_, by rw [fieldCond, hc, Cond.ofBits_toBits], ?_, ?_⟩ <;> apply BitVec.eq_of_toNat_eq <;>
    simp only [fieldOp, layoutCond, BitVec.extractLsb'_toNat, BitVec.toNat_ofNat, Nat.shiftRight_eq_div_pow] <;> omega

/-- Fields inside the low twenty bits are fields of the low part. -/
theorem field_of_low (w : Word) (lo len : Nat) (h : lo + len ≤ 20) :
    w.extractLsb' lo len = (w.extractLsb' 0 20).extractLsb' lo len := by
  ext i hi
  simp only [BitVec.getElem_extractLsb', BitVec.getLsbD_extractLsb', Nat.zero_add]
  have : lo + i < 20 := by omega
  simp [this]

/-- The register number in the low part, and the zeros below it. -/
theorem lowReg_fields (r : Reg) :
    (lowReg r).extractLsb' 17 3 = r.toBits ∧ (lowReg r).extractLsb' 0 17 = 0#17 := by
  cases r <;> decide

/-- The word of four bytes of a word is the word. -/
theorem wordOfBytes_byteOfWord (w : Word) :
    wordOfBytes (byteOfWord w 0) (byteOfWord w 1) (byteOfWord w 2) (byteOfWord w 3) = w := by
  apply BitVec.eq_of_toNat_eq
  have := w.isLt
  simp only [wordOfBytes, byteOfWord, BitVec.toNat_ofNat, BitVec.extractLsb'_toNat, Nat.shiftRight_eq_div_pow]
  omega

end Sys2Proof
end

