-- ==== Sys2Proof/Laws/PerInstr.lean ====
section
/-! SUPPORT. Per instruction: the operation code and the mode bit that spec/opcode_table.json gives its row (bits 31:26
of the row's match) stand in its word. -/

namespace Sys2Proof.Laws.EncodeOpcode

/-- Bits 31:26 of the row's match in spec/opcode_table.json: the operation code and the mode bit. -/
def row : Instr → BitVec 5 × BitVec 1
  | .orReg .. => (0b00001#5, 0#1)
  | .orImm .. => (0b00001#5, 1#1)
  | .andReg .. => (0b00010#5, 0#1)
  | .andImm .. => (0b00010#5, 1#1)
  | .xorReg .. => (0b00011#5, 0#1)
  | .xorImm .. => (0b00011#5, 1#1)
  | .addReg .. => (0b00100#5, 0#1)
  | .addImm .. => (0b00100#5, 1#1)
  | .adcReg .. => (0b00101#5, 0#1)
  | .adcImm .. => (0b00101#5, 1#1)
  | .subReg .. => (0b00110#5, 0#1)
  | .subImm .. => (0b00110#5, 1#1)
  | .sbcReg .. => (0b00111#5, 0#1)
  | .sbcImm .. => (0b00111#5, 1#1)
  | .rotlReg .. => (0b01000#5, 0#1)
  | .rotlImm .. => (0b01000#5, 1#1)
  | .rotrReg .. => (0b01001#5, 0#1)
  | .rotrImm .. => (0b01001#5, 1#1)
  | .shlReg .. => (0b01010#5, 0#1)
  | .shlImm .. => (0b01010#5, 1#1)
  | .shrReg .. => (0b01011#5, 0#1)
  | .shrImm .. => (0b01011#5, 1#1)
  | .ashrReg .. => (0b01100#5, 0#1)
  | .ashrImm .. => (0b01100#5, 1#1)
  | .cmpReg .. => (0b01101#5, 0#1)
  | .cmpImm .. => (0b01101#5, 1#1)
  | .moveReg .. => (0b00000#5, 0#1)
  | .moveImm .. => (0b00000#5, 1#1)
  | .moveFromSr .. => (0b00000#5, 0#1)
  | .moveToSrReg .. => (0b00000#5, 0#1)
  | .moveToSrImm .. => (0b00000#5, 1#1)
  | .loadAbs .. => (0b10110#5, 0#1)
  | .loadOff .. => (0b10110#5, 1#1)
  | .loadhAbs .. => (0b10100#5, 0#1)
  | .loadhOff .. => (0b10100#5, 1#1)
  | .loadbAbs .. => (0b10010#5, 0#1)
  | .loadbOff .. => (0b10010#5, 1#1)
  | .storeAbs .. => (0b10111#5, 0#1)
  | .storeOff .. => (0b10111#5, 1#1)
  | .storehAbs .. => (0b10101#5, 0#1)
  | .storehOff .. => (0b10101#5, 1#1)
  | .storebAbs .. => (0b10011#5, 0#1)
  | .storebOff .. => (0b10011#5, 1#1)
  | .push .. => (0b10001#5, 0#1)
  | .pop .. => (0b10000#5, 0#1)
  | .jpAbs .. => (0b11000#5, 1#1)
  | .jpReg .. => (0b11000#5, 0#1)
  | .callAbs .. => (0b11001#5, 1#1)
  | .callReg .. => (0b11001#5, 0#1)
  | .jr .. => (0b11010#5, 1#1)
  | .ret .. => (0b11011#5, 0#1)
  | .reti .. => (0b11011#5, 0#1)
  | .retn .. => (0b11011#5, 0#1)
  | .halt .. => (0b11111#5, 0#1)

/-- The word of the instruction carries its row's operation code and mode bit. -/
def Statement (i : Instr) : Prop :=
  fieldOp (encode i) = (row i).1 ∧ (encode i).extractLsb' 26 1 = (row i).2

theorem of_layoutReg {i : Instr} (f1 f2 : BitVec 3) (low : BitVec 20)
    (h : encode i = layoutReg (row i).1 (row i).2 f1 f2 low) : Statement i := by
  rw [Statement, h]
  exact ⟨(layoutReg_fields ..).1, (layoutReg_fields ..).2.1⟩

theorem of_layoutCond {i : Instr} (cc : Cond) (low : BitVec 20)
    (h : encode i = layoutCond (row i).1 (row i).2 cc low) : Statement i := by
  rw [Statement, h]
  exact ⟨(layoutCond_fields ..).1, (layoutCond_fields ..).2.1⟩

theorem orReg (src1 src2 dest : Reg) : Statement (.orReg src1 src2 dest) := of_layoutReg _ _ _ rfl
theorem orImm (src1 : Reg) (imm : Int) (dest : Reg) : Statement (.orImm src1 imm dest) := of_layoutReg _ _ _ rfl
theorem andReg (src1 src2 dest : Reg) : Statement (.andReg src1 src2 dest) := of_layoutReg _ _ _ rfl
theorem andImm (src1 : Reg) (imm : Int) (dest : Reg) : Statement (.andImm src1 imm dest) := of_layoutReg _ _ _ rfl
theorem xorReg (src1 src2 dest : Reg) : Statement (.xorReg src1 src2 dest) := of_layoutReg _ _ _ rfl
theorem xorImm (src1 : Reg) (imm : Int) (dest : Reg) : Statement (.xorImm src1 imm dest) := of_layoutReg _ _ _ rfl
theorem addReg (src1 src2 dest : Reg) : Statement (.addReg src1 src2 dest) := of_layoutReg _ _ _ rfl
theorem addImm (src1 : Reg) (imm : Int) (dest : Reg) : Statement (.addImm src1 imm dest) := of_layoutReg _ _ _ rfl
theorem adcReg (src1 src2 dest : Reg) : Statement (.adcReg src1 src2 dest) := of_layoutReg _ _ _ rfl
theorem adcImm (src1 : Reg) (imm : Int) (dest : Reg) : Statement (.adcImm src1 imm dest) := of_layoutReg _ _ _ rfl
theorem subReg (src1 src2 dest : Reg) : Statement (.subReg src1 src2 dest) := of_layoutReg _ _ _ rfl
theorem subImm (src1 : Reg) (imm : Int) (dest : Reg) : Statement (.subImm src1 imm dest) := of_layoutReg _ _ _ rfl
theorem sbcReg (src1 src2 dest : Reg) : Statement (.sbcReg src1 src2 dest) := of_layoutReg _ _ _ rfl
theorem sbcImm (src1 : Reg) (imm : Int) (dest : Reg) : Statement (.sbcImm src1 imm dest) := of_layoutReg _ _ _ rfl
theorem rotlReg (src1 src2 dest : Reg) : Statement (.rotlReg src1 src2 dest) := of_layoutReg _ _ _ rfl
theorem rotlImm (src1 : Reg) (imm : Int) (dest : Reg) : Statement (.rotlImm src1 imm dest) := of_layoutReg _ _ _ rfl
theorem rotrReg (src1 src2 dest : Reg) : Statement (.rotrReg src1 src2 dest) := of_layoutReg _ _ _ rfl
theorem rotrImm (src1 : Reg) (imm : Int) (dest : Reg) : Statement (.rotrImm src1 imm dest) := of_layoutReg _ _ _ rfl
theorem shlReg (src1 src2 dest : Reg) : Statement (.shlReg src1 src2 dest) := of_layoutReg _ _ _ rfl
theorem shlImm (src1 : Reg) (imm : Int) (dest : Reg) : Statement (.shlImm src1 imm dest) := of_layoutReg _ _ _ rfl
theorem shrReg (src1 src2 dest : Reg) : Statement (.shrReg src1 src2 dest) := of_layoutReg _ _ _ rfl
theorem shrImm (src1 : Reg) (imm : Int) (dest : Reg) : Statement (.shrImm src1 imm dest) := of_layoutReg _ _ _ rfl
theorem ashrReg (src1 src2 dest : Reg) : Statement (.ashrReg src1 src2 dest) := of_layoutReg _ _ _ rfl
theorem ashrImm (src1 : Reg) (imm : Int) (dest : Reg) : Statement (.ashrImm src1 imm dest) := of_layoutReg _ _ _ rfl
theorem cmpReg (src1 src2 : Reg) : Statement (.cmpReg src1 src2) := of_layoutReg _ _ _ rfl
theorem cmpImm (src1 : Reg) (imm : Int) : Statement (.cmpImm src1 imm) := of_layoutReg _ _ _ rfl
theorem moveReg (src2 dest : Reg) : Statement (.moveReg src2 dest) := of_layoutReg _ _ _ rfl
theorem moveImm (imm : Int) (dest : Reg) : Statement (.moveImm imm dest) := of_layoutReg _ _ _ rfl
theorem moveFromSr (dest : Reg) : Statement (.moveFromSr dest) := of_layoutReg _ _ _ rfl
theorem moveToSrReg (src2 : Reg) : Statement (.moveToSrReg src2) := of_layoutReg _ _ _ rfl
theorem moveToSrImm (imm : Int) : Statement (.moveToSrImm imm) := of_layoutReg _ _ _ rfl
theorem loadAbs (dest : Reg) (adr : Int) : Statement (.loadAbs dest adr) := of_layoutReg _ _ _ rfl
theorem loadOff (dest adrreg : Reg) (offset : Int) : Statement (.loadOff dest adrreg offset) := of_layoutReg _ _ _ rfl
theorem loadhAbs (dest : Reg) (adr : Int) : Statement (.loadhAbs dest adr) := of_layoutReg _ _ _ rfl
theorem loadhOff (dest adrreg : Reg) (offset : Int) : Statement (.loadhOff dest adrreg offset) := of_layoutReg _ _ _ rfl
theorem loadbAbs (dest : Reg) (adr : Int) : Statement (.loadbAbs dest adr) := of_layoutReg _ _ _ rfl
theorem loadbOff (dest adrreg : Reg) (offset : Int) : Statement (.loadbOff dest adrreg offset) := of_layoutReg _ _ _ rfl
theorem storeAbs (src1 : Reg) (adr : Int) : Statement (.storeAbs src1 adr) := of_layoutReg _ _ _ rfl
theorem storeOff (src1 adrreg : Reg) (offset : Int) : Statement (.storeOff src1 adrreg offset) := of_layoutReg _ _ _ rfl
theorem storehAbs (src1 : Reg) (adr : Int) : Statement (.storehAbs src1 adr) := of_layoutReg _ _ _ rfl
theorem storehOff (src1 adrreg : Reg) (offset : Int) : Statement (.storehOff src1 adrreg offset) := of_layoutReg _ _ _ rfl
theorem storebAbs (src1 : Reg) (adr : Int) : Statement (.storebAbs src1 adr) := of_layoutReg _ _ _ rfl
theorem storebOff (src1 adrreg : Reg) (offset : Int) : Statement (.storebOff src1 adrreg offset) := of_layoutReg _ _ _ rfl
theorem push (src1 : Reg) : Statement (.push src1) := of_layoutReg _ _ _ rfl
theorem pop (dest : Reg) : Statement (.pop dest) := of_layoutReg _ _ _ rfl
theorem jpAbs (cond : Cond) (adr : Int) : Statement (.jpAbs cond adr) := of_layoutCond _ _ rfl
theorem jpReg (cond : Cond) (adrreg : Reg) : Statement (.jpReg cond adrreg) := of_layoutCond _ _ rfl
theorem callAbs (cond : Cond) (adr : Int) : Statement (.callAbs cond adr) := of_layoutCond _ _ rfl
theorem callReg (cond : Cond) (adrreg : Reg) : Statement (.callReg cond adrreg) := of_layoutCond _ _ rfl
theorem jr (cond : Cond) (offset : Int) : Statement (.jr cond offset) := of_layoutCond _ _ rfl
theorem ret (cond : Cond) : Statement (.ret cond) := of_layoutCond _ _ rfl
theorem reti (cond : Cond) : Statement (.reti cond) := of_layoutCond _ _ rfl
theorem retn (cond : Cond) : Statement (.retn cond) := of_layoutCond _ _ rfl
theorem halt (cond : Cond) : Statement (.halt cond) := of_layoutCond _ _ rfl

end Sys2Proof.Laws.EncodeOpcode
end

