-- ==== Sys2Proof/Laws/Step.lean ====
section
/-! SUPPORT. The shared operations above the accesses: the stack, interrupt entry and return, the units' own moves, and
once everything a step can do. -/

namespace Sys2Proof.Machine

/-! ### The stack and the interrupts -/

/-- The push of PC onto a stack in memory. -/
theorem State.pushPc_memory {s : State} (h : s.memoryBacked (align (s.getReg .r7 - 4#32) .word) .word = true) :
    s.pushPc = .ok { s.growStack with
      mem := storeBytes s.mem (align (s.getReg .r7 - 4#32) .word) s.pc .word } := by
  have h7 : s.growStack.getReg .r7 = s.getReg .r7 - 4#32 := by simp
  have hb : s.growStack.memoryBacked (align (s.growStack.getReg .r7) .word) .word = true := by
    rw [h7]; exact h
  rw [State.pushPc, State.memWrite_memory hb, h7]
  rfl

/-- The pop of PC from a stack in memory. -/
theorem State.popPc_memory {s : State} (h : s.memoryBacked (align (s.getReg .r7) .word) .word = true) :
    s.popPc = .ok (s.setPc (s.loadBytes (align (s.getReg .r7) .word) .word)).shrinkStack := by
  simp [State.popPc, State.memRead_memory h]

/-- Everything the push of PC can do to the processor. -/
theorem State.pushPc_frame {s t : State} (h : s.pushPc = .ok t) :
    t.regs = s.regs.set .r7 (s.getReg .r7 - 4#32) ∧ t.pc = s.pc ∧ t.sr = s.sr ∧ t.iif = s.iif ∧
      t.halted = s.halted ∧ t.inputs = s.inputs ∧ samePlatform s t := by
  obtain ⟨h1, h2, h3, h4, h5, h6, h7⟩ := State.memWrite_frame h
  exact ⟨h1, h2, h3, h4, h5, h6, (samePlatform.of_eq rfl rfl rfl rfl).trans h7⟩

/-- Everything the pop of PC can do: PC is some word read, R7 grows by 4, free values may be drawn. -/
theorem State.popPc_cases {s t : State} (h : s.popPc = .ok t) :
    ∃ v n, s.memRead (s.getReg .r7) .word = .ok (v, { s with draws := n }) ∧
      t = (({ s with draws := n } : State).setPc v).shrinkStack := by
  unfold State.popPc at h
  split at h
  · cases h
  · rename_i v s1 hr
    obtain ⟨n, rfl⟩ := State.memRead_state hr
    exact ⟨v, n, hr, by cases h; rfl⟩

/-- Everything taking an interrupt can do to the processor. -/
theorem State.takeInterrupt_frame {s t : State} {k : InterruptKind} (h : s.takeInterrupt k = .ok t) :
    t.regs = s.regs.set .r7 (s.getReg .r7 - 4#32) ∧ t.sr = (s.setEnable k false).sr ∧
      t.iif = (s.setEnable k false).iif ∧ t.halted = s.halted ∧ t.inputs = s.inputs ∧ samePlatform s t := by
  unfold State.takeInterrupt at h
  split at h
  · cases h
  · rename_i s1 hp
    obtain ⟨h1, -, h3, h4, h5, h6, h7⟩ := State.pushPc_frame hp
    have hpl : samePlatform s s1 :=
      (samePlatform.of_eq (State.setEnable_params ..) (State.setEnable_cts ..) (State.setEnable_pios ..)
        (State.setEnable_dmas ..)).trans h7
    have hreg : s1.regs = s.regs.set .r7 (s.getReg .r7 - 4#32) := by
      rw [h1, State.setEnable_regs, State.getReg_setEnable]
    cases k with
    | maskable =>
      simp only [State.enterHandler] at h
      split at h
      · cases h
      · rename_i v s2 hr
        obtain ⟨n, rfl⟩ := State.memRead_state hr
        cases h
        exact ⟨hreg, h3, h4, h5.trans (State.setEnable_halted ..), h6.trans (State.setEnable_inputs ..), hpl⟩
    | nonMaskable =>
      cases h
      exact ⟨hreg, h3, h4, h5.trans (State.setEnable_halted ..), h6.trans (State.setEnable_inputs ..), hpl⟩

/-! ### The units' own moves -/

/-- Moving a datum touches nothing of the processor. -/
theorem State.dmaMove_frame {s t : State} {k : Nat} (h : s.dmaMove k = .ok t) :
    sameProcessor s t ∧ t.inputs = s.inputs ∧ samePlatform s t := by
  unfold State.dmaMove at h
  split at h
  · cases h; exact ⟨⟨rfl, rfl, rfl, rfl, rfl⟩, rfl, .refl _⟩
  · split at h
    · cases h; exact ⟨⟨rfl, rfl, rfl, rfl, rfl⟩, rfl, .refl _⟩
    · split at h
      · cases h
      · rename_i v s1 hr
        obtain ⟨n, rfl⟩ := State.memRead_state hr
        split at h
        · cases h
        · rename_i s2 hw
          obtain ⟨h1, h2, h3, h4, h5, h6, h7⟩ := State.memWrite_frame hw
          split at h
          · cases h; exact ⟨⟨h1, h2, h3, h4, h5⟩, h6, h7⟩
          · rename_i u2 hu2
            cases h
            exact ⟨⟨h1, h2, h3, h4, h5⟩, h6, samePlatform.trans (t := s2) h7 (State.putDma_platform hu2 _ rfl rfl)⟩

/-- An event touches nothing of the processor. -/
theorem State.applyEvent_frame {s t : State} {e : Event} (h : s.applyEvent e = .ok t) :
    sameProcessor s t ∧ t.inputs = s.inputs ∧ samePlatform s t := by
  have same : ∀ {x : State}, (Except.ok s : Except Fault State) = .ok x →
      sameProcessor s x ∧ x.inputs = s.inputs ∧ samePlatform s x := by
    intro x hx; cases hx; exact ⟨⟨rfl, rfl, rfl, rfl, rfl⟩, rfl, .refl _⟩
  cases e <;> simp only [State.applyEvent] at h
  case ctPulse k =>
    split at h
    · rename_i u hu
      cases h; exact ⟨⟨rfl, rfl, rfl, rfl, rfl⟩, rfl, State.putCt_platform hu _ (Ct.pulse_base ..)⟩
    · exact same h
  case pioTaken k =>
    split at h
    · rename_i u hu
      cases h; exact ⟨⟨rfl, rfl, rfl, rfl, rfl⟩, rfl, State.putPio_platform hu _ (Pio.taken_base ..)⟩
    · exact same h
  case pioInput k b st =>
    split at h
    · rename_i u hu
      cases h; exact ⟨⟨rfl, rfl, rfl, rfl, rfl⟩, rfl, State.putPio_platform hu _ (Pio.input_base ..)⟩
    · exact same h
  case dmaDatum k => exact State.dmaMove_frame h
  case ctWild k v =>
    split at h
    · rename_i u hu
      split at h
      · cases h; exact ⟨⟨rfl, rfl, rfl, rfl, rfl⟩, rfl, State.putCt_platform hu _ rfl⟩
      · exact same h
    · exact same h
  case pioWild k v =>
    split at h
    · rename_i u hu
      split at h
      · cases h; exact ⟨⟨rfl, rfl, rfl, rfl, rfl⟩, rfl, State.putPio_platform hu _ rfl⟩
      · exact same h
    · exact same h
  case dmaWild k v =>
    split at h
    · rename_i u hu
      split at h
      · cases h; exact ⟨⟨rfl, rfl, rfl, rfl, rfl⟩, rfl, State.putDma_platform hu _ rfl rfl⟩
      · exact same h
    · exact same h

theorem sameProcessor.trans {s t u : State} (h : sameProcessor s t) (k : sameProcessor t u) : sameProcessor s u :=
  ⟨k.1.trans h.1, k.2.1.trans h.2.1, k.2.2.1.trans h.2.2.1, k.2.2.2.1.trans h.2.2.2.1, k.2.2.2.2.trans h.2.2.2.2⟩

/-- A property that each event keeps is kept by all of a boundary's events. -/
theorem State.applyEvents_induction {P : State → State → Prop} (hrefl : ∀ s, P s s)
    (hstep : ∀ s e t u, s.applyEvent e = .ok t → P t u → P s u) :
    ∀ (es : List Event) (s t : State), s.applyEvents es = .ok t → P s t := by
  intro es
  induction es with
  | nil => intro s t h; cases h; exact hrefl s
  | cons e rest ih =>
    intro s t h
    simp only [State.applyEvents] at h
    split at h
    · cases h
    · rename_i s1 h1; exact hstep s e s1 t h1 (ih s1 t h)

/-! ### The step -/

/-- Everything a step can do when it answers a next state. -/
theorem step_cases {s t : State} (h : step s = .next t) :
    ∃ s1, s.afterBoundary = .ok s1 ∧
      ((s1.dmaHolds = true ∧ s1.dmaHalted = .ok t) ∨
       (s1.dmaHolds = false ∧ s1.halted = true ∧ t = s1) ∨
       (∃ k, s.ProcessorFree s1 ∧ s1.pendingInterrupt s.boundary.hold = some k ∧ s1.takeInterrupt k = .ok t) ∨
       (∃ i s2, s.Executes i s2 ∧ exec i s2 = .next t)) := by
  unfold step at h
  split at h
  · cases h
  · rename_i s1 hb
    refine ⟨s1, hb, ?_⟩
    unfold State.processorStep at h
    split at h
    · rename_i hd
      refine .inl ⟨hd, ?_⟩
      unfold finish at h
      split at h
      · rename_i hx; cases h; exact hx
      · cases h
    · rename_i hd
      have hd : s1.dmaHolds = false := by simpa using hd
      split at h
      · rename_i hh; exact .inr (.inl ⟨hd, hh, by cases h; rfl⟩)
      · rename_i hh
        have hf : s.ProcessorFree s1 := ⟨hb, hd, by simpa using hh⟩
        split at h
        · rename_i k hk
          refine .inr (.inr (.inl ⟨k, hf, hk, ?_⟩))
          unfold finish at h
          split at h
          · rename_i hx; cases h; exact hx
          · cases h
        · rename_i hk
          refine .inr (.inr (.inr ?_))
          unfold State.runInstruction at h
          split at h
          · cases h
          · rename_i w s2 hw
            split at h
            · cases h
            · rename_i i hi
              exact ⟨i, s2, ⟨s1, w, hf, hk, hw, hi⟩, h⟩

/-! ### The invariant, for the operations that write memory -/

theorem State.Inv.of_eq {s t : State} (hi : s.Inv) (hm : t.mem = s.mem) (hp : samePlatform s t) : t.Inv := by
  refine ⟨hm ▸ hi.1, fun c hc => ?_⟩
  rw [State.target_isMemory_congr hp]
  exact hi.2 c (hm ▸ hc)

/-- A write keeps the invariant. -/
theorem State.memWrite_inv {s t : State} {a v : Word} {w : Width} (hi : s.Inv) (h : s.memWrite a w v = .ok t) :
    t.Inv := by
  have hp := (State.memWrite_frame h).2.2.2.2.2.2
  rcases State.memWrite_cases h with ⟨hb, rfl⟩ | ⟨k, u, -, -, rfl⟩ | ⟨k, u, -, -, rfl⟩ | ⟨k, u, -, -, rfl⟩
  · refine ⟨Memory.wf_storeBytes hi.1 _ _ _, fun c hc => ?_⟩
    rw [State.target_isMemory_congr hp]
    rcases Memory.mem_storeBytes hc with hc | ⟨j, hj, e⟩
    · exact hi.2 c hc
    · have := State.memoryBacked_byte hb hj
      rw [e, BitVec.ofNat_toNat, BitVec.setWidth_eq]
      exact this
  · exact hi.of_eq rfl hp
  · exact hi.of_eq rfl hp
  · exact hi.of_eq rfl hp

end Sys2Proof.Machine
end

