-- ==== Sys2Proof/Laws/Units.lean ====
section
/-! SUPPORT. FRISC-PIO: the bits of MODE, and the bit-testing condition bit by bit (60_exceptions.md R241, R244). -/

namespace Sys2Proof.Machine

/-- A byte is not zero exactly when one of its bits is set. -/
theorem byte_ne_zero_iff (x : Byte) : x ≠ 0#8 ↔ ∃ i, i < 8 ∧ x.getLsbD i = true := by
  constructor
  · intro h
    by_contra hn
    exact h (BitVec.eq_of_getLsbD_eq fun i hi => by simpa using fun hx => hn ⟨i, hi, hx⟩)
  · rintro ⟨i, -, hx⟩ rfl
    simp at hx

/-- The two bits of MODE, from the field as a number. -/
theorem Pio.modeBits {u : Pio} {c : BitVec 2} (h : u.ctl.extractLsb' 0 2 = c) :
    u.ctl.getLsbD 1 = c.getLsbD 1 ∧ u.ctl.getLsbD 0 = c.getLsbD 0 := by
  subst h; simp

theorem Pio.activeLines_bit (u : Pio) (b : Byte) {i : Nat} (hi : i < 8) :
    (u.activeLines b).getLsbD i = (b.getLsbD i == u.active.getLsbD i) := by
  simp only [Pio.activeLines, BitVec.getLsbD_not, BitVec.getLsbD_xor, hi, decide_true, Bool.true_and]
  cases b.getLsbD i <;> cases u.active.getLsbD i <;> rfl

/-- With some bit tested the condition has a value, and it is true exactly when `ConditionHolds`. -/
theorem Pio.testCondition_spec (u : Pio) (b : Byte) (hm : u.mask ≠ 0#8) :
    ∃ c, u.testCondition b = some c ∧ (c = true ↔ u.ConditionHolds b) := by
  unfold Pio.testCondition Pio.ConditionHolds Pio.testAnd
  rw [if_neg hm]
  cases u.ctl.getLsbD 4
  · refine ⟨_, rfl, ?_⟩
    simp only [bne_iff_ne, byte_ne_zero_iff, BitVec.getLsbD_and, Bool.and_eq_true, Bool.false_eq_true, if_false]
    refine exists_congr fun i => and_congr_right fun hi => and_congr_right fun _ => ?_
    rw [u.activeLines_bit b hi, beq_iff_eq]
  · refine ⟨_, rfl, ?_⟩
    simp only [beq_iff_eq, if_true]
    constructor
    · intro h i hi hx
      simpa only [BitVec.getLsbD_and, hx, Bool.true_and, u.activeLines_bit b hi, beq_iff_eq]
        using congrArg (·.getLsbD i) h
    · intro h
      refine BitVec.eq_of_getLsbD_eq fun i hi => ?_
      rw [BitVec.getLsbD_and, u.activeLines_bit b hi]
      cases hx : u.mask.getLsbD i
      · rfl
      · simp [h i hi hx]

/-- With no bit tested the condition has no value. -/
theorem Pio.testCondition_none {u : Pio} (b : Byte) (hm : u.mask = 0#8) : u.testCondition b = none := if_pos hm

end Sys2Proof.Machine
end

