-- ==== Sys2Proof/Tests/Slice0.lean ====
section
/-! SUPPORT. Tests.  Expected values are those of spec/95_test_vectors.md, spec/30_encoding.md R106 and the worked
examples of the rules; words written in binary are laid out from the field tables of 30_encoding.md R82 to R90.  The
`witness_` theorems show concrete states and operands that meet the hypotheses of the statement they are named after. -/

namespace Sys2Proof.Machine.Test

/-! ### Small states and readers -/

/-- The outcome is a next state of which `p` holds. -/
def after (o : StepOutcome) (p : State → Bool) : Bool :=
  match o with
  | .next t => p t
  | .fault _ | .refused _ => false

theorem next_of_after {o : StepOutcome} {p : State → Bool} (h : after o p = true) : ∃ t, o = .next t ∧ p t = true := by
  cases o with
  | next t => exact ⟨t, rfl, h⟩
  | fault _ => cases h
  | refused _ => cases h

/-- The outcome is the fault `f`. -/
def faultsWith (o : StepOutcome) (f : Fault) : Bool :=
  match o with
  | .fault g => decide (g = f)
  | .next _ | .refused _ => false

/-- The word decodes to the instruction, and the instruction encodes to the word. -/
def stands (w : Nat) (i : Instr) : Bool :=
  decide (decodeTableWord 32 w = some i) && decide (encode i = BitVec.ofNat 32 w)

/-- The word is rejected for the reason `e`. -/
def rejects (w : Word) (e : DecodeError) : Bool :=
  match decodeWord w with
  | .error x => decide (x = e)
  | .ok _ => false

/-- A FRISC-CT, a FRISC-PIO and a FRISC-DMA in memory that fills the rest of the address space; R7 is 10000. -/
def machine : State where
  regs := ⟨0, 0, 0, 0, 0, 0, 0, 0x10000#32⟩
  pc := 0x38#32
  sr := 0
  iif := true
  halted := false
  mem := []
  cts := [⟨0xFFFF0000#32, 0, 3, 3, false, false, false⟩]
  pios := [⟨0xFFFF1000#32, 0, 0, 0, 0, 0, false, false, false⟩]
  dmas := [⟨0xFFFF2000#32, 0, 0, 0, 0, false, false, false, false⟩]
  params := ⟨[⟨0, 0x100000000⟩], true, true, false⟩
  inputs := []
  draws := 0

/-- R0 and R1 given, SR given. -/
def pair (a b : Word) (sr : BitVec 8) : State := { (machine.setReg .r0 a).setReg .r1 b with sr := sr }

/-- A word of memory given. -/
def poke (s : State) (a v : Word) : State := { s with mem := storeBytes s.mem a v .word }

/-- The memory of section 2.8: bytes 44 33 22 11 88 77 66 55 from address 1000. -/
def bytes1000 : State := poke (poke machine 0x1000#32 0x11223344#32) 0x1004#32 0x55667788#32

/-- R2 and the flags C, V, N, Z after. -/
def gives (d : Word) (c v n z : Bool) (t : State) : Bool := decide (t.getReg .r2 = d ∧ t.flags = ⟨n, c, v, z⟩)

/-- The word of memory at an address. -/
def wordAt (s : State) (a : Word) : Word := s.loadBytes a .word

/-- The FRISC-PIO of section 2.13 in bit-testing mode, AND, with 05 on its lines, and a machine that has it. -/
def tester (status : Bool) : Pio := ⟨0xFFFF1000#32, 0x05, 0x0F, 0b10011, 0, 0x05, status, false, false⟩
def testing (status : Bool) : State := { machine with pios := [tester status] }

/-- Every unit has its status flip-flop set, with INT. -/
def finished : State :=
  { machine with
    cts := [⟨0xFFFF0000#32, 2, 3, 3, true, false, false⟩]
    pios := [⟨0xFFFF1000#32, 0, 0, 0b00100, 0, 0, true, false, false⟩]
    dmas := [⟨0xFFFF2000#32, 0, 0, 0, 1, true, false, false, false⟩] }


/-! ### Decoding: one word for every constructor, and the encoder on the same words -/

theorem decode_or_reg : stands 0x0A260000 (.orReg .r2 .r3 .r4) = true := by decide
theorem decode_or_imm : stands 0x0C000678 (.orImm .r0 0x678 .r0) = true := by decide
theorem decode_and_reg : stands 0b00010011100101000000000000000000 (.andReg .r1 .r2 .r7) = true := by decide
theorem decode_and_imm : stands 0x149000FF (.andImm .r1 0xFF .r1) = true := by decide
theorem decode_xor_reg : stands 0b00011011010110000000000000000000 (.xorReg .r5 .r4 .r6) = true := by decide
theorem decode_xor_imm : stands 0x1EDFFFFF (.xorImm .r5 (-1) .r5) = true := by decide
theorem decode_add_reg : stands 0x21940000 (.addReg .r1 .r2 .r3) = true := by decide
theorem decode_add_imm : stands 0x259FFFFF (.addImm .r1 (-1) .r3) = true := by decide
theorem decode_adc_reg : stands 0x2BFE0000 (.adcReg .r7 .r7 .r7) = true := by decide
theorem decode_adc_imm : stands 0b00101101001110000000000000000001 (.adcImm .r3 (-0x7FFFF) .r2) = true := by decide
theorem decode_sub_reg : stands 0x32040000 (.subReg .r0 .r2 .r4) = true := by decide
theorem decode_sub_imm : stands 0x3407FFFF (.subImm .r0 0x7FFFF .r0) = true := by decide
theorem decode_sbc_reg : stands 0x3B4A0000 (.sbcReg .r4 .r5 .r6) = true := by decide
theorem decode_sbc_imm : stands 0b00111100111000000000000000000111 (.sbcImm .r6 7 .r1) = true := by decide
theorem decode_rotl_reg : stands 0x40020000 (.rotlReg .r0 .r1 .r0) = true := by decide
theorem decode_rotl_imm : stands 0b01000110101000000000000000001001 (.rotlImm .r2 9 .r5) = true := by decide
theorem decode_rotr_reg : stands 0b01001010011100100000000000000000 (.rotrReg .r7 .r1 .r4) = true := by decide
theorem decode_rotr_imm : stands 0x4E300010 (.rotrImm .r3 0x10 .r4) = true := by decide
theorem decode_shl_reg : stands 0b01010001111010100000000000000000 (.shlReg .r6 .r5 .r3) = true := by decide
theorem decode_shl_imm : stands 0x55100004 (.shlImm .r1 4 .r2) = true := by decide
theorem decode_shr_reg : stands 0x59940000 (.shrReg .r1 .r2 .r3) = true := by decide
theorem decode_shr_imm : stands 0b01011111000100000000000000011111 (.shrImm .r1 31 .r6) = true := by decide
theorem decode_ashr_reg : stands 0b01100000101011100000000000000000 (.ashrReg .r2 .r7 .r1) = true := by decide
theorem decode_ashr_imm : stands 0x67F0001F (.ashrImm .r7 0x1F .r7) = true := by decide
theorem decode_cmp_reg : stands 0x686E0000 (.cmpReg .r6 .r7) = true := by decide
theorem decode_cmp_imm : stands 0x6C680000 (.cmpImm .r6 (-0x80000)) = true := by decide
theorem decode_move_reg : stands 0x030A0000 (.moveReg .r5 .r6) = true := by decide
theorem decode_move_imm : stands 0x0587FFFF (.moveImm 0x7FFFF .r3) = true := by decide
theorem decode_move_from_sr : stands 0x02A00000 (.moveFromSr .r5) = true := by decide
theorem decode_move_to_sr_reg : stands 0x00160000 (.moveToSrReg .r3) = true := by decide
theorem decode_move_to_sr_imm : stands 0x0410001F (.moveToSrImm 0x1F) = true := by decide
theorem decode_load_abs : stands 0xB08F0008 (.loadAbs .r1 (-0xFFF8)) = true := by decide
theorem decode_load_off : stands 0xB7F00000 (.loadOff .r7 .r7 0) = true := by decide
theorem decode_loadh_abs : stands 0b10100011000001000000000000000010 (.loadhAbs .r6 0x40002) = true := by decide
theorem decode_loadh_off : stands 0xA53FFFFE (.loadhOff .r2 .r3 (-2)) = true := by decide
theorem decode_loadb_abs : stands 0x9207FFFF (.loadbAbs .r4 0x7FFFF) = true := by decide
theorem decode_loadb_off : stands 0x95100001 (.loadbOff .r2 .r1 1) = true := by decide
theorem decode_store_abs : stands 0xB8000110 (.storeAbs .r0 0x110) = true := by decide
theorem decode_store_off : stands 0xBEE7FFFF (.storeOff .r5 .r6 0x7FFFF) = true := by decide
theorem decode_storeh_abs : stands 0xA8000100 (.storehAbs .r0 0x100) = true := by decide
theorem decode_storeh_off : stands 0xAF100006 (.storehOff .r6 .r1 6) = true := by decide
theorem decode_storeb_abs : stands 0b10011001100011111111111111111111 (.storebAbs .r3 (-1)) = true := by decide
theorem decode_storeb_off : stands 0x9CA00001 (.storebOff .r1 .r2 1) = true := by decide
theorem decode_push : stands 0x8B800000 (.push .r7) = true := by decide
theorem decode_pop : stands 0x81800000 (.pop .r3) = true := by decide
theorem decode_jp_abs : stands 0xC5C00040 (.jpAbs .z 0x40) = true := by decide
theorem decode_jp_reg : stands 0xC10E0000 (.jpReg .nc .r7) = true := by decide
theorem decode_call_abs : stands 0xCF800200 (.callAbs .sgt 0x200) = true := by decide
theorem decode_call_reg : stands 0xC98C0000 (.callReg .nv .r6) = true := by decide
theorem decode_jr : stands 0xD70FFFF4 (.jr .sle (-12)) = true := by decide
theorem decode_ret : stands 0xD9C00000 (.ret .z) = true := by decide
theorem decode_reti : stands 0xD8000001 (.reti .always) = true := by decide
theorem decode_retn : stands 0xD9000003 (.retn .nc) = true := by decide
theorem decode_halt : stands 0xFA800000 (.halt .ugt) = true := by decide

/-- The fifteen condition codes of R90, in HALT. -/
theorem decode_conditions :
    ([(0, Cond.always), (1, .n), (2, .nn), (3, .c), (4, .nc), (5, .v), (6, .nv), (7, .z), (8, .nz), (9, .ule),
      (10, .ugt), (11, .slt), (12, .sle), (13, .sge), (14, .sgt)].all
      fun x => stands (0xF8000000 + 0x400000 * x.1) (.halt x.2)) = true := by decide

/-- The words of 95_test_vectors.md section 3.2. -/
theorem decode_rejects_reserved_opcodes :
    (rejects 0x70000000#32 .reservedOpcode && rejects 0x78000000#32 .reservedOpcode &&
      rejects 0xE0000000#32 .reservedOpcode && rejects 0xE8000000#32 .reservedOpcode &&
      rejects 0xF0000000#32 .reservedOpcode) = true := by decide
theorem decode_rejects_reserved_codes :
    (rejects 0xDBC00000#32 .reservedCondition && rejects 0xFBC00000#32 .reservedCondition &&
      rejects 0xD8000002#32 .reservedReturnKind && rejects 0x00300000#32 .moveSrToSr &&
      rejects 0x04200000#32 .moveSrConstant) = true := by decide
theorem decode_rejects_wrong_bits :
    (rejects 0x20000001#32 .mustBeZero && rejects 0x00400000#32 .mustBeZero && rejects 0xD0000000#32 .wrongMode &&
      rejects 0x8C000000#32 .wrongMode && rejects 0x68800000#32 .destNotZero && rejects 0xB0100000#32 .mustBeZero &&
      rejects 0xC4100000#32 .mustBeZero) = true := by decide

/-- R106: the bytes of `MOVE 10000, R7` in memory, lowest address first; three bytes are no instruction. -/
theorem decode_bytes_little_endian : encodeBytes (.moveImm 0x10000 .r7) = [0x00#8, 0x00#8, 0x81#8, 0x07#8] := by decide
theorem decode_needs_four_bytes : rejects 0#32 .truncated = false ∧
    (match decodeBytes [0#8, 0#8, 0#8] with | .error e => decide (e = .truncated) | .ok _ => false) = true := by decide

/-! ### WellFormed refuses what no word can carry -/

theorem wellFormed_refuses_too_large : (Instr.addImm .r0 524288 .r1).wellFormed = false := by decide
theorem wellFormed_refuses_too_small : (Instr.loadAbs .r0 (-524289)).wellFormed = false := by decide
theorem wellFormed_refuses_offset : (Instr.jr .always 524288).wellFormed = false := by decide
theorem wellFormed_admits_ends :
    (Instr.addImm .r0 524287 .r1).wellFormed = true ∧ (Instr.callAbs .z (-524288)).wellFormed = true := by decide
theorem assembleJr_refuses_out_of_reach :
    assembleJr .always 0x1000 (0x1004 + 524288) = none ∧ assembleJr .always 0x100000 (0x100004 - 524289) = none := by
  decide
theorem assembleJr_of_vectors :
    assembleJr .always 0x1000 0x2000 = some (.jr .always 0xFFC) ∧ assembleJr .sle 0x1008 0x1000 = some (.jr .sle (-12))
    := by decide

/-! ### Arithmetic and logic (sections 2.1 to 2.5) -/

theorem test_add_reg_overflow :
    after (exec (.addReg .r0 .r1 .r2) (pair 0x7FFFFFFF#32 1#32 0)) (gives 0x80000000#32 false true true false) = true := by
  decide
theorem test_add_reg_carry :
    after (exec (.addReg .r0 .r1 .r2) (pair 0x80000000#32 0x80000000#32 0)) (gives 0#32 true true false true) = true := by
  decide
theorem test_add_imm_sign_extended :
    after (exec (.addImm .r0 (-1) .r2) (pair 5#32 0#32 0)) (gives 4#32 true false false false) = true := by decide
theorem test_adc_reg :
    after (exec (.adcReg .r0 .r1 .r2) (pair 0xFFFFFFFF#32 0xFFFFFFFF#32 2)) (gives 0xFFFFFFFF#32 true false true false)
      = true := by decide
theorem test_adc_imm :
    after (exec (.adcImm .r0 0 .r2) (pair 0x7FFFFFFF#32 0#32 2)) (gives 0x80000000#32 false true true false) = true := by
  decide
theorem test_sub_reg_borrow :
    after (exec (.subReg .r0 .r1 .r2) (pair 0#32 1#32 0)) (gives 0xFFFFFFFF#32 false false true false) = true := by decide
theorem test_sub_reg_overflow :
    after (exec (.subReg .r0 .r1 .r2) (pair 0x7FFFFFFF#32 0xFFFFFFFF#32 0)) (gives 0x80000000#32 false true true false)
      = true := by decide
theorem test_sub_imm :
    after (exec (.subImm .r0 3 .r2) (pair 5#32 0#32 0)) (gives 2#32 true false false false) = true := by decide
theorem test_sbc_reg_bias_one :
    after (exec (.sbcReg .r0 .r1 .r2) (pair 0#32 0#32 0)) (gives 0xFFFFFFFF#32 false false true false) = true := by decide
theorem test_sbc_reg_bias_zero :
    after (exec (.sbcReg .r0 .r1 .r2) { pair 0xFFFFFFFF#32 0#32 2 with params := ⟨[], false, true, false⟩ })
      (gives 0#32 true false false true) = true := by decide
theorem test_sbc_imm :
    after (exec (.sbcImm .r0 0 .r2) (pair 0x80000000#32 0#32 0)) (gives 0x7FFFFFFF#32 true true false false) = true := by
  decide
theorem test_cmp_reg :
    after (exec (.cmpReg .r0 .r1) (pair 0x80000000#32 1#32 0)) (gives 0#32 true true false false) = true := by decide
theorem test_cmp_imm :
    after (exec (.cmpImm .r0 5) (pair 3#32 0#32 0)) (gives 0#32 false false true false) = true := by decide
theorem test_and_reg :
    after (exec (.andReg .r0 .r1 .r2) (pair 0xF0F0F0F0#32 0x0FF00FF0#32 0x0F)) (gives 0x00F000F0#32 false false false false)
      = true := by decide
theorem test_and_imm :
    after (exec (.andImm .r0 (-1) .r2) (pair 0x12345678#32 0#32 0x0F)) (gives 0x12345678#32 false false false false)
      = true := by decide
theorem test_or_reg :
    after (exec (.orReg .r0 .r1 .r2) (pair 0xF0F0F0F0#32 0x0FF00FF0#32 0x06)) (gives 0xFFF0FFF0#32 false false true false)
      = true := by decide
theorem test_or_imm :
    after (exec (.orImm .r0 0x678 .r2) (pair 0x12345000#32 0#32 0x06)) (gives 0x12345678#32 false false false false)
      = true := by decide
theorem test_xor_reg :
    after (exec (.xorReg .r0 .r1 .r2) (pair 0xF0F0F0F0#32 0x0FF00FF0#32 0x06)) (gives 0xFF00FF00#32 false false true false)
      = true := by decide
theorem test_xor_imm :
    after (exec (.xorImm .r0 (-1) .r2) (pair 0x0000FFFF#32 0#32 0x06)) (gives 0xFFFF0000#32 false false true false)
      = true := by decide

/-! ### Shifts and rotations (section 2.6, and the ends of the ranges) -/

theorem test_shl_imm_one :
    after (exec (.shlImm .r0 1 .r2) (pair 0x80000001#32 0#32 4)) (gives 2#32 true false false false) = true := by decide
theorem test_shl_reg_ends :
    (after (exec (.shlReg .r0 .r1 .r2) (pair 0x80000001#32 32#32 0)) (gives 0#32 true false false true) &&
      after (exec (.shlReg .r0 .r1 .r2) (pair 0x80000001#32 33#32 2)) (gives 0#32 false false false true)) = true := by
  decide
theorem test_shr_imm_one :
    after (exec (.shrImm .r0 1 .r2) (pair 0x80000001#32 0#32 4)) (gives 0x40000000#32 true false false false) = true := by
  decide
theorem test_shr_reg_ends :
    (after (exec (.shrReg .r0 .r1 .r2) (pair 0x80000001#32 32#32 0)) (gives 0#32 true false false true) &&
      after (exec (.shrReg .r0 .r1 .r2) (pair 0x80000001#32 33#32 2)) (gives 0#32 false false false true)) = true := by
  decide
theorem test_ashr_imm_31 :
    after (exec (.ashrImm .r0 31 .r2) (pair 0x80000001#32 0#32 4)) (gives 0xFFFFFFFF#32 false false true false) = true := by
  decide
theorem test_ashr_reg_ends :
    (after (exec (.ashrReg .r0 .r1 .r2) (pair 0x80000001#32 1#32 0)) (gives 0xC0000000#32 true false true false) &&
      after (exec (.ashrReg .r0 .r1 .r2) (pair 0x80000001#32 32#32 0)) (gives 0xFFFFFFFF#32 true false true false)) = true
    := by decide
theorem test_rotl_imm_eight :
    after (exec (.rotlImm .r0 8 .r2) (pair 0x12345678#32 0#32 2)) (gives 0x34567812#32 false false false false) = true := by
  decide
theorem test_rotl_reg_whole_turn :
    after (exec (.rotlReg .r0 .r1 .r2) (pair 0x80000001#32 32#32 0)) (gives 0x80000001#32 true false true false) = true := by
  decide
theorem test_rotr_imm_one :
    after (exec (.rotrImm .r0 1 .r2) (pair 0x80000001#32 0#32 0)) (gives 0xC0000000#32 true false true false) = true := by
  decide
theorem test_rotr_reg_largest_count :
    after (exec (.rotrReg .r0 .r1 .r2) (pair 0x80000001#32 0xFFFFFFFF#32 2)) (gives 3#32 false false false false) = true :=
  by decide

/-- Count zero: the operand, V = 0, N and Z of the operand; nothing is said of C. -/
theorem test_shift_by_zero : ∃ t, exec (.shlReg .r0 .r1 .r2) (pair 0x80000001#32 0#32 4) = .next t ∧
    t.getReg .r2 = 0x80000001#32 ∧ t.flagV = false ∧ t.flagN = true ∧ t.flagZ = false := by
  obtain ⟨h1, ⟨c, h2, -⟩, -⟩ := State.putShift_spec (pair 0x80000001#32 0#32 4) .shl 0x80000001#32 0#32 .r2
  exact ⟨_, rfl, h1 .r2, congrArg Flags.v h2, congrArg Flags.n h2, congrArg Flags.z h2⟩

/-! ### MOVE (section 2.7) -/

theorem test_move_reg :
    after (exec (.moveReg .r0 .r2) (pair 0xCAFEBABE#32 0#32 0x1F)) (fun t => decide (t.getReg .r2 = 0xCAFEBABE#32 ∧ t.sr = 0x1F))
      = true := by decide
theorem test_move_imm :
    after (exec (.moveImm (-0x80000) .r2) (pair 0#32 0#32 0x05)) (fun t => decide (t.getReg .r2 = 0xFFF80000#32 ∧ t.sr = 0x05))
      = true := by decide
theorem test_move_from_sr :
    after (exec (.moveFromSr .r2) (pair 0#32 0#32 0xB5)) (fun t => decide (t.getReg .r2 = 0xB5#32 ∧ t.sr = 0xB5)) = true := by
  decide
theorem test_move_to_sr_reg :
    after (exec (.moveToSrReg .r0) (pair 0xFFFFFF0A#32 0#32 0x15))
      (fun t => decide (t.flags = ⟨false, true, false, true⟩ ∧ t.gie = false ∧ t.sr = 0x0A)) = true := by decide
theorem test_move_to_sr_imm :
    after (exec (.moveToSrImm 0x10) (pair 0#32 0#32 0x0F))
      (fun t => decide (t.flags = ⟨false, false, false, false⟩ ∧ t.gie = true ∧ t.iif = true)) = true := by decide

/-! ### Loads and stores (section 2.8) -/

theorem test_load_abs_unaligned :
    after (exec (.loadAbs .r0 0x1002) bytes1000) (fun t => decide (t.getReg .r0 = 0x11223344#32)) = true := by decide
theorem test_load_off_old_base :
    after (exec (.loadOff .r1 .r1 4) (bytes1000.setReg .r1 0x1000#32)) (fun t => decide (t.getReg .r1 = 0x55667788#32))
      = true := by decide
theorem test_loadh_abs_unaligned :
    after (exec (.loadhAbs .r0 0x1003) bytes1000) (fun t => decide (t.getReg .r0 = 0x1122#32)) = true := by decide
theorem test_loadh_off :
    after (exec (.loadhOff .r0 .r1 (-2)) (bytes1000.setReg .r1 0x1006#32)) (fun t => decide (t.getReg .r0 = 0x7788#32))
      = true := by decide
theorem test_loadb_abs_zero_extends :
    after (exec (.loadbAbs .r0 0x1004) bytes1000) (fun t => decide (t.getReg .r0 = 0x88#32)) = true := by decide
theorem test_loadb_off_wraps :
    after (exec (.loadbOff .r0 .r1 0x1007) (bytes1000.setReg .r1 0xFFFFFFFC#32)) (fun t => decide (t.getReg .r0 = 0x11#32))
      = true := by decide
theorem test_store_abs_unaligned :
    after (exec (.storeAbs .r0 0x1001) (bytes1000.setReg .r0 0xAABBCCDD#32))
      (fun t => decide (wordAt t 0x1000#32 = 0xAABBCCDD#32 ∧ wordAt t 0x1004#32 = 0x55667788#32)) = true := by decide
theorem test_store_off :
    after (exec (.storeOff .r0 .r1 0) ((bytes1000.setReg .r0 0x11223344#32).setReg .r1 0x1004#32))
      (fun t => decide (t.byteAt 0x1004#32 = 0x44#8 ∧ t.byteAt 0x1007#32 = 0x11#8)) = true := by decide
theorem test_storeh_abs :
    after (exec (.storehAbs .r0 0x1002) (bytes1000.setReg .r0 0xAABBCCDD#32))
      (fun t => decide (wordAt t 0x1000#32 = 0xCCDD3344#32)) = true := by decide
theorem test_storeh_off :
    after (exec (.storehOff .r0 .r1 3) ((bytes1000.setReg .r0 0xAABBCCDD#32).setReg .r1 0x1000#32))
      (fun t => decide (wordAt t 0x1000#32 = 0xCCDD3344#32)) = true := by decide
theorem test_storeb_abs :
    after (exec (.storebAbs .r0 0x1001) (bytes1000.setReg .r0 0xAABBCCDD#32))
      (fun t => decide (wordAt t 0x1000#32 = 0x1122DD44#32)) = true := by decide
theorem test_storeb_off :
    after (exec (.storebOff .r0 .r1 1) ((bytes1000.setReg .r0 0x100#32).setReg .r1 0x1004#32))
      (fun t => decide (wordAt t 0x1004#32 = 0x55660088#32)) = true := by decide

/-! ### The stack (section 2.9) -/

theorem test_push :
    after (exec (.push .r0) (machine.setReg .r0 0xDEADBEEF#32))
      (fun t => decide (t.getReg .r7 = 0xFFFC#32 ∧ t.byteAt 0xFFFC#32 = 0xEF#8 ∧ t.byteAt 0xFFFF#32 = 0xDE#8)) = true := by
  decide
theorem test_push_r7 :
    after (exec (.push .r7) machine) (fun t => decide (t.getReg .r7 = 0xFFFC#32 ∧ wordAt t 0xFFFC#32 = 0xFFFC#32)) = true := by
  decide
theorem test_pop :
    after (exec (.pop .r1) (poke (machine.setReg .r7 0xFFFC#32) 0xFFFC#32 0xDEADBEEF#32))
      (fun t => decide (t.getReg .r7 = 0x10000#32 ∧ t.getReg .r1 = 0xDEADBEEF#32)) = true := by decide
theorem test_pop_r7 :
    after (exec (.pop .r7) (poke (machine.setReg .r7 0xFFFC#32) 0xFFFC#32 0x2000#32))
      (fun t => decide (t.getReg .r7 = 0x2004#32)) = true := by decide

/-! ### Control (section 2.10; PC is already the address of the next instruction) -/

theorem test_jp_abs :
    after (exec (.jpAbs .always (-0x10000)) (machine.setPc 0x24#32)) (fun t => decide (t.pc = 0xFFFF0000#32)) = true := by
  decide
theorem test_jp_abs_not_taken :
    after (exec (.jpAbs .z 0x40) (machine.setPc 0x24#32)) (fun t => decide (t.pc = 0x24#32)) = true := by decide
theorem test_jp_reg :
    after (exec (.jpReg .always .r3) (machine.setReg .r3 0x1236#32)) (fun t => decide (t.pc = 0x1236#32)) = true := by decide
theorem test_jr_backward :
    after (exec (.jr .c (-8)) { machine with pc := 0x1008#32, sr := 2 }) (fun t => decide (t.pc = 0x1000#32)) = true := by
  decide
theorem test_jr_not_taken :
    after (exec (.jr .c (-8)) { machine with pc := 0x1008#32, sr := 0 }) (fun t => decide (t.pc = 0x1008#32)) = true := by
  decide
theorem test_call_abs :
    after (exec (.callAbs .always 0x200) (machine.setPc 0x10#32))
      (fun t => decide (t.pc = 0x200#32 ∧ t.getReg .r7 = 0xFFFC#32 ∧ wordAt t 0xFFFC#32 = 0x10#32)) = true := by decide
theorem test_call_reg :
    after (exec (.callReg .always .r1) ((machine.setReg .r1 0x300#32).setPc 0x10#32))
      (fun t => decide (t.pc = 0x300#32 ∧ t.getReg .r7 = 0xFFFC#32 ∧ wordAt t 0xFFFC#32 = 0x10#32)) = true := by decide
theorem test_call_reg_r7 :
    after (exec (.callReg .always .r7) (machine.setPc 0x10#32)) (fun t => decide (t.pc = 0xFFFC#32)) = true := by decide

/-- R7 = FFFC, the word 38 there, GIE = 0, IIF = 0. -/
def inHandler : State := { poke (machine.setReg .r7 0xFFFC#32) 0xFFFC#32 0x38#32 with iif := false, pc := 0x210#32 }

theorem test_ret :
    after (exec (.ret .always) inHandler)
      (fun t => decide (t.pc = 0x38#32 ∧ t.getReg .r7 = 0x10000#32 ∧ t.gie = false ∧ t.iif = false)) = true := by decide
theorem test_reti :
    after (exec (.reti .always) inHandler)
      (fun t => decide (t.pc = 0x38#32 ∧ t.getReg .r7 = 0x10000#32 ∧ t.gie = true ∧ t.iif = false)) = true := by decide
theorem test_retn :
    after (exec (.retn .always) inHandler)
      (fun t => decide (t.pc = 0x38#32 ∧ t.getReg .r7 = 0x10000#32 ∧ t.gie = false ∧ t.iif = true)) = true := by decide
theorem test_halt :
    after (exec (.halt .ugt) { machine with sr := 2 }) (fun t => t.halted) = true ∧
      after (exec (.halt .ugt) { machine with sr := 0x0A }) (fun t => !t.halted) = true := by decide

/-- Rows 0101, 1010 and 1101 of section 2.11 (N C V Z). -/
theorem test_conditions :
    (let truths (f : Flags) : List Bool :=
      [f.holds .n, f.holds .nn, f.holds .c, f.holds .nc, f.holds .v, f.holds .nv, f.holds .z, f.holds .nz, f.holds .ule,
        f.holds .ugt, f.holds .slt, f.holds .sle, f.holds .sge, f.holds .sgt]
     truths ⟨false, true, false, true⟩ =
        [false, true, true, false, false, true, true, false, true, false, false, true, true, false] ∧
     truths ⟨true, false, true, false⟩ =
        [true, false, false, true, true, false, false, true, true, false, false, false, true, true] ∧
     truths ⟨true, true, false, true⟩ =
        [true, false, true, false, false, true, true, false, true, false, true, true, false, false]) := by decide

/-! ### Units (section 2.13) -/

theorem test_ct_registers :
    (after (exec (.storeAbs .r0 (-0x10000)) (machine.setReg .r0 0xFFFFFFFF#32))
        (fun t => decide ((t.cts.map Ct.cr) = [7#3])) &&
      after (exec (.storeAbs .r0 (-0xFFFC)) (machine.setReg .r0 0x00010005#32))
        (fun t => decide (t.cts.map (fun u => (u.lr, u.dc)) = [(5#16, 5#16)]))) = true := by decide
theorem test_pio_registers :
    (after (exec (.storeAbs .r0 (-0xF000)) (machine.setReg .r0 0xFFFFFFFF#32))
        (fun t => after (exec (.loadAbs .r1 (-0xF000)) t) (fun u => decide (u.getReg .r1 = 0x00FFFF1F#32))) &&
      after (exec (.storeAbs .r0 (-0xEFFC)) (machine.setReg .r0 0x1AB#32)) (fun t => decide (t.pios.map Pio.dr = [0xAB#8])))
      = true := by decide
theorem test_dma_control :
    after (exec (.storeAbs .r0 (-0xDFF4)) (machine.setReg .r0 0xFFFFFFFF#32))
      (fun t => after (exec (.loadAbs .r1 (-0xDFF4)) t) (fun u => decide (u.getReg .r1 = 0xF#32))) = true := by decide
theorem test_narrow_access_faults :
    faultsWith (exec (.loadbAbs .r0 (-0x10000)) machine) (.narrowDeviceAccess 0xFFFF0000#32) = true := by decide

/-- The table of lines of section 2.13: MASK = 0F, ACTIVE = 05. -/
theorem test_bit_test_condition :
    (let u (c : BitVec 5) : Pio := ⟨0, 0x05#8, 0x0F#8, c, 0, 0, false, false, false⟩
     [0x05#8, 0x04#8, 0x0A#8, 0x0F#8].map (u 0b10011#5).testCondition = [some true, some false, some false, some false] ∧
     [0x05#8, 0xF4#8, 0x0A#8, 0x0F#8].map (u 0b00011#5).testCondition = [some true, some true, some false, some true]) := by
  decide

/-- Lines 05 then 0A, AND: with the flip-flop set by the condition DR still reads 05; without it, 0A (R243). -/
theorem test_bit_test_read :
    [true, false].map (fun st => ((tester st).input 0 0x0A false).1.read 1) = [some 5#32, some 0xA#32] := by decide
/-- MASK = 0 in bit-testing mode: the port is unconstrained after a test (U9). -/
theorem test_bit_test_no_mask : ({ tester false with mask := 0 }.input 0 0x05 false).1.wild = true := by decide
/-- Acknowledgement clears each unit's flip-flop; CT and PIO then wait for the end-of-service notice (R236). -/
theorem test_acknowledge :
    (after (exec (.storeAbs .r0 (-0xFFF8)) finished)
        (fun t => decide (t.cts.map (fun u => (u.status, u.waitEos)) = [(false, true)])) &&
      after (exec (.storeAbs .r0 (-0xEFF8)) finished)
        (fun t => decide (t.pios.map (fun u => (u.status, u.waitEos)) = [(false, true)])) &&
      after (exec (.storeAbs .r0 (-0xDFEC)) finished) (fun t => decide (t.dmas.map Dma.status = [false]))) = true := by
  decide

/-! ### Steps (sections 2.12, 2.13 and rule R25) -/

/-- The word at 8 is 100; a requesting FRISC-CT of the given kind. -/
def requesting (nonMaskable : Bool) : State :=
  { poke machine 8#32 0x100#32 with
    cts := [⟨0xFFFF0000#32, if nonMaskable then 7 else 3, 3, 3, true, false, false⟩]
    sr := 0x1F }

/-- Both requests: a maskable FRISC-CT and a non-maskable FRISC-PIO. -/
def requestingBoth : State :=
  { requesting false with pios := [⟨0xFFFF1000#32, 0, 0, 0b01101, 0, 0, true, false, false⟩] }

theorem test_step_runs_instruction :
    after (step (poke machine 0x38#32 0x24000007#32)) (fun t => decide (t.getReg .r0 = 7#32 ∧ t.pc = 0x3C#32)) = true := by
  decide
theorem test_step_unaligned_pc :
    after (step { poke machine 0x1234#32 0x24000007#32 with pc := 0x1236#32 })
      (fun t => decide (t.getReg .r0 = 7#32 ∧ t.pc = 0x123A#32)) = true := by decide
theorem test_step_undefined_word :
    faultsWith (step (poke machine 0x38#32 0x70000000#32)) (.undefinedInstruction .reservedOpcode) = true := by decide
theorem test_step_maskable_entry :
    after (step (requesting false))
      (fun t => decide (t.pc = 0x100#32 ∧ t.sr = 0x0F ∧ t.iif = true ∧ t.getReg .r7 = 0xFFFC#32 ∧ wordAt t 0xFFFC#32 = 0x38#32))
      = true := by decide
theorem test_step_maskable_forbidden :
    after (step { poke (requesting false) 0x38#32 0#32 with sr := 0x0F }) (fun t => decide (t.pc = 0x3C#32 ∧ t.getReg .r7 = 0x10000#32))
      = true := by decide
theorem test_step_non_maskable_entry :
    after (step (requesting true))
      (fun t => decide (t.pc = 0x0C#32 ∧ t.sr = 0x1F ∧ t.iif = false ∧ t.getReg .r7 = 0xFFFC#32 ∧ wordAt t 0xFFFC#32 = 0x38#32))
      = true := by decide
theorem test_step_non_maskable_forbidden :
    after (step { poke (requesting true) 0x38#32 0#32 with iif := false }) (fun t => decide (t.pc = 0x3C#32)) = true := by
  decide
theorem test_step_both_requests :
    after (step requestingBoth) (fun t => decide (t.pc = 0x0C#32 ∧ t.iif = false) && after (step t) (fun u =>
      decide (u.pc = 0x100#32 ∧ u.gie = false ∧ u.getReg .r7 = 0xFFF8#32 ∧ wordAt u 0xFFF8#32 = 0x0C#32))) = true := by decide
theorem test_step_request_held_until_eos :
    (machine.intRequest || { machine with cts := [⟨0xFFFF0000#32, 3, 3, 3, true, true, false⟩] }.intRequest) = false := by
  decide
theorem test_step_halted :
    after (step { requesting false with halted := true }) (fun t => decide (t.pc = 0x38#32 ∧ t.halted = true)) = true := by
  decide
theorem test_step_dma_overlap_is_open :
    after (exec (.storeAbs .r0 (-0xDFF0)) { machine with dmas := [⟨0xFFFF2000#32, 0x1000#32, 0x1004#32, 2, 0, false, false, false, false⟩] })
      (fun t => decide (t.dmas.map Dma.wild = [true])) = true := by decide

/-- The transfer of section 2.13 after its start: two words from 1000 to 2000, halting mode. -/
def transferring : State :=
  { bytes1000 with dmas := [⟨0xFFFF2000#32, 0x1000#32, 0x2000#32, 2, 0, false, true, false, false⟩] }

theorem test_step_dma_transfer :
    after (Host.Core.run Sys2Proof.core 2 transferring) (fun t =>
      decide (wordAt t 0x2000#32 = 0x11223344#32 ∧ wordAt t 0x2004#32 = 0x55667788#32 ∧ t.pc = 0x38#32) &&
      decide (t.dmas = [⟨0xFFFF2000#32, 0x1008#32, 0x2008#32, 0, 0, true, false, false, false⟩])) = true := by decide
theorem test_withFetchWord_runs_first :
    after (step (State.reset.withFetchWord 32 0x04000007)) (fun t => decide (t.getReg .r0 = 7#32 ∧ t.pc = 4#32)) = true := by
  decide

/-! ### Witnesses: the hypotheses of the statements can be met -/

theorem witness_DecodeOfEncodedBytes :
    (Instr.addImm .r1 524287 .r2).wellFormed = true ∧ (Instr.jr .sgt (-524288)).wellFormed = true := by decide
theorem witness_DecodedWordIsItsEncoding : decodeWord 0xFA800000#32 = .ok (.halt .ugt) := rfl
theorem witness_ReservedPatternsAreRejected :
    (fieldOp 0x70000000#32).toNat ∈ [14, 15, 28, 29, 30] ∧
    ((fieldOp 0xDBC00000#32).toNat ∈ [24, 25, 26, 27, 31] ∧ BitVec.extractLsb' 22 4 0xDBC00000#32 = 15#4) ∧
    ((fieldOp 0xD8000002#32).toNat = 27 ∧ BitVec.extractLsb' 0 2 0xD8000002#32 = 2#2) ∧
    ((fieldOp 0x00300000#32).toNat = 0 ∧ BitVec.extractLsb' 20 2 0x00300000#32 = 3#2) ∧
    ((fieldOp 0x04200000#32).toNat = 0 ∧ BitVec.extractLsb' 21 1 0x04200000#32 = 1#1 ∧
      BitVec.extractLsb' 26 1 0x04200000#32 = 1#1) ∧
    ((fieldOp 0xD0000000#32).toNat = 26 ∧ BitVec.extractLsb' 26 1 0xD0000000#32 = 0#1) ∧
    ((fieldOp 0x8C000000#32).toNat ∈ [16, 17] ∧ BitVec.extractLsb' 26 1 0x8C000000#32 = 1#1) ∧
    ((fieldOp 0x68800000#32).toNat = 13 ∧ BitVec.extractLsb' 23 3 0x68800000#32 ≠ 0#3) := by decide
theorem witness_AddressesWrapAndAlign : fits20 524287 = true ∧ fits20 (-524288) = true := by decide
theorem witness_AssembledJrReachesItsTarget :
    assembleJr .always 0x1000 (0x1004 + 524287) = some (.jr .always 524287) ∧
    (machine.setPc 0x1004#32).pc = BitVec.ofNat 32 (0x1000 + 4) ∧ (machine.setPc 0x1004#32).cond .always = true := by decide
theorem witness_StepRunsTheDecodedInstruction :
    let s := poke machine 0x38#32 0x20060000#32
    s.ProcessorFree s ∧ s.pendingInterrupt s.boundary.hold = none ∧ s.memoryBacked (align s.pc .word) .word = true ∧
    decodeBytes [s.byteAt (align s.pc .word), s.byteAt (align s.pc .word + 1#32), s.byteAt (align s.pc .word + 2#32),
      s.byteAt (align s.pc .word + 3#32)] = .ok (.addReg .r0 .r3 .r0) :=
  ⟨⟨rfl, by decide, rfl⟩, by decide, by decide, rfl⟩
theorem witness_UndefinedWordFaults :
    let s := poke machine 0x38#32 0x70000000#32
    s.ProcessorFree s ∧ s.pendingInterrupt s.boundary.hold = none ∧ s.memoryBacked (align s.pc .word) .word = true ∧
    decodeBytes [s.byteAt (align s.pc .word), s.byteAt (align s.pc .word + 1#32), s.byteAt (align s.pc .word + 2#32),
      s.byteAt (align s.pc .word + 3#32)] = .error .reservedOpcode :=
  ⟨⟨rfl, by decide, rfl⟩, by decide, by decide, rfl⟩
theorem witness_AddThenAdcIsLongAddition : Reg.r4 ≠ Reg.r1 ∧ Reg.r4 ≠ Reg.r3 ∧ Reg.r4 ≠ Reg.r5 := by decide
theorem witness_SubThenSbcLongSubtraction : Reg.r4 ≠ Reg.r1 ∧ Reg.r4 ≠ Reg.r3 ∧ Reg.r4 ≠ Reg.r5 := by decide
theorem witness_ShiftClosedFormsEqualSteps :
    (shiftSteps .ashr 0x80000001#32 1).2 = some (shiftExit .ashr 0x80000001#32 1) := by decide
theorem witness_MoveWritesSr :
    (∃ b, (machine.setReg .r3 0xFF#32).getReg b = 0xFF#32) ∧ ∃ k, sext20 k = 0x1F#32 :=
  ⟨⟨.r3, by decide⟩, ⟨0x1F, by decide⟩⟩
theorem witness_LoadsReadMemory :
    machine.memoryBacked (align (eaAbs 524287) .word) .word = true ∧
    machine.memoryBacked (align (machine.eaOff .r7 (-524288)) .half) .half = true ∧
    machine.memoryBacked (align 0xFFFFFFFF#32 .byte) .byte = true := by decide
theorem witness_StoresWriteMemory :
    machine.memoryBacked (align (eaAbs (-1)) .word) .word = true ∧
    machine.memoryBacked (align (eaAbs (-1)) .half) .half = true ∧
    machine.memoryBacked (align (machine.eaOff .r0 0) .byte) .byte = true := by decide
theorem witness_OnlyMeaninglessAccessesStop :
    let s := { machine with params := ⟨[⟨0, 0x1000⟩], true, true, false⟩ }
    memoryAccess s (.callAbs .z 0) = none ∧
    (memoryAccess s (.loadhAbs .r0 0xFFF) = some (0xFFF#32, .half) ∧ s.memoryBacked (align 0xFFF#32 .half) .half = true) ∧
    (memoryAccess s (.loadAbs .r0 (-0x10000)) = some (0xFFFF0000#32, .word) ∧
      (s.target (align 0xFFFF0000#32 .word)).isUnit = true) ∧
    (memoryAccess s (.push .r0) = some (0xFFFC#32, .word) ∧ s.memoryBacked (align 0xFFFC#32 .word) .word = false ∧
      (s.target (align 0xFFFC#32 .word)).isUnit = false) ∧
    (let s := { machine with params := ⟨[⟨0, 0x1002⟩], true, true, false⟩ }
     memoryAccess s (.loadAbs .r0 0x1000) = some (0x1000#32, .word) ∧ s.target (align 0x1000#32 .word) = .memory ∧
       s.memoryBacked (align 0x1000#32 .word) .word = false ∧ (s.target (align 0x1000#32 .word)).isUnit = false) ∧
    (memoryAccess s (.storebAbs .r0 (-0xDFE9)) = some (0xFFFF2017#32, .byte) ∧
      (s.target (align 0xFFFF2017#32 .byte)).isUnit = true) := by decide
theorem witness_LoadReadsUnitRegisters :
    (machine.target (align (eaAbs (-0x10000)) .word) = .ct 0 ⟨0xFFFF0000#32, 0, 3, 3, false, false, false⟩ ∧
      machine.target (align (eaAbs (-0xFFFC)) .word) = .ct 0 ⟨0xFFFF0000#32, 0, 3, 3, false, false, false⟩ ∧
      machine.target (align (eaAbs (-0xFFF8)) .word) = .ct 0 ⟨0xFFFF0000#32, 0, 3, 3, false, false, false⟩) ∧
    (machine.target (align (eaAbs (-0xF000)) .word) = .pio 0 ⟨0xFFFF1000#32, 0, 0, 0, 0, 0, false, false, false⟩ ∧
      machine.target (align (eaAbs (-0xEFF8)) .word) = .pio 0 ⟨0xFFFF1000#32, 0, 0, 0, 0, 0, false, false, false⟩) ∧
    (machine.target (align (eaAbs (-0xE000)) .word) = .dma 0 ⟨0xFFFF2000#32, 0, 0, 0, 0, false, false, false, false⟩ ∧
      machine.target (align (eaAbs (-0xDFE9)) .word) = .dma 0 ⟨0xFFFF2000#32, 0, 0, 0, 0, false, false, false, false⟩) := by
  decide
theorem witness_StoreWritesUnitRegisters :
    (machine.target (align (eaAbs (-0xFFF4)) .word) = .ct 0 ⟨0xFFFF0000#32, 0, 3, 3, false, false, false⟩ ∧
      align (eaAbs (-0xFFF4)) .word - 0xFFFF0000#32 = 12#32 ∧ BitVec.getLsbD (0 : BitVec 3) 0 = false) ∧
    (machine.target (align (eaAbs (-0xEFF4)) .word) = .pio 0 ⟨0xFFFF1000#32, 0, 0, 0, 0, 0, false, false, false⟩ ∧
      align (eaAbs (-0xEFF4)) .word - 0xFFFF1000#32 = 12#32) ∧
    (let u : Dma := ⟨0xFFFF2000#32, 0x1000#32, 0x2000#32, 2, 0, false, false, false, false⟩
     let s := { machine with dmas := [u] }
     s.target (align (eaAbs (-0xDFF0)) .word) = .dma 0 u ∧ align (eaAbs (-0xDFF0)) .word - u.base = 16#32 ∧
       u.busy = false ∧ u.cnt ≠ 0#32 ∧ u.overlaps = false) ∧
    (∃ u, finished.target (align (eaAbs (-0xFFF8)) .word) = .ct 0 u ∧ align (eaAbs (-0xFFF8)) .word - u.base = 8#32 ∧
      u.status = true ∧ u.cr.getLsbD 1 = true) ∧
    (∃ u, finished.target (align (eaAbs (-0xEFF8)) .word) = .pio 0 u ∧ align (eaAbs (-0xEFF8)) .word - u.base = 8#32 ∧
      u.status = true ∧ u.ctl.getLsbD 2 = true) ∧
    (∃ u, finished.target (align (eaAbs (-0xDFEC)) .word) = .dma 0 u ∧ align (eaAbs (-0xDFEC)) .word - u.base = 20#32 ∧
      u.status = true) := by
  refine ⟨by decide, by decide, by decide, ⟨_, rfl, by decide⟩, ⟨_, rfl, by decide⟩, ⟨_, rfl, by decide⟩⟩
theorem witness_PushStoresBelowTheStack :
    machine.memoryBacked (align (machine.getReg .r7 - 4#32) .word) .word = true ∧
    (let s := machine.setReg .r7 0#32; s.memoryBacked (align (s.getReg .r7 - 4#32) .word) .word = true) := by decide
theorem witness_PopLoadsTheTopOfTheStack : machine.memoryBacked (align (machine.getReg .r7) .word) .word = true := by decide
theorem witness_StackOperationsUndoEachOther :
    machine.memoryBacked (align (machine.getReg .r7 - 4#32) .word) .word = true ∧ machine.cond .always = true ∧
      machine.cond .nz = true ∧ (∃ r, Instr.callReg .nz .r7 = .callReg .nz r) := ⟨by decide, by decide, by decide, .r7, rfl⟩
theorem witness_FalseConditionDoesNothing : machine.cond .sgt = true ∧ machine.cond .z = false := by decide
theorem witness_RelativeJumpAddsItsOffset :
    machine.cond .always = true ∧ fits20 (-524288) = true ∧ fits20 524287 = true := by decide
theorem witness_TakenCallsPushTheReturnAddress :
    machine.cond .nz = true ∧ machine.memoryBacked (align (machine.getReg .r7 - 4#32) .word) .word = true := by decide
theorem witness_TakenReturnsPopPc :
    inHandler.cond .sge = true ∧ inHandler.memoryBacked (align (inHandler.getReg .r7) .word) .word = true := by decide
theorem witness_TakenHaltStops : machine.cond .ule = true := by decide
theorem witness_NonMaskableEntry :
    let s := requesting true
    s.ProcessorFree s ∧ s.boundary.hold = false ∧ s.nmiRequest = true ∧ s.iif = true ∧
      s.memoryBacked (align (s.getReg .r7 - 4#32) .word) .word = true :=
  ⟨⟨rfl, by decide, rfl⟩, rfl, by decide, rfl, by decide⟩
theorem witness_MaskableEntry :
    let s := requesting false
    s.ProcessorFree s ∧ s.boundary.hold = false ∧ ¬(s.nmiRequest = true ∧ s.iif = true) ∧ s.intRequest = true ∧
      s.gie = true ∧ (s.params.iifBlocks = true → s.iif = true) ∧
      s.memoryBacked (align (s.getReg .r7 - 4#32) .word) .word = true ∧ s.memoryBacked 8#32 .word = true :=
  ⟨⟨rfl, by decide, rfl⟩, rfl, by decide, by decide, by decide, by decide, by decide, by decide⟩
theorem witness_NonMaskableFirstThenMaskable :
    let s := requestingBoth
    s.inputs = [] ∧ s.dmaHolds = false ∧ s.halted = false ∧ s.nmiRequest = true ∧ s.iif = true ∧ s.intRequest = true ∧
      s.gie = true ∧ s.params.iifBlocks = false ∧ s.memoryBacked (align (s.getReg .r7 - 4#32) .word) .word = true ∧
      s.memoryBacked (align (s.getReg .r7 - 8#32) .word) .word = true ∧ s.memoryBacked 8#32 .word = true := by decide
theorem witness_ReturnUndoesEntry :
    let s := requestingBoth
    s.memoryBacked (align (s.getReg .r7 - 4#32) .word) .word = true ∧
    ((∃ t, s.takeInterrupt .maskable = .ok t) ∧ s.gie = true) ∧
    ((∃ t, s.takeInterrupt .nonMaskable = .ok t) ∧ s.iif = true) :=
  ⟨by decide, ⟨⟨_, rfl⟩, by decide⟩, ⟨⟨_, rfl⟩, rfl⟩⟩
theorem witness_RegistersChangeOnlyAsListed :
    ∃ t, exec (.pop .r1) machine = .next t ∧ Reg.r0 ∉ regsWritten (.pop .r1) := ⟨_, rfl, by decide⟩
theorem witness_FlagsChangeOnlyAsListed :
    ∃ t, exec (.reti .always) machine = .next t ∧ writesFlags (.reti .always) = false := ⟨_, rfl, rfl⟩
theorem witness_MemoryChangesOnlyByStores :
    ∃ t, exec (.loadAbs .r0 (-0x10000)) machine = .next t ∧ storesMemory (.loadAbs .r0 (-0x10000)) = false := ⟨_, rfl, rfl⟩
theorem witness_OnlyRetnSetsIif :
    let s := poke { inHandler with pc := 0x210#32 } 0x210#32 0xD8000003#32
    ∃ t, step s = .next t ∧ s.iif = false ∧ t.iif = true := by
  obtain ⟨t, h, e⟩ := next_of_after (p := State.iif)
    (show after (step (poke { inHandler with pc := 0x210#32 } 0x210#32 0xD8000003#32)) State.iif = true by decide)
  exact ⟨t, h, rfl, e⟩
theorem witness_OnlyRetiAndMoveSetGie :
    let s := poke machine 0x38#32 0x04100010#32
    ∃ t, step s = .next t ∧ s.gie = false ∧ t.gie = true := by
  obtain ⟨t, h, e⟩ := next_of_after (p := State.gie)
    (show after (step (poke machine 0x38#32 0x04100010#32)) State.gie = true by decide)
  exact ⟨t, h, by decide, e⟩
theorem witness_HaltedProcessorStandsStill :
    ∃ t, ({ machine with halted := true } : State).halted = true ∧ step { machine with halted := true } = .next t :=
  ⟨_, rfl, rfl⟩
theorem witness_HaltingDmaStopsTheProcessor :
    ∃ s1 t, transferring.afterBoundary = .ok s1 ∧ s1.dmaHolds = true ∧ step transferring = .next t := by
  obtain ⟨t, h, -⟩ := next_of_after (p := fun _ => true) (show after (step transferring) (fun _ => true) = true by decide)
  exact ⟨transferring, t, rfl, by decide, h⟩
theorem witness_PlatformNeverChanges : ∃ t, step (requesting true) = .next t := by
  obtain ⟨t, h, -⟩ := next_of_after (p := fun _ => true) (show after (step (requesting true)) (fun _ => true) = true by decide)
  exact ⟨t, h⟩
theorem witness_EveryStepKeepsTheInvariant :
    ∃ t, (poke machine 0x38#32 0xB8000110#32).Inv ∧ step (poke machine 0x38#32 0xB8000110#32) = .next t := by
  obtain ⟨t, h, -⟩ := next_of_after (p := fun _ => true)
    (show after (step (poke machine 0x38#32 0xB8000110#32)) (fun _ => true) = true by decide)
  exact ⟨t, ⟨by decide, by decide⟩, h⟩
theorem witness_CounterFiresOnceEveryLrPulses :
    (let u : Ct := ⟨0xFFFF0000#32, 1, 3, 3, false, false, false⟩
     { machine with cts := [u] }.cts[0]? = some u ∧ u.lr ≠ 0#16 ∧ u.dc = u.lr ∧ 3 ≤ u.lr.toNat ∧ u.cr.getLsbD 0 = true) ∧
    (let u : Ct := ⟨0xFFFF0000#32, 0, 3, 3, false, false, false⟩
     machine.cts[0]? = some u ∧ u.lr ≠ 0#16 ∧ u.dc = u.lr ∧ 0 ≤ u.lr.toNat ∧ u.cr.getLsbD 0 = false) := by decide
/-- In both tests 05 satisfies the condition; 0A satisfies neither (section 2.13). -/
theorem witness_TestedByteSatisfiesTheCondition :
    (testing true).pios[0]? = some (tester true) ∧ (tester true).ctl.extractLsb' 0 2 = 3#2 ∧ (tester true).mask ≠ 0#8 ∧
      (tester true).status = true ∧ (tester true).ConditionHolds (tester true).lines ∧
      (∀ e ∈ [Event.pioInput 0 0x0A true, .ctPulse 0], (∀ k, e ≠ .dmaDatum k) ∧ ∀ k v, e ≠ .pioWild k v) := by
  refine ⟨rfl, by decide, by decide, by decide, by unfold Pio.ConditionHolds; decide, ?_⟩
  simp
theorem witness_PortEventsFollowTheMode :
    [0b00000#5, 0b00001#5, 0b00010#5, 0b00011#5].map (BitVec.extractLsb' 0 2) = [0#2, 1#2, 2#2, 3#2] ∧
      machine.pios[0]? = some ⟨0xFFFF1000#32, 0, 0, 0, 0, 0, false, false, false⟩ := by decide
theorem witness_BitTestSetsStatus :
    ((testing false).pios[0]? = some (tester false) ∧ (tester false).ctl.extractLsb' 0 2 = 3#2 ∧
      (tester false).mask ≠ 0#8) ∧
    (tester true).status = true ∧ (tester true).ConditionHolds (tester true).lines ∧
      (tester true).ConditionHolds 0xF5 ∧ ¬(tester true).ConditionHolds 0x0A := by
  unfold Pio.ConditionHolds; decide
theorem witness_DmaMovesOneDatum :
    let u : Dma := ⟨0xFFFF2000#32, 0x1000#32, 0x2000#32, 2, 0, false, true, false, false⟩
    transferring.dmas[0]? = some u ∧ u.busy = true ∧ transferring.memoryBacked (align u.src .word) .word = true ∧
      transferring.memoryBacked (align u.dst .word) .word = true := by decide
theorem witness_HaltingTransferCopiesEveryWord :
    let u : Dma := ⟨0xFFFF2000#32, 0x1000#32, 0x2000#32, 2, 0, false, true, false, false⟩
    transferring.dmas = [u] ∧ transferring.inputs = [] ∧ u.busy = true ∧ u.cnt.toNat = 2 ∧ 0 < 2 ∧
      u.cr.getLsbD 1 = false ∧ u.cr.getLsbD 2 = false ∧ u.cr.getLsbD 3 = false ∧ u.overlaps = false ∧
      (∀ j, j < 2 → transferring.memoryBacked (align u.src .word + BitVec.ofNat 32 (4 * j)) .word = true ∧
        transferring.memoryBacked (align u.dst .word + BitVec.ofNat 32 (4 * j)) .word = true) := by decide

end Sys2Proof.Machine.Test
end

/-! SUPPORT. ADD, ADC, SUB, CMP, AND, OR and XOR (40_alu.md R120 to R131): the frame of writing a result with its
flags, what `addFlags`, `subFlags` and `logicFlags` compute in the words of the statements, and the statements. -/

namespace Sys2Proof.Machine

/-! ### What the two updates leave unchanged -/

/-- The frame of an instruction that writes the flags alone. -/
theorem aluFrame_setFlags (s : State) (f : Flags) : aluFrame [] s (s.setFlags f) := by
  refine ⟨?regs, ?upperSr, ⟨rfl, rfl, rfl, rfl⟩, ?memory, ⟨rfl, rfl, rfl⟩, rfl⟩
  case regs => exact fun r _ => State.setFlags_getReg s f r
  case upperSr => exact srWithFlags_upper s.sr f
  case memory => exact fun a => State.setFlags_byteAt s f a

/-- The frame of an instruction that writes one register and the flags. -/
theorem aluFrame_putResult (s : State) (d : Reg) (x : Word × Flags) : aluFrame [d] s (s.putResult d x) := by
  refine ⟨?regs, ?upperSr, ⟨rfl, rfl, rfl, rfl⟩, ?memory, ⟨rfl, rfl, rfl⟩, rfl⟩
  case regs =>
    intro r hr
    rw [State.getReg_putResult, if_neg (List.ne_of_not_mem_cons hr)]
  case upperSr => exact srWithFlags_upper s.sr x.2
  case memory => exact fun a => State.putResult_byteAt s d x a

theorem State.getReg_putResult_self (s : State) (d : Reg) (x : Word × Flags) : (s.putResult d x).getReg d = x.1 := by
  simp

/-- The four readers of SR after its flags have been found. -/
theorem State.readers_of_flags {t : State} {f : Flags} (h : t.flags = f) :
    t.flagN = f.n ∧ t.flagC = f.c ∧ t.flagV = f.v ∧ t.flagZ = f.z := by
  subst h
  exact ⟨rfl, rfl, rfl, rfl⟩

/-! ### What the flag computations mean -/

/-- N, as every flag computation takes it from the result: the result's bit 31. -/
theorem msb_iff_le_toNat (r : Word) : r.msb = true ↔ 2 ^ 31 ≤ r.toNat := by
  rw [BitVec.msb_eq_decide, decide_eq_true_iff]

/-- V, as `addFlags` and `subFlags` compute it from the exact result: it leaves the signed 32-bit range. -/
theorem overflow_iff (i : Int) :
    (decide (i < -2147483648) || decide (2147483647 < i)) = true ↔ i < -2 ^ 31 ∨ 2 ^ 31 - 1 < i := by
  rw [Bool.or_eq_true, decide_eq_true_iff, decide_eq_true_iff]
  norm_num

/-- R121: `addFlags` into `d` is the exact sum narrowed to 32 bits, with the flags of the exact sum. -/
theorem isSum_putResult (a b : Word) (cin : Bool) (d : Reg) (s : State) :
    IsSum a b cin.toNat d s (s.putResult d (addFlags a b cin)) := by
  obtain ⟨hn, hc, hv, hz⟩ := State.readers_of_flags (State.putResult_flags s d (addFlags a b cin))
  rw [IsSum, hn, hc, hv, hz, State.getReg_putResult_self]
  refine ⟨?sum, ?carry, overflow_iff _, msb_iff_le_toNat _, beq_iff_eq, aluFrame_putResult s d _⟩
  case sum => exact BitVec.toNat_ofNat _ 32
  case carry => exact decide_eq_true_iff

/-- R122: a state with the flags of `subFlags` has the flags of the exact difference. -/
theorem differenceFlags_of_flags {a b : Word} {adj : Int} {t : State} (h : t.flags = (subFlags a b adj).2) :
    DifferenceFlags a b adj (subFlags a b adj).1 t := by
  obtain ⟨hn, hc, hv, hz⟩ := State.readers_of_flags h
  rw [DifferenceFlags, hn, hc, hv, hz]
  refine ⟨?difference, ?noBorrow, overflow_iff _, msb_iff_le_toNat _, beq_iff_eq⟩
  case difference =>
    have hpos : (0 : Int) ≤ ((a.toNat : Int) - b.toNat + adj) % 2 ^ 32 := Int.emod_nonneg _ (by decide)
    exact (congrArg Int.ofNat (BitVec.toNat_ofInt _)).trans (Int.toNat_of_nonneg hpos)
  case noBorrow => exact decide_eq_true_iff

/-- R126, R127: `subFlags` into `d` gives the flags of the exact difference, the result being what `d` then holds. -/
theorem differenceFlags_putResult (a b : Word) (adj : Int) (d : Reg) (s : State) :
    let t := s.putResult d (subFlags a b adj)
    DifferenceFlags a b adj (t.getReg d) t ∧ aluFrame [d] s t := by
  refine ⟨?_, aluFrame_putResult s d _⟩
  rw [State.getReg_putResult_self]
  exact differenceFlags_of_flags (State.putResult_flags s d _)

/-- R129 to R131: a result that is `f` of the operands bit by bit, with the flags of a logic instruction. -/
theorem isBitwise_putResult {f : Bool → Bool → Bool} {a b r : Word}
    (hr : ∀ j, j < 32 → r.getLsbD j = f (a.getLsbD j) (b.getLsbD j)) (d : Reg) (s : State) :
    IsBitwise f a b d s (s.putResult d (logicResult r)) := by
  obtain ⟨hn, hc, hv, hz⟩ := State.readers_of_flags (State.putResult_flags s d (logicResult r))
  rw [IsBitwise, hn, hc, hv, hz, State.getReg_putResult_self]
  exact ⟨hr, rfl, rfl, msb_iff_le_toNat r, beq_iff_eq, aluFrame_putResult s d _⟩

theorem isBitwise_and (a b : Word) (d : Reg) (s : State) :
    IsBitwise (· && ·) a b d s (s.putResult d (logicResult (a &&& b))) :=
  isBitwise_putResult (fun _ _ => BitVec.getLsbD_and) d s

theorem isBitwise_or (a b : Word) (d : Reg) (s : State) :
    IsBitwise (· || ·) a b d s (s.putResult d (logicResult (a ||| b))) :=
  isBitwise_putResult (fun _ _ => BitVec.getLsbD_or) d s

theorem isBitwise_xor (a b : Word) (d : Reg) (s : State) :
    IsBitwise xor a b d s (s.putResult d (logicResult (a ^^^ b))) :=
  isBitwise_putResult (fun _ _ => BitVec.getLsbD_xor) d s

/-! ### The statements -/

/-- Settles O8: each form writes `addFlags` of its operands, with carry 0 for ADD and the old C for ADC. -/
theorem addAndAdcWriteSumAndFlags : Obligations.AddAndAdcWriteSumAndFlags := by
  intro a d s
  refine ⟨?addReg, ?addImm, ?adcReg, ?adcImm⟩
  case addReg => exact fun b => ⟨_, rfl, isSum_putResult (s.getReg a) (s.getReg b) false d s⟩
  case addImm => exact fun k => ⟨_, rfl, isSum_putResult (s.getReg a) (sext20 k) false d s⟩
  case adcReg => exact fun b => ⟨_, rfl, isSum_putResult (s.getReg a) (s.getReg b) s.flagC d s⟩
  case adcImm => exact fun k => ⟨_, rfl, isSum_putResult (s.getReg a) (sext20 k) s.flagC d s⟩

/-- Settles O9: both forms write `subFlags` of their operands with no adjustment. -/
theorem subWritesDifferenceAndFlags : Obligations.SubWritesDifferenceAndFlags := by
  intro a d s
  refine ⟨?subReg, ?subImm⟩
  case subReg => exact fun b => ⟨_, rfl, differenceFlags_putResult (s.getReg a) (s.getReg b) 0 d s⟩
  case subImm => exact fun k => ⟨_, rfl, differenceFlags_putResult (s.getReg a) (sext20 k) 0 d s⟩

/-- Settles O11: the result whose flags are set is the difference, which no register receives. -/
theorem cmpWritesFlagsOnly : Obligations.CmpWritesFlagsOnly := by
  intro a s
  refine ⟨?cmpReg, ?cmpImm⟩
  case cmpReg =>
    exact fun b => ⟨_, _, rfl, differenceFlags_of_flags (State.setFlags_flags s _), aluFrame_setFlags s _⟩
  case cmpImm =>
    exact fun k => ⟨_, _, rfl, differenceFlags_of_flags (State.setFlags_flags s _), aluFrame_setFlags s _⟩

/-- Settles O15: each form writes its operator's word with the flags of a logic instruction. -/
theorem logicIsBitwise : Obligations.LogicIsBitwise := by
  intro a d s
  refine ⟨?andReg, ?andImm, ?orReg, ?orImm, ?xorReg, ?xorImm⟩
  case andReg => exact fun b => ⟨_, rfl, isBitwise_and (s.getReg a) (s.getReg b) d s⟩
  case andImm => exact fun k => ⟨_, rfl, isBitwise_and (s.getReg a) (sext20 k) d s⟩
  case orReg => exact fun b => ⟨_, rfl, isBitwise_or (s.getReg a) (s.getReg b) d s⟩
  case orImm => exact fun k => ⟨_, rfl, isBitwise_or (s.getReg a) (sext20 k) d s⟩
  case xorReg => exact fun b => ⟨_, rfl, isBitwise_xor (s.getReg a) (s.getReg b) d s⟩
  case xorImm => exact fun k => ⟨_, rfl, isBitwise_xor (s.getReg a) (sext20 k) d s⟩

end Sys2Proof.Machine

/-! SUPPORT. MOVE to a general register (41_move.md R150): the frame of writing one register and no flag, what the two
source forms do, and the statement. -/

namespace Sys2Proof.Machine

/-- The frame of an instruction that writes one register and no flag. -/
theorem regFrame_setReg (s : State) (d : Reg) (v : Word) : regFrame [d] s (s.setReg d v) := by
  refine ⟨?regs, State.setReg_sr s d v, ⟨rfl, rfl, rfl, rfl⟩, ?memory, ⟨rfl, rfl, rfl⟩⟩
  case regs => exact fun r hr => State.getReg_setReg_ne s v (List.ne_of_not_mem_cons hr)
  case memory => exact fun a => State.setReg_byteAt s d v a

theorem exec_moveReg (b d : Reg) (s : State) : exec (.moveReg b d) s = .next (s.setReg d (s.getReg b)) := rfl

theorem exec_moveImm (k : Int) (d : Reg) (s : State) : exec (.moveImm k d) s = .next (s.setReg d (sext20 k)) := rfl

/-- Settles O19: each form writes its source's value to the destination by `setReg`, which leaves the rest alone. -/
theorem moveWritesRegister : Obligations.MoveWritesRegister := by
  intro d s
  refine ⟨?moveReg, ?moveImm⟩
  case moveReg =>
    exact fun b => ⟨_, exec_moveReg b d s, State.getReg_setReg_self s d _, regFrame_setReg s d _, State.setReg_pc s d _⟩
  case moveImm =>
    exact fun k => ⟨_, exec_moveImm k d s, State.getReg_setReg_self s d _, regFrame_setReg s d _, State.setReg_pc s d _⟩

end Sys2Proof.Machine

/-! SUPPORT. The condition table (43_control.md R181): the comparison tests in terms of the four flags, each
complementary pair from one of its two tests, and the statement. -/

namespace Sys2Proof.Machine

/-! ### The comparison tests that are complements of others -/

/-- A test that is the complement of another is true exactly when the other is not. -/
theorem State.cond_iff_not_of_complement {s : State} {cc dd : Cond} (h : s.cond dd = !s.cond cc) :
    s.cond dd = true ↔ ¬ s.cond cc = true := by
  rw [h, Bool.not_eq_true', Bool.not_eq_true]

theorem State.cond_sge_eq_not (s : State) : s.cond .sge = !s.cond .slt := rfl

theorem State.cond_ugt_eq_not (s : State) : s.cond .ugt = !s.cond .ule :=
  calc s.cond .ugt = (!!s.flagC && !s.flagZ) := congrArg (· && !s.flagZ) (Bool.not_not s.flagC).symm
    _ = !s.cond .ule := (Bool.not_or (!s.flagC) s.flagZ).symm

theorem State.cond_sgt_eq_not (s : State) : s.cond .sgt = !s.cond .sle :=
  (Bool.not_or (s.flagN ^^ s.flagV) s.flagZ).symm

/-! ### The tests in terms of the flags -/

/-- The unsigned comparison: C is the complement of the borrow. -/
theorem State.cond_ule_iff (s : State) : s.cond .ule = true ↔ s.flagC = false ∨ s.flagZ = true :=
  calc s.cond .ule = true ↔ (!s.flagC) = true ∨ s.flagZ = true := Bool.or_eq_true_iff
    _ ↔ s.flagC = false ∨ s.flagZ = true := by rw [Bool.not_eq_true']

theorem State.cond_ugt_iff (s : State) : s.cond .ugt = true ↔ s.flagC = true ∧ s.flagZ = false := by
  rw [State.cond_iff_not_of_complement s.cond_ugt_eq_not, State.cond_ule_iff, not_or, Bool.not_eq_false,
    Bool.not_eq_true]

/-- The signed comparison: the exclusive or of N and V is 1 exactly when they differ. -/
theorem State.cond_slt_iff (s : State) : s.cond .slt = true ↔ s.flagN ≠ s.flagV := bne_iff_ne

theorem State.cond_sge_iff (s : State) : s.cond .sge = true ↔ s.flagN = s.flagV := by
  rw [State.cond_iff_not_of_complement s.cond_sge_eq_not, State.cond_slt_iff, not_not]

theorem State.cond_sle_iff (s : State) : s.cond .sle = true ↔ s.flagN ≠ s.flagV ∨ s.flagZ = true :=
  calc s.cond .sle = true ↔ s.cond .slt = true ∨ s.flagZ = true := Bool.or_eq_true_iff
    _ ↔ s.flagN ≠ s.flagV ∨ s.flagZ = true := by rw [State.cond_slt_iff]

theorem State.cond_sgt_iff (s : State) : s.cond .sgt = true ↔ s.flagN = s.flagV ∧ s.flagZ = false := by
  rw [State.cond_iff_not_of_complement s.cond_sgt_eq_not, State.cond_sle_iff, not_or, not_not, Bool.not_eq_true]

/-! ### The statement -/

/-- Settles O31: the tests of one flag read it or its complement, and the others are the comparison lemmas above. -/
theorem conditionTable : Obligations.ConditionTable := by
  intro s
  refine ⟨rfl, Iff.rfl, ?nc, Iff.rfl, ?nv, Iff.rfl, ?nn, Iff.rfl, ?nz, s.cond_ule_iff, s.cond_ugt_iff, s.cond_sle_iff,
    s.cond_sgt_iff, s.cond_slt_iff, s.cond_sge_iff⟩
  case nc => exact iff_of_eq (Bool.not_eq_true' s.flagC)
  case nv => exact iff_of_eq (Bool.not_eq_true' s.flagV)
  case nn => exact iff_of_eq (Bool.not_eq_true' s.flagN)
  case nz => exact iff_of_eq (Bool.not_eq_true' s.flagZ)

end Sys2Proof.Machine

/-! SUPPORT. The decoder and the encoder (30_encoding.md R81 to R104): what each format's decoder reads back from the
format's layout, what a decoded word must have been laid out from, what is rejected, and the statements. -/

namespace Sys2Proof.Machine

/-! ### The fields through the two layouts -/

theorem fieldMode_iff (w : Word) : fieldMode w = true ↔ w.extractLsb' 26 1 = 1#1 := beq_iff_eq

theorem fieldMode_false_iff (w : Word) : fieldMode w = false ↔ w.extractLsb' 26 1 = 0#1 := by
  rw [← Bool.not_eq_true, fieldMode_iff]
  generalize w.extractLsb' 26 1 = m
  revert m
  decide

theorem bitsZero_iff (w : Word) (lo len : Nat) : bitsZero w lo len = true ↔ w.extractLsb' lo len = 0#len := beq_iff_eq

theorem toBits_fieldDest (w : Word) : (fieldDest w).toBits = w.extractLsb' 23 3 := Reg.toBits_ofBits _
theorem toBits_fieldSrc1 (w : Word) : (fieldSrc1 w).toBits = w.extractLsb' 20 3 := Reg.toBits_ofBits _

/-- The readers of a word of formats A, MV, L and S. -/
theorem readers_layoutReg (op : BitVec 5) (m : BitVec 1) (f1 f2 : BitVec 3) (low : BitVec 20) :
    fieldMode (layoutReg op m f1 f2 low) = (m == 1#1) ∧
    fieldDest (layoutReg op m f1 f2 low) = Reg.ofBits f1 ∧
    fieldSrc1 (layoutReg op m f1 f2 low) = Reg.ofBits f2 ∧
    fieldImm (layoutReg op m f1 f2 low) = low.toInt := by
  obtain ⟨-, hm, h1, h2, hlow⟩ := layoutReg_fields op m f1 f2 low
  exact ⟨congrArg (· == 1#1) hm, congrArg Reg.ofBits h1, congrArg Reg.ofBits h2, congrArg BitVec.toInt hlow⟩

/-- Fields inside the low twenty bits of a layout are fields of its low part. -/
theorem low_layoutReg (op : BitVec 5) (m : BitVec 1) (f1 f2 : BitVec 3) (low : BitVec 20) (lo len : Nat)
    (h : lo + len ≤ 20) : (layoutReg op m f1 f2 low).extractLsb' lo len = low.extractLsb' lo len := by
  obtain ⟨-, -, -, -, hlow⟩ := layoutReg_fields op m f1 f2 low
  rw [field_of_low _ lo len h, hlow]

theorem low_layoutCond (op : BitVec 5) (m : BitVec 1) (cc : Cond) (low : BitVec 20) (lo len : Nat)
    (h : lo + len ≤ 20) : (layoutCond op m cc low).extractLsb' lo len = low.extractLsb' lo len := by
  obtain ⟨-, -, -, -, hlow⟩ := layoutCond_fields op m cc low
  rw [field_of_low _ lo len h, hlow]

/-- A register number in the low part is read back, over zeros. -/
theorem lowReg_layoutReg (op : BitVec 5) (m : BitVec 1) (f1 f2 : BitVec 3) (r : Reg) :
    fieldSrc2 (layoutReg op m f1 f2 (lowReg r)) = r ∧ bitsZero (layoutReg op m f1 f2 (lowReg r)) 0 17 = true := by
  obtain ⟨hr, hz⟩ := lowReg_fields r
  rw [fieldSrc2, bitsZero_iff, low_layoutReg _ _ _ _ _ 17 3 (by decide), low_layoutReg _ _ _ _ _ 0 17 (by decide), hr]
  exact ⟨Reg.ofBits_toBits r, hz⟩

theorem lowReg_layoutCond (op : BitVec 5) (m : BitVec 1) (cc : Cond) (r : Reg) :
    fieldSrc2 (layoutCond op m cc (lowReg r)) = r ∧ bitsZero (layoutCond op m cc (lowReg r)) 0 17 = true := by
  obtain ⟨hr, hz⟩ := lowReg_fields r
  rw [fieldSrc2, bitsZero_iff, low_layoutCond _ _ _ _ 17 3 (by decide), low_layoutCond _ _ _ _ 0 17 (by decide), hr]
  exact ⟨Reg.ofBits_toBits r, hz⟩

/-- The readers of a word of formats J, RT and H. -/
theorem readers_layoutCond (op : BitVec 5) (m : BitVec 1) (cc : Cond) (low : BitVec 20) :
    fieldMode (layoutCond op m cc low) = (m == 1#1) ∧
    fieldCond (layoutCond op m cc low) = some cc ∧
    bitsZero (layoutCond op m cc low) 20 2 = true ∧
    fieldImm (layoutCond op m cc low) = low.toInt := by
  obtain ⟨-, hm, hc, hz, hlow⟩ := layoutCond_fields op m cc low
  exact ⟨congrArg (· == 1#1) hm, hc, (bitsZero_iff _ _ _).mpr hz, congrArg BitVec.toInt hlow⟩

/-! ### Each format's decoder on the format's words -/

theorem decodeAlu_encAluReg {reg : Reg → Reg → Reg → Instr} {imm : Reg → Int → Reg → Instr} (op : BitVec 5)
    (a b d : Reg) : decodeAlu reg imm (encAluReg op a b d) = .ok (reg a b d) := by
  obtain ⟨hm, h1, h2, -⟩ := readers_layoutReg op 0#1 d.toBits a.toBits (lowReg b)
  obtain ⟨hr, hz⟩ := lowReg_layoutReg op 0#1 d.toBits a.toBits b
  simp [decodeAlu, encAluReg, hm, h1, h2, hr, hz]

theorem decodeAlu_encAluImm {reg : Reg → Reg → Reg → Instr} {imm : Reg → Int → Reg → Instr} (op : BitVec 5)
    (a d : Reg) {k : Int} (hk : fits20 k = true) : decodeAlu reg imm (encAluImm op a k d) = .ok (imm a k d) := by
  obtain ⟨hm, h1, h2, hlow⟩ := readers_layoutReg op 1#1 d.toBits a.toBits (imm20 k)
  simp [decodeAlu, encAluImm, hm, h1, h2, hlow, imm20_toInt hk]

theorem decodeTransfer_encAbs {abs : Reg → Int → Instr} {off : Reg → Reg → Int → Instr} (op : BitVec 5)
    (r : Reg) {k : Int} (hk : fits20 k = true) : decodeTransfer abs off (encAbs op r k) = .ok (abs r k) := by
  obtain ⟨hm, h1, -, hlow⟩ := readers_layoutReg op 0#1 r.toBits 0#3 (imm20 k)
  obtain ⟨-, -, -, h2, -⟩ := layoutReg_fields op 0#1 r.toBits 0#3 (imm20 k)
  have hz := (bitsZero_iff _ 20 3).mpr h2
  simp [decodeTransfer, encAbs, hm, h1, hz, hlow, imm20_toInt hk]

theorem decodeTransfer_encOff {abs : Reg → Int → Instr} {off : Reg → Reg → Int → Instr} (op : BitVec 5)
    (r a : Reg) {k : Int} (hk : fits20 k = true) : decodeTransfer abs off (encOff op r a k) = .ok (off r a k) := by
  obtain ⟨hm, h1, h2, hlow⟩ := readers_layoutReg op 1#1 r.toBits a.toBits (imm20 k)
  simp [decodeTransfer, encOff, hm, h1, h2, hlow, imm20_toInt hk]

theorem decodeStack_layoutReg {mk : Reg → Instr} (op : BitVec 5) (r : Reg) :
    decodeStack mk (layoutReg op 0#1 r.toBits 0#3 0#20) = .ok (mk r) := by
  obtain ⟨hm, h1, -, -⟩ := readers_layoutReg op 0#1 r.toBits 0#3 0#20
  have hz : bitsZero (layoutReg op 0#1 r.toBits 0#3 0#20) 0 23 = true := by
    rw [bitsZero_iff]
    apply BitVec.eq_of_toNat_eq
    simp only [layoutReg, BitVec.extractLsb'_toNat, BitVec.toNat_ofNat, Nat.shiftRight_eq_div_pow]
    omega
  simp [decodeStack, hm, h1, hz]

theorem decodeCmp_reg (a b : Reg) : decodeCmp (encode (.cmpReg a b)) = .ok (.cmpReg a b) := by
  obtain ⟨hm, -, h2, -⟩ := readers_layoutReg 0b01101#5 0#1 0#3 a.toBits (lowReg b)
  obtain ⟨-, -, hd, -, -⟩ := layoutReg_fields 0b01101#5 0#1 0#3 a.toBits (lowReg b)
  obtain ⟨hr, hz⟩ := lowReg_layoutReg 0b01101#5 0#1 0#3 a.toBits b
  simp [decodeCmp, encode, (bitsZero_iff _ _ _).mpr hd, hm, h2, hr, hz]

theorem decodeCmp_imm (a : Reg) {k : Int} (hk : fits20 k = true) :
    decodeCmp (encode (.cmpImm a k)) = .ok (.cmpImm a k) := by
  obtain ⟨hm, -, h2, hlow⟩ := readers_layoutReg 0b01101#5 1#1 0#3 a.toBits (imm20 k)
  obtain ⟨-, -, hd, -, -⟩ := layoutReg_fields 0b01101#5 1#1 0#3 a.toBits (imm20 k)
  simp [decodeCmp, encode, (bitsZero_iff _ _ _).mpr hd, hm, h2, hlow, imm20_toInt hk]

theorem decodeMove_reg (b d : Reg) : decodeMove (encode (.moveReg b d)) = .ok (.moveReg b d) := by
  obtain ⟨hm, h1, -, -⟩ := readers_layoutReg 0b00000#5 0#1 d.toBits 0b000#3 (lowReg b)
  obtain ⟨-, -, -, hs, -⟩ := layoutReg_fields 0b00000#5 0#1 d.toBits 0b000#3 (lowReg b)
  obtain ⟨hr, hz⟩ := lowReg_layoutReg 0b00000#5 0#1 d.toBits 0b000#3 b
  simp [decodeMove, encode, hs, hm, h1, hr, hz]

theorem decodeMove_imm (d : Reg) {k : Int} (hk : fits20 k = true) :
    decodeMove (encode (.moveImm k d)) = .ok (.moveImm k d) := by
  obtain ⟨hm, h1, -, hlow⟩ := readers_layoutReg 0b00000#5 1#1 d.toBits 0b000#3 (imm20 k)
  obtain ⟨-, -, -, hs, -⟩ := layoutReg_fields 0b00000#5 1#1 d.toBits 0b000#3 (imm20 k)
  simp [decodeMove, encode, hs, hm, h1, hlow, imm20_toInt hk]

theorem decodeMove_fromSr (d : Reg) : decodeMove (encode (.moveFromSr d)) = .ok (.moveFromSr d) := by
  obtain ⟨hm, h1, -, -⟩ := readers_layoutReg 0b00000#5 0#1 d.toBits 0b010#3 0#20
  obtain ⟨-, -, -, hs, hlow⟩ := layoutReg_fields 0b00000#5 0#1 d.toBits 0b010#3 0#20
  simp [decodeMove, encode, hs, hm, h1, (bitsZero_iff _ _ _).mpr hlow]

theorem decodeMove_toSrReg (b : Reg) : decodeMove (encode (.moveToSrReg b)) = .ok (.moveToSrReg b) := by
  obtain ⟨hm, -, -, -⟩ := readers_layoutReg 0b00000#5 0#1 0#3 0b001#3 (lowReg b)
  obtain ⟨-, -, hd, hs, -⟩ := layoutReg_fields 0b00000#5 0#1 0#3 0b001#3 (lowReg b)
  obtain ⟨hr, hz⟩ := lowReg_layoutReg 0b00000#5 0#1 0#3 0b001#3 b
  simp [decodeMove, encode, hs, (bitsZero_iff _ _ _).mpr hd, hm, hr, hz]

theorem decodeMove_toSrImm {k : Int} (hk : fits20 k = true) :
    decodeMove (encode (.moveToSrImm k)) = .ok (.moveToSrImm k) := by
  obtain ⟨hm, -, -, hlow⟩ := readers_layoutReg 0b00000#5 1#1 0#3 0b001#3 (imm20 k)
  obtain ⟨-, -, hd, hs, -⟩ := layoutReg_fields 0b00000#5 1#1 0#3 0b001#3 (imm20 k)
  simp [decodeMove, encode, hs, (bitsZero_iff _ _ _).mpr hd, hm, hlow, imm20_toInt hk]

theorem decodeJump_imm {abs : Cond → Int → Instr} {reg : Cond → Reg → Instr} (op : BitVec 5) (cc : Cond) {k : Int}
    (hk : fits20 k = true) : decodeJump abs reg (layoutCond op 1#1 cc (imm20 k)) = .ok (abs cc k) := by
  obtain ⟨hm, hc, h20, hlow⟩ := readers_layoutCond op 1#1 cc (imm20 k)
  rw [decodeJump, hc]
  simp only [h20, hm, hlow, imm20_toInt hk]
  rfl

theorem decodeJump_reg {abs : Cond → Int → Instr} {reg : Cond → Reg → Instr} (op : BitVec 5) (cc : Cond) (r : Reg) :
    decodeJump abs reg (layoutCond op 0#1 cc (lowReg r)) = .ok (reg cc r) := by
  obtain ⟨hm, hc, h20, -⟩ := readers_layoutCond op 0#1 cc (lowReg r)
  obtain ⟨hr, hz⟩ := lowReg_layoutCond op 0#1 cc r
  simp [decodeJump, hc, h20, hm, hr, hz]

theorem decodeJr_encode (cc : Cond) {k : Int} (hk : fits20 k = true) :
    decodeJr (encode (.jr cc k)) = .ok (.jr cc k) := by
  obtain ⟨hm, hc, h20, hlow⟩ := readers_layoutCond 0b11010#5 1#1 cc (imm20 k)
  simp [decodeJr, encode, hc, h20, hm, hlow, imm20_toInt hk]

/-- The bits above the return kind of a word of format RT, and those of format H, are zero. -/
theorem bitsZero_layoutCond (op : BitVec 5) (cc : Cond) {low : BitVec 20} {lo : Nat} (hlo : lo = 0 ∨ lo = 2)
    (hlow : low.toNat < 2 ^ lo) : bitsZero (layoutCond op 0#1 cc low) lo (22 - lo) = true := by
  rw [bitsZero_iff]
  apply BitVec.eq_of_toNat_eq
  simp only [layoutCond, BitVec.extractLsb'_toNat, BitVec.toNat_ofNat, Nat.shiftRight_eq_div_pow]
  rcases hlo with rfl | rfl <;> omega

theorem decodeReturn_layoutCond (cc : Cond) (kind : BitVec 20) (hk : kind.toNat < 2 ^ 2) :
    decodeReturn (layoutCond 0b11011#5 0#1 cc kind) =
      if kind.toNat = 0 then .ok (.ret cc) else if kind.toNat = 1 then .ok (.reti cc)
      else if kind.toNat = 3 then .ok (.retn cc) else .error .reservedReturnKind := by
  obtain ⟨hm, hc, -, -⟩ := readers_layoutCond 0b11011#5 0#1 cc kind
  have hz : bitsZero _ 2 20 = true := bitsZero_layoutCond 0b11011#5 cc (.inr rfl) hk
  have hkind : ((layoutCond 0b11011#5 0#1 cc kind).extractLsb' 0 2).toNat = kind.toNat := by
    rw [low_layoutCond _ _ _ _ 0 2 (by decide), BitVec.extractLsb'_toNat]
    exact Nat.mod_eq_of_lt hk
  simp only [decodeReturn, hc, hm, hz, hkind]
  have : kind.toNat = 0 ∨ kind.toNat = 1 ∨ kind.toNat = 2 ∨ kind.toNat = 3 := by omega
  rcases this with h | h | h | h <;> simp [h]

theorem decodeHalt_encode (cc : Cond) : decodeHalt (encode (.halt cc)) = .ok (.halt cc) := by
  obtain ⟨hm, hc, -, -⟩ := readers_layoutCond 0b11111#5 0#1 cc 0#20
  have hz : bitsZero _ 0 22 = true := bitsZero_layoutCond 0b11111#5 cc (.inl rfl) (by decide : (0#20).toNat < 2 ^ 0)
  simp [decodeHalt, encode, hc, hm, hz]

/-! ### Decoding an encoded instruction -/

/-- The operation code of a word is the one of its instruction's row. -/
theorem fieldOp_encode (i : Instr) : fieldOp (encode i) = (Laws.EncodeOpcode.row i).1 := by
  cases i with
  | jpAbs | jpReg | callAbs | callReg | jr | ret | reti | retn | halt => exact (layoutCond_fields ..).1
  | _ => exact (layoutReg_fields ..).1

theorem decodeWord_encode {i : Instr} (h : i.wellFormed = true) : decodeWord (encode i) = .ok i := by
  rw [decodeWord, fieldOp_encode]
  cases i <;> simp only [Laws.EncodeOpcode.row, BitVec.reduceToNat]
  case orReg a b d | andReg a b d | xorReg a b d | addReg a b d | adcReg a b d | subReg a b d | sbcReg a b d
    | rotlReg a b d | rotrReg a b d | shlReg a b d | shrReg a b d | ashrReg a b d => exact decodeAlu_encAluReg _ a b d
  case orImm a k d | andImm a k d | xorImm a k d | addImm a k d | adcImm a k d | subImm a k d | sbcImm a k d
    | rotlImm a k d | rotrImm a k d | shlImm a k d | shrImm a k d | ashrImm a k d => exact decodeAlu_encAluImm _ a d h
  case cmpReg a b => exact decodeCmp_reg a b
  case cmpImm a k => exact decodeCmp_imm a h
  case moveReg b d => exact decodeMove_reg b d
  case moveImm k d => exact decodeMove_imm d h
  case moveFromSr d => exact decodeMove_fromSr d
  case moveToSrReg b => exact decodeMove_toSrReg b
  case moveToSrImm k => exact decodeMove_toSrImm h
  case loadAbs r k | loadhAbs r k | loadbAbs r k | storeAbs r k | storehAbs r k | storebAbs r k =>
    exact decodeTransfer_encAbs _ r h
  case loadOff r a k | loadhOff r a k | loadbOff r a k | storeOff r a k | storehOff r a k | storebOff r a k =>
    exact decodeTransfer_encOff _ r a h
  case push r | pop r => exact decodeStack_layoutReg _ r
  case jpAbs cc k | callAbs cc k => exact decodeJump_imm _ cc h
  case jpReg cc r | callReg cc r => exact decodeJump_reg _ cc r
  case jr cc k => exact decodeJr_encode cc h
  case ret cc => exact decodeReturn_layoutCond cc 0b00#20 (by decide)
  case reti cc => exact decodeReturn_layoutCond cc 0b01#20 (by decide)
  case retn cc => exact decodeReturn_layoutCond cc 0b11#20 (by decide)
  case halt cc => exact decodeHalt_encode cc

/-- Settles O1: the four stored bytes make the instruction's word again, which decodes format by format. -/
theorem decodeOfEncodedBytes : Obligations.DecodeOfEncodedBytes := by
  intro i rest h
  calc decodeBytes (encodeBytes i ++ rest)
    _ = decodeWord (wordOfBytes (byteOfWord (encode i) 0) (byteOfWord (encode i) 1) (byteOfWord (encode i) 2)
          (byteOfWord (encode i) 3)) := rfl
    _ = decodeWord (encode i) := by rw [wordOfBytes_byteOfWord]
    _ = .ok i := decodeWord_encode h

/-- The table word of a well-formed instruction is read as the instruction. -/
theorem decodeTableWord_encode {i : Instr} {w : Nat} (h : i.wellFormed = true) (hw : (encode i).toNat = w) :
    decodeTableWord 32 w = some i := by
  subst hw
  have hv : BitVec.ofNat 32 ((encode i).toNat % 2 ^ 32) = encode i := by
    rw [Nat.mod_eq_of_lt (encode i).isLt, BitVec.ofNat_toNat, BitVec.setWidth_eq]
  have hd := decodeOfEncodedBytes i [] h
  simp only [encodeBytes, List.append_nil] at hd
  simp only [decodeTableWord, hv, hd]

/-- Settles O3: each listed word is the encoding of the instruction it is listed for. -/
theorem listedWordsDecode : Obligations.ListedWordsDecode := by
  refine ⟨?_, ?_, ?_, ?_, ?_, ?_, ?_, ?_, ?_, ?_, ?_⟩ <;> exact decodeTableWord_encode (by decide) (by decide)

end Sys2Proof.Machine

/-! SUPPORT. Words that decode (30_encoding.md R94 to R96, R104): a decoded word is laid out again from its fields, so
it is the encoding of what it decodes to; the reserved patterns are rejected; and the statements. -/

namespace Sys2Proof.Machine

/-! ### A word is laid out from its fields -/

theorem layoutReg_of_fields (w : Word) :
    layoutReg (fieldOp w) (w.extractLsb' 26 1) (w.extractLsb' 23 3) (w.extractLsb' 20 3) (w.extractLsb' 0 20) = w := by
  apply BitVec.eq_of_toNat_eq
  have := w.isLt
  simp only [layoutReg, fieldOp, BitVec.toNat_ofNat, BitVec.extractLsb'_toNat, Nat.shiftRight_eq_div_pow]
  omega

theorem layoutCond_of_fields {w : Word} {cc : Cond} (hc : fieldCond w = some cc) (hz : bitsZero w 20 2 = true) :
    layoutCond (fieldOp w) (w.extractLsb' 26 1) cc (w.extractLsb' 0 20) = w := by
  have hcc : cc.toBits.toNat = (w.extractLsb' 22 4).toNat := congrArg BitVec.toNat (Cond.toBits_of_ofBits _ cc hc)
  have h20 : (w.extractLsb' 20 2).toNat = 0 := congrArg BitVec.toNat ((bitsZero_iff w 20 2).mp hz)
  apply BitVec.eq_of_toNat_eq
  have := w.isLt
  simp only [BitVec.extractLsb'_toNat, Nat.shiftRight_eq_div_pow] at hcc h20
  simp only [layoutCond, hcc, fieldOp, BitVec.toNat_ofNat, BitVec.extractLsb'_toNat, Nat.shiftRight_eq_div_pow]
  omega

/-- Over zeros in w[16:0], the low part is the register number of w[19:17]. -/
theorem lowReg_of_fields {w : Word} (hz : bitsZero w 0 17 = true) : lowReg (fieldSrc2 w) = w.extractLsb' 0 20 := by
  have h0 : (w.extractLsb' 0 17).toNat = 0 := congrArg BitVec.toNat ((bitsZero_iff w 0 17).mp hz)
  apply BitVec.eq_of_toNat_eq
  rw [lowReg, fieldSrc2, Reg.toBits_ofBits]
  simp only [BitVec.toNat_ofNat, BitVec.extractLsb'_toNat, Nat.shiftRight_eq_div_pow] at h0 ⊢
  omega

/-- A field of zeros inside one of zeros. -/
theorem field_zero_of_bitsZero {w : Word} {lo len lo' len' : Nat} (hz : bitsZero w lo len = true) (hlo : lo ≤ lo')
    (hlen : lo' + len' ≤ lo + len) : w.extractLsb' lo' len' = 0#len' := by
  rw [bitsZero_iff] at hz
  refine BitVec.eq_of_getLsbD_eq fun j hj => ?_
  have h : (w.extractLsb' lo len).getLsbD (lo' - lo + j) = false := by rw [hz, BitVec.getLsbD_zero]
  rw [BitVec.getLsbD_extractLsb', decide_eq_true (by omega), Bool.true_and] at h
  rw [BitVec.getLsbD_extractLsb', BitVec.getLsbD_zero, show lo' + j = lo + (lo' - lo + j) by omega, h, Bool.and_false]

theorem fits20_fieldImm (w : Word) : fits20 (fieldImm w) = true := (imm20_of_toInt _).1
theorem imm20_fieldImm (w : Word) : imm20 (fieldImm w) = w.extractLsb' 0 20 := (imm20_of_toInt _).2

theorem mode_zero_of_not {w : Word} (hm : ¬fieldMode w = true) : w.extractLsb' 26 1 = 0#1 :=
  (fieldMode_false_iff w).mp (Bool.eq_false_of_not_eq_true hm)

theorem encAluReg_of_fields {w : Word} (hm : ¬fieldMode w = true) (hz : bitsZero w 0 17 = true) :
    encAluReg (fieldOp w) (fieldSrc1 w) (fieldSrc2 w) (fieldDest w) = w := by
  rw [encAluReg, toBits_fieldDest, toBits_fieldSrc1, lowReg_of_fields hz, ← mode_zero_of_not hm,
    layoutReg_of_fields]

theorem encAluImm_of_fields {w : Word} (hm : fieldMode w = true) :
    encAluImm (fieldOp w) (fieldSrc1 w) (fieldImm w) (fieldDest w) = w := by
  rw [encAluImm, toBits_fieldDest, toBits_fieldSrc1, imm20_fieldImm, ← (fieldMode_iff w).mp hm, layoutReg_of_fields]

/-- `w` is the word of the well-formed instruction `i`. -/
def EncodedBy (w : Word) (i : Instr) : Prop := i.wellFormed = true ∧ encode i = w

/-- The word of an instruction is known once it is laid out from the fields of `w`. -/
theorem EncodedBy.of_fields {v w : Word} {i : Instr} (h : EncodedBy v i) (e : v = w) : EncodedBy w i := e ▸ h

/-- A field that a decoder has matched as a number, as the literal that the encoder writes. -/
theorem ofNat_of_toNat {k n : Nat} {x : BitVec k} (h : x.toNat = n) : BitVec.ofNat k n = x := by
  rw [← h, BitVec.ofNat_toNat, BitVec.setWidth_eq]

/-! ### Each format's decoder accepts only the format's words -/

theorem decodeAlu_sound {reg : Reg → Reg → Reg → Instr} {imm : Reg → Int → Reg → Instr} {w : Word} {i : Instr} {n : Nat}
    (hop : (fieldOp w).toNat = n) (h : decodeAlu reg imm w = .ok i)
    (hreg : ∀ a b d, EncodedBy (encAluReg (BitVec.ofNat 5 n) a b d) (reg a b d))
    (himm : ∀ a k d, fits20 k = true → EncodedBy (encAluImm (BitVec.ofNat 5 n) a k d) (imm a k d)) :
    EncodedBy w i := by
  rw [ofNat_of_toNat hop] at hreg himm
  unfold decodeAlu at h
  split at h
  case isTrue hm =>
    cases h
    exact (himm _ _ _ (fits20_fieldImm w)).of_fields (encAluImm_of_fields hm)
  case isFalse hm =>
    split at h
    case isTrue hz =>
      cases h
      exact (hreg _ _ _).of_fields (encAluReg_of_fields hm hz)
    case isFalse => cases h

theorem decodeTransfer_sound {abs : Reg → Int → Instr} {off : Reg → Reg → Int → Instr} {w : Word} {i : Instr} {n : Nat}
    (hop : (fieldOp w).toNat = n) (h : decodeTransfer abs off w = .ok i)
    (habs : ∀ r k, fits20 k = true → EncodedBy (encAbs (BitVec.ofNat 5 n) r k) (abs r k))
    (hoff : ∀ r a k, fits20 k = true → EncodedBy (encOff (BitVec.ofNat 5 n) r a k) (off r a k)) :
    EncodedBy w i := by
  rw [ofNat_of_toNat hop] at habs hoff
  unfold decodeTransfer at h
  split at h
  case isTrue hm =>
    cases h
    refine (hoff _ _ _ (fits20_fieldImm w)).of_fields ?_
    rw [encOff, toBits_fieldDest, toBits_fieldSrc1, imm20_fieldImm, ← (fieldMode_iff w).mp hm, layoutReg_of_fields]
  case isFalse hm =>
    split at h
    case isTrue hz =>
      cases h
      refine (habs _ _ (fits20_fieldImm w)).of_fields ?_
      rw [encAbs, toBits_fieldDest, imm20_fieldImm, ← (bitsZero_iff w 20 3).mp hz,
        ← mode_zero_of_not hm, layoutReg_of_fields]
    case isFalse => cases h

theorem decodeStack_sound {mk : Reg → Instr} {w : Word} {i : Instr} {n : Nat} (hop : (fieldOp w).toNat = n)
    (h : decodeStack mk w = .ok i)
    (hmk : ∀ r, EncodedBy (layoutReg (BitVec.ofNat 5 n) 0#1 r.toBits 0#3 0#20) (mk r)) :
    EncodedBy w i := by
  rw [ofNat_of_toNat hop] at hmk
  unfold decodeStack at h
  split at h
  case isTrue => cases h
  case isFalse hm =>
    split at h
    case isTrue hz =>
      cases h
      refine (hmk _).of_fields ?_
      rw [toBits_fieldDest, ← field_zero_of_bitsZero hz (by decide) (by decide : 20 + 3 ≤ 0 + 23),
        ← field_zero_of_bitsZero hz (by decide) (by decide : 0 + 20 ≤ 0 + 23),
        ← mode_zero_of_not hm, layoutReg_of_fields]
    case isFalse => cases h

theorem decodeCmp_sound {w : Word} {i : Instr} (hop : (fieldOp w).toNat = 0b01101) (h : decodeCmp w = .ok i) :
    EncodedBy w i := by
  unfold decodeCmp at h
  split at h
  case isTrue => cases h
  case isFalse hd =>
    have hd : w.extractLsb' 23 3 = 0#3 := by simpa [bitsZero_iff] using hd
    split at h
    case isTrue hm =>
      cases h
      refine ⟨fits20_fieldImm w, ?_⟩
      rw [encode, ofNat_of_toNat hop, toBits_fieldSrc1, imm20_fieldImm, ← hd, ← (fieldMode_iff w).mp hm,
        layoutReg_of_fields]
    case isFalse hm =>
      split at h
      case isTrue hz =>
        cases h
        refine ⟨rfl, ?_⟩
        rw [encode, ofNat_of_toNat hop, toBits_fieldSrc1, lowReg_of_fields hz, ← hd,
          ← mode_zero_of_not hm, layoutReg_of_fields]
      case isFalse => cases h

theorem decodeMove_sound {w : Word} {i : Instr} (hop : (fieldOp w).toNat = 0b00000) (h : decodeMove w = .ok i) :
    EncodedBy w i := by
  unfold decodeMove at h
  split at h
  case h_1 hs =>
    split at h
    case isTrue hm =>
      cases h
      refine ⟨fits20_fieldImm w, ?_⟩
      rw [encode, ofNat_of_toNat hop, toBits_fieldDest, imm20_fieldImm, ofNat_of_toNat hs,
        ← (fieldMode_iff w).mp hm, layoutReg_of_fields]
    case isFalse hm =>
      split at h
      case isTrue hz =>
        cases h
        refine ⟨rfl, ?_⟩
        rw [encode, ofNat_of_toNat hop, toBits_fieldDest, lowReg_of_fields hz, ofNat_of_toNat hs,
          ← mode_zero_of_not hm, layoutReg_of_fields]
      case isFalse => cases h
  case h_2 hs =>
    split at h
    case isTrue => cases h
    case isFalse hm =>
      split at h
      case isTrue hz =>
        cases h
        refine ⟨rfl, ?_⟩
        rw [encode, ofNat_of_toNat hop, toBits_fieldDest, ← (bitsZero_iff w 0 20).mp hz, ofNat_of_toNat hs,
          ← mode_zero_of_not hm, layoutReg_of_fields]
      case isFalse => cases h
  case h_3 hs =>
    split at h
    case isTrue => cases h
    case isFalse hd =>
      have hd : w.extractLsb' 23 3 = 0#3 := by simpa [bitsZero_iff] using hd
      split at h
      case isTrue hm =>
        cases h
        refine ⟨fits20_fieldImm w, ?_⟩
        rw [encode, ofNat_of_toNat hop, ← hd, imm20_fieldImm, ofNat_of_toNat hs, ← (fieldMode_iff w).mp hm,
          layoutReg_of_fields]
      case isFalse hm =>
        split at h
        case isTrue hz =>
          cases h
          refine ⟨rfl, ?_⟩
          rw [encode, ofNat_of_toNat hop, ← hd, lowReg_of_fields hz, ofNat_of_toNat hs,
            ← mode_zero_of_not hm, layoutReg_of_fields]
        case isFalse => cases h
  case h_4 => cases h
  case h_5 => cases h

theorem decodeJump_sound {abs : Cond → Int → Instr} {reg : Cond → Reg → Instr} {w : Word} {i : Instr} {n : Nat}
    (hop : (fieldOp w).toNat = n) (h : decodeJump abs reg w = .ok i)
    (habs : ∀ cc k, fits20 k = true → EncodedBy (layoutCond (BitVec.ofNat 5 n) 1#1 cc (imm20 k)) (abs cc k))
    (hreg : ∀ cc r, EncodedBy (layoutCond (BitVec.ofNat 5 n) 0#1 cc (lowReg r)) (reg cc r)) :
    EncodedBy w i := by
  rw [ofNat_of_toNat hop] at habs hreg
  unfold decodeJump at h
  split at h
  case h_1 => cases h
  case h_2 cc hc =>
    split at h
    case isTrue => cases h
    case isFalse hz20 =>
      have hz20 : bitsZero w 20 2 = true := by simpa using hz20
      split at h
      case isTrue hm =>
        cases h
        refine (habs _ _ (fits20_fieldImm w)).of_fields ?_
        rw [imm20_fieldImm, ← (fieldMode_iff w).mp hm, layoutCond_of_fields hc hz20]
      case isFalse hm =>
        split at h
        case isTrue hz =>
          cases h
          refine (hreg _ _).of_fields ?_
          rw [lowReg_of_fields hz, ← mode_zero_of_not hm,
            layoutCond_of_fields hc hz20]
        case isFalse => cases h

theorem decodeJr_sound {w : Word} {i : Instr} (hop : (fieldOp w).toNat = 0b11010) (h : decodeJr w = .ok i) :
    EncodedBy w i := by
  unfold decodeJr at h
  split at h
  case h_1 => cases h
  case h_2 cc hc =>
    split at h
    case isTrue => cases h
    case isFalse hm =>
      have hm : fieldMode w = true := by simpa using hm
      split at h
      case isTrue => cases h
      case isFalse hz20 =>
        cases h
        refine ⟨fits20_fieldImm w, ?_⟩
        rw [encode, ofNat_of_toNat hop, imm20_fieldImm, ← (fieldMode_iff w).mp hm,
          layoutCond_of_fields hc (by simpa using hz20)]

/-- Over zeros in w[21:2], the low part is the return kind. -/
theorem returnKind_of_fields {w : Word} {n : Nat} (hz : bitsZero w 2 20 = true) (hk : (w.extractLsb' 0 2).toNat = n) :
    BitVec.ofNat 20 n = w.extractLsb' 0 20 := by
  have h18 : (w.extractLsb' 2 18).toNat = 0 :=
    congrArg BitVec.toNat (field_zero_of_bitsZero hz (by decide) (by decide : 2 + 18 ≤ 2 + 20))
  apply BitVec.eq_of_toNat_eq
  simp only [BitVec.toNat_ofNat, BitVec.extractLsb'_toNat, Nat.shiftRight_eq_div_pow] at h18 hk ⊢
  omega

theorem decodeReturn_sound {w : Word} {i : Instr} (hop : (fieldOp w).toNat = 0b11011) (h : decodeReturn w = .ok i) :
    EncodedBy w i := by
  unfold decodeReturn at h
  split at h
  case h_1 => cases h
  case h_2 cc hc =>
    split at h
    case isTrue => cases h
    case isFalse hm =>
      split at h
      case isTrue => cases h
      case isFalse hz =>
        have hz : bitsZero w 2 20 = true := by simpa using hz
        have hz20 : bitsZero w 20 2 = true := (bitsZero_iff w 20 2).mpr
          (field_zero_of_bitsZero hz (by decide) (by decide))
        have layout {n : Nat} (hk : (w.extractLsb' 0 2).toNat = n) :
            layoutCond 0b11011#5 0#1 cc (BitVec.ofNat 20 n) = w := by
          rw [ofNat_of_toNat hop, returnKind_of_fields hz hk,
            ← mode_zero_of_not hm, layoutCond_of_fields hc hz20]
        split at h
        case h_1 hk => cases h; exact ⟨rfl, layout hk⟩
        case h_2 hk => cases h; exact ⟨rfl, layout hk⟩
        case h_3 hk => cases h; exact ⟨rfl, layout hk⟩
        case h_4 => cases h

theorem decodeHalt_sound {w : Word} {i : Instr} (hop : (fieldOp w).toNat = 0b11111) (h : decodeHalt w = .ok i) :
    EncodedBy w i := by
  unfold decodeHalt at h
  split at h
  case h_1 => cases h
  case h_2 cc hc =>
    split at h
    case isTrue => cases h
    case isFalse hm =>
      split at h
      case isTrue hz =>
        cases h
        refine ⟨rfl, ?_⟩
        rw [encode, ofNat_of_toNat hop, ← field_zero_of_bitsZero hz (by decide) (by decide : 0 + 20 ≤ 0 + 22),
          ← mode_zero_of_not hm,
          layoutCond_of_fields hc ((bitsZero_iff w 20 2).mpr (field_zero_of_bitsZero hz (by decide) (by decide)))]
      case isFalse => cases h

/-- Settles O2: by the branch of `decodeWord` taken, in its order; each format's decoder accepts only the words that
the encoder lays out. -/
theorem decodedWordIsItsEncoding : Obligations.DecodedWordIsItsEncoding := by
  intro w i h
  unfold decodeWord at h
  split at h
  case h_1 hop => exact decodeMove_sound hop h
  case h_2 hop | h_3 hop | h_4 hop | h_5 hop | h_6 hop | h_7 hop | h_8 hop | h_9 hop | h_10 hop | h_11 hop | h_12 hop
    | h_13 hop => exact decodeAlu_sound hop h (fun _ _ _ => ⟨rfl, rfl⟩) (fun _ _ _ hk => ⟨hk, rfl⟩)
  case h_14 hop => exact decodeCmp_sound hop h
  case h_15 hop | h_16 hop => exact decodeStack_sound hop h (fun _ => ⟨rfl, rfl⟩)
  case h_17 hop | h_18 hop | h_19 hop | h_20 hop | h_21 hop | h_22 hop =>
    exact decodeTransfer_sound hop h (fun _ _ hk => ⟨hk, rfl⟩) (fun _ _ _ hk => ⟨hk, rfl⟩)
  case h_23 hop | h_24 hop => exact decodeJump_sound hop h (fun _ _ hk => ⟨hk, rfl⟩) (fun _ _ => ⟨rfl, rfl⟩)
  case h_25 hop => exact decodeJr_sound hop h
  case h_26 hop => exact decodeReturn_sound hop h
  case h_27 hop => exact decodeHalt_sound hop h
  case h_28 => cases h

/-! ### Rejected words -/

/-- Condition code 1111 stands for no condition (R96). -/
theorem fieldCond_reserved {w : Word} (h : w.extractLsb' 22 4 = 15#4) : fieldCond w = none := by
  rw [fieldCond, h]
  rfl

theorem decodeWord_reservedOpcode {w : Word} (h : (fieldOp w).toNat ∈ [14, 15, 28, 29, 30]) :
    decodeWord w = .error .reservedOpcode := by
  simp only [List.mem_cons, List.not_mem_nil, or_false] at h
  rcases h with h | h | h | h | h <;> simp only [decodeWord, h]

/-- Every format with a condition field rejects condition code 1111 first. -/
theorem decodeWord_reservedCondition {w : Word} (h : (fieldOp w).toNat ∈ [24, 25, 26, 27, 31])
    (hc : w.extractLsb' 22 4 = 15#4) : decodeWord w = .error .reservedCondition := by
  have hc := fieldCond_reserved hc
  simp only [List.mem_cons, List.not_mem_nil, or_false] at h
  rcases h with h | h | h | h | h <;> rw [decodeWord, h]
  · simp only [decodeJump, hc]
  · simp only [decodeJump, hc]
  · simp only [decodeJr, hc]
  · simp only [decodeReturn, hc]
  · simp only [decodeHalt, hc]

theorem decodeReturn_reservedKind {w : Word} (hk : w.extractLsb' 0 2 = 2#2) : ∃ e, decodeReturn w = .error e := by
  unfold decodeReturn
  rw [hk]
  split
  · exact ⟨_, rfl⟩
  · split
    · exact ⟨_, rfl⟩
    · split <;> exact ⟨_, rfl⟩

/-- The three bits that choose the form of MOVE, from the two SR bits (bit 22 is free). -/
theorem moveKind_sr {w : Word} (hs : w.extractLsb' 20 2 = 3#2) :
    (w.extractLsb' 20 3).toNat = 3 ∨ (w.extractLsb' 20 3).toNat = 7 := by
  have hs := congrArg BitVec.toNat hs
  simp only [BitVec.extractLsb'_toNat, Nat.shiftRight_eq_div_pow, BitVec.toNat_ofNat] at hs ⊢
  omega

theorem decodeMove_srToSr {w : Word} (hs : w.extractLsb' 20 2 = 3#2) : ∃ e, decodeMove w = .error e := by
  unfold decodeMove
  rcases moveKind_sr hs with h | h <;> rw [h] <;> exact ⟨_, rfl⟩

/-- The same three bits, from `srcSR` alone. -/
theorem moveKind_srcSr {w : Word} (hs : w.extractLsb' 21 1 = 1#1) :
    (w.extractLsb' 20 3).toNat = 2 ∨ (w.extractLsb' 20 3).toNat = 3 ∨ (w.extractLsb' 20 3).toNat = 6 ∨
      (w.extractLsb' 20 3).toNat = 7 := by
  have hs := congrArg BitVec.toNat hs
  simp only [BitVec.extractLsb'_toNat, Nat.shiftRight_eq_div_pow, BitVec.toNat_ofNat] at hs ⊢
  omega

theorem decodeMove_srConstant {w : Word} (hs : w.extractLsb' 21 1 = 1#1) (hm : fieldMode w = true) :
    ∃ e, decodeMove w = .error e := by
  unfold decodeMove
  rcases moveKind_srcSr hs with h | h | h | h <;> simp only [h, hm] <;> exact ⟨_, rfl⟩

theorem decodeJr_register {w : Word} (hm : fieldMode w = false) : ∃ e, decodeJr w = .error e := by
  unfold decodeJr
  rw [hm]
  split <;> exact ⟨_, rfl⟩

theorem decodeStack_constant {mk : Reg → Instr} {w : Word} (hm : fieldMode w = true) :
    ∃ e, decodeStack mk w = .error e := by
  unfold decodeStack
  rw [hm]
  exact ⟨_, rfl⟩

theorem decodeCmp_dest {w : Word} (hd : w.extractLsb' 23 3 ≠ 0#3) : ∃ e, decodeCmp w = .error e := by
  have hd : bitsZero w 23 3 = false := Bool.eq_false_of_not_eq_true fun h => hd ((bitsZero_iff w 23 3).mp h)
  unfold decodeCmp
  rw [hd]
  exact ⟨_, rfl⟩

/-- Settles O4: each pattern is rejected by the decoder of its format, and the reserved codes before any format. -/
theorem reservedPatternsAreRejected : Obligations.ReservedPatternsAreRejected := by
  intro w
  refine ⟨decodeWord_reservedOpcode, decodeWord_reservedCondition, ?returnKind, ?srToSr, ?srConstant, ?jr, ?stack, ?cmp⟩
  case returnKind =>
    intro hop hk
    rw [decodeWord, hop]
    exact decodeReturn_reservedKind hk
  case srToSr =>
    intro hop hs
    rw [decodeWord, hop]
    exact decodeMove_srToSr hs
  case srConstant =>
    intro hop hs hm
    rw [decodeWord, hop]
    exact decodeMove_srConstant hs ((fieldMode_iff w).mpr hm)
  case jr =>
    intro hop hm
    rw [decodeWord, hop]
    exact decodeJr_register ((fieldMode_false_iff w).mpr hm)
  case stack =>
    intro hop hm
    simp only [List.mem_cons, List.not_mem_nil, or_false] at hop
    rcases hop with hop | hop <;> rw [decodeWord, hop] <;> exact decodeStack_constant ((fieldMode_iff w).mpr hm)
  case cmp =>
    intro hop hd
    rw [decodeWord, hop]
    exact decodeCmp_dest hd

end Sys2Proof.Machine

/-! SUPPORT. Once everything an instruction can do to the state (10_state.md R22, R29 to R34), and from it, with
`step_cases`, what every step keeps: registers, flags, memory, IIF, GIE, the platform and the invariant. -/

namespace Sys2Proof.Machine

/-! ### What an instruction can do -/

/-- The return that belongs to an interrupt (60_exceptions.md R219). -/
def returnInstr (cc : Cond) : InterruptKind → Instr
  | .maskable => .reti cc
  | .nonMaskable => .retn cc

/-- What `i` can turn `s` into: one constructor per way the arms of `exec` build their next state, with what the tables
`regsWritten`, `writesFlags` and `storesMemory` say of the instructions that do it. -/
inductive Effect (i : Instr) (s : State) : State → Prop where
  /-- the arithmetic and logic instructions: a result and its flags -/
  | result (d : Reg) (x : Word × Flags) (hd : regsWritten i = [d]) (hf : writesFlags i = true) :
      Effect i s (s.putResult d x)
  /-- the shifts and rotations -/
  | shift (kind : ShiftKind) (a n : Word) (d : Reg) (hd : regsWritten i = [d]) (hf : writesFlags i = true) :
      Effect i s (s.putShift kind a n d)
  /-- CMP -/
  | compare (f : Flags) (hf : writesFlags i = true) : Effect i s (s.setFlags f)
  /-- MOVE to SR -/
  | sr (v : Word) (hf : writesFlags i = true) (hi : (∃ r, i = .moveToSrReg r) ∨ ∃ k, i = .moveToSrImm k) :
      Effect i s (s.putSr v)
  /-- MOVE to a register, and the loads, which may draw free values -/
  | reg (d : Reg) (v : Word) (n : Nat) (hd : regsWritten i = [d]) :
      Effect i s (State.setReg { s with draws := n } d v)
  /-- the stores -/
  | store (a v : Word) (w : Width) (t : State) (hs : storesMemory i = true) (ht : s.memWrite a w v = .ok t) :
      Effect i s t
  /-- PUSH, and CALL with its target -/
  | push (a v pc : Word) (t : State) (hs : storesMemory i = true) (hd : regsWritten i = [.r7])
      (ht : s.growStack.memWrite a .word v = .ok t) : Effect i s (t.setPc pc)
  /-- POP -/
  | pop (d : Reg) (v : Word) (n : Nat) (hd : regsWritten i = [d, .r7]) :
      Effect i s (State.setReg { s with draws := n } d v).shrinkStack
  /-- the jumps, and a control instruction whose condition is false -/
  | jump (pc : Word) : Effect i s (s.setPc pc)
  /-- a taken RET -/
  | ret (v : Word) (n : Nat) (hd : regsWritten i = [.r7]) : Effect i s (State.setPc { s with draws := n } v).shrinkStack
  /-- a taken RETI or RETN -/
  | returnFrom (k : InterruptKind) (cc : Cond) (v : Word) (n : Nat) (hi : i = returnInstr cc k)
      (hcc : s.cond cc = true) :
      Effect i s ((State.setPc { s with draws := n } v).shrinkStack.setEnable k true)
  /-- a taken HALT -/
  | halt : Effect i s { s with halted := true }

theorem finish_next {r : Except Fault State} {t : State} (h : finish r = .next t) : r = .ok t := by
  cases r with
  | ok s => cases h; rfl
  | error f => cases h

/-- A control instruction does what it does when taken, or nothing. -/
theorem Effect.of_when {i : Instr} {s t : State} {cc : Cond} {taken : StepOutcome}
    (ht : s.cond cc = true → taken = .next t → Effect i s t) (h : s.when cc taken = .next t) : Effect i s t := by
  unfold State.when at h
  split at h
  case isTrue hcc => exact ht hcc h
  case isFalse => cases h; exact .jump s.pc

theorem Effect.of_loadInto {i : Instr} {s t : State} {d : Reg} {ea : Word} {w : Width} (hd : regsWritten i = [d])
    (h : finish (s.loadInto d ea w) = .next t) : Effect i s t := by
  have h := finish_next h
  unfold State.loadInto at h
  split at h
  case h_1 => cases h
  case h_2 v s1 hr =>
    obtain ⟨n, rfl⟩ := State.memRead_state hr
    cases h
    exact .reg d v n hd

theorem Effect.of_pop {s t : State} {d : Reg} (h : execPop d s = .next t) : Effect (.pop d) s t := by
  unfold execPop at h
  split at h
  case h_1 => cases h
  case h_2 v s1 hr =>
    obtain ⟨n, rfl⟩ := State.memRead_state hr
    cases h
    exact .pop d v n rfl

theorem Effect.of_callAbs {s t : State} {cc : Cond} {k : Int} (h : execCallAbs cc k s = .next t) :
    Effect (.callAbs cc k) s t := by
  refine .of_when (fun _ h => ?_) h
  split at h
  case h_1 => cases h
  case h_2 s1 hp => cases h; exact .push _ _ _ s1 rfl rfl hp

theorem Effect.of_callReg {s t : State} {cc : Cond} {r : Reg} (h : execCallReg cc r s = .next t) :
    Effect (.callReg cc r) s t := by
  refine .of_when (fun _ h => ?_) h
  split at h
  case h_1 => cases h
  case h_2 s1 hp => cases h; exact .push _ _ _ s1 rfl rfl hp

theorem Effect.of_ret {s t : State} {cc : Cond} (h : execRet cc s = .next t) : Effect (.ret cc) s t := by
  refine .of_when (fun _ h => ?_) h
  obtain ⟨v, n, -, rfl⟩ := State.popPc_cases (finish_next h)
  exact .ret v n rfl

theorem Effect.of_returnFrom {s t : State} {cc : Cond} {k : InterruptKind}
    (h : s.when cc (finish (s.returnFrom k)) = .next t) : Effect (returnInstr cc k) s t := by
  refine .of_when (fun hcc h => ?_) h
  have h := finish_next h
  unfold State.returnFrom at h
  split at h
  case h_1 => cases h
  case h_2 s1 hp =>
    obtain ⟨v, n, -, rfl⟩ := State.popPc_cases hp
    cases h
    exact .returnFrom k cc v n rfl hcc

/-- Everything an instruction can do when it answers a next state. -/
theorem exec_effect {i : Instr} {s t : State} (h : exec i s = .next t) : Effect i s t := by
  cases i with
  | orReg | andReg | xorReg | addReg | adcReg | subReg | sbcReg => cases h; exact .result _ _ rfl rfl
  | orImm | andImm | xorImm | addImm | adcImm | subImm | sbcImm => cases h; exact .result _ _ rfl rfl
  | rotlReg | rotrReg | shlReg | shrReg | ashrReg => cases h; exact .shift _ _ _ _ rfl rfl
  | rotlImm | rotrImm | shlImm | shrImm | ashrImm => cases h; exact .shift _ _ _ _ rfl rfl
  | cmpReg | cmpImm => cases h; exact .compare _ rfl
  | moveReg | moveImm | moveFromSr => cases h; exact .reg _ _ s.draws rfl
  | moveToSrReg r => cases h; exact .sr _ rfl (.inl ⟨r, rfl⟩)
  | moveToSrImm k => cases h; exact .sr _ rfl (.inr ⟨k, rfl⟩)
  | loadAbs | loadOff | loadhAbs | loadhOff | loadbAbs | loadbOff => exact .of_loadInto rfl h
  | storeAbs | storeOff | storehAbs | storehOff | storebAbs | storebOff => exact .store _ _ _ t rfl (finish_next h)
  | push => exact .push _ _ t.pc t rfl rfl (finish_next h)
  | pop => exact .of_pop h
  | jpAbs | jpReg | jr => exact .of_when (fun _ h => by cases h; exact .jump _) h
  | callAbs => exact .of_callAbs h
  | callReg => exact .of_callReg h
  | ret => exact .of_ret h
  | reti => exact .of_returnFrom (k := .maskable) h
  | retn => exact .of_returnFrom (k := .nonMaskable) h
  | halt => exact .of_when (fun _ h => by cases h; exact .halt) h

/-! ### What a write leaves, by name -/

theorem State.memWrite_regs {s t : State} {a v : Word} {w : Width} (h : s.memWrite a w v = .ok t) :
    t.regs = s.regs := by
  obtain ⟨h, -⟩ := State.memWrite_frame h
  exact h

theorem State.memWrite_sr {s t : State} {a v : Word} {w : Width} (h : s.memWrite a w v = .ok t) : t.sr = s.sr := by
  obtain ⟨-, -, h, -⟩ := State.memWrite_frame h
  exact h

theorem State.memWrite_iif {s t : State} {a v : Word} {w : Width} (h : s.memWrite a w v = .ok t) : t.iif = s.iif := by
  obtain ⟨-, -, -, h, -⟩ := State.memWrite_frame h
  exact h

theorem State.memWrite_platform {s t : State} {a v : Word} {w : Width} (h : s.memWrite a w v = .ok t) :
    samePlatform s t := by
  obtain ⟨-, -, -, -, -, -, h⟩ := State.memWrite_frame h
  exact h

/-! ### Registers, flags and memory -/

/-- Settles O44: by the effect; what is written is `d` or R7, which the table lists. -/
theorem registersChangeOnlyAsListed : Obligations.RegistersChangeOnlyAsListed := by
  intro i s t r h hr
  cases exec_effect h with
  | result d x hd => rw [State.getReg_putResult, if_neg (by simpa [hd] using hr)]
  | shift kind a n d hd =>
    obtain ⟨hregs, -⟩ := State.putShift_spec s kind a n d
    rw [hregs, if_neg (by simpa [hd] using hr)]
  | compare f => exact State.setFlags_getReg s f r
  | sr v => exact State.putSr_getReg s v r
  | reg d v n hd => exact State.getReg_setReg_ne _ v (by simpa [hd] using hr)
  | store a v w _ _ ht => exact congrArg (RegFile.get · r) (State.memWrite_regs ht)
  | push a v pc t1 _ hd ht =>
    have hregs : t1.getReg r = s.growStack.getReg r := congrArg (RegFile.get · r) (State.memWrite_regs ht)
    rw [State.setPc_getReg, hregs, State.getReg_growStack, if_neg (by simpa [hd] using hr)]
  | pop d v n hd =>
    obtain ⟨hrd, hr7⟩ : r ≠ d ∧ r ≠ .r7 := by simpa [hd] using hr
    rw [State.getReg_shrinkStack, if_neg hr7]
    exact State.getReg_setReg_ne _ v hrd
  | jump pc => exact State.setPc_getReg s pc r
  | ret v n hd =>
    rw [State.getReg_shrinkStack, if_neg (by simpa [hd] using hr)]
    rfl
  | returnFrom k cc v n hi =>
    have hr7 : r ≠ .r7 := by subst hi; cases k <;> simpa [returnInstr, regsWritten] using hr
    rw [State.getReg_setEnable, State.getReg_shrinkStack, if_neg hr7]
    rfl
  | halt => rfl

/-- Flags are read from SR alone. -/
theorem State.flags_of_sr {s t : State} (h : t.sr = s.sr) : t.flags = s.flags := by
  simp only [State.flags, State.flagN, State.flagC, State.flagV, State.flagZ, h]

/-- Settles O45: by the effect; the others write no SR, or its GIE alone. -/
theorem flagsChangeOnlyAsListed : Obligations.FlagsChangeOnlyAsListed := by
  intro i s t h hi
  cases exec_effect h with
  | result _ _ _ hf | shift _ _ _ _ _ hf | compare _ hf | sr _ hf => rw [hf] at hi; cases hi
  | reg | pop | jump | ret | halt => rfl
  | store a v w _ _ ht => exact State.flags_of_sr (State.memWrite_sr ht)
  | push a v pc t1 _ _ ht => exact State.flags_of_sr (s := s.growStack) (t := t1) (State.memWrite_sr ht)
  | returnFrom k cc v n => exact State.setEnable_flags _ k true

theorem unchanged_of_eq {s t : State} (hm : t.mem = s.mem) (hc : t.cts = s.cts) (hp : t.pios = s.pios)
    (hd : t.dmas = s.dmas) : sameMemory s t ∧ sameUnits s t :=
  ⟨fun a => State.byteAt_of_mem_eq hm a, hc, hp, hd⟩

/-- Settles O46: by the effect; only the stores and the pushes go through `memWrite`. -/
theorem memoryChangesOnlyByStores : Obligations.MemoryChangesOnlyByStores := by
  intro i s t h hi
  cases exec_effect h with
  | store _ _ _ _ hs | push _ _ _ _ hs => rw [hs] at hi; cases hi
  | result | compare | sr | reg | pop | jump | ret | halt => exact unchanged_of_eq rfl rfl rfl rfl
  | shift => exact unchanged_of_eq (by simp) (by simp) (by simp) (by simp)
  | returnFrom k => exact unchanged_of_eq (by simp) (by simp) (by simp) (by simp)

/-! ### IIF and GIE -/

/-- Of the instructions only a taken RETN sets IIF. -/
theorem exec_sets_iif {i : Instr} {s t : State} (h : exec i s = .next t) (hs : s.iif = false) (ht : t.iif = true) :
    ∃ cc, i = .retn cc ∧ s.cond cc = true := by
  cases exec_effect h with
  | returnFrom k cc v n hi hcc =>
    cases k with
    | maskable => exact absurd (hs.symm.trans ht) Bool.false_ne_true
    | nonMaskable => exact ⟨cc, hi, hcc⟩
  | store a v w _ _ hw | push a v pc t1 _ _ hw =>
    exact absurd (hs.symm.trans ((State.memWrite_iif hw).symm.trans ht)) Bool.false_ne_true
  | shift =>
    rw [State.putShift_iif, hs] at ht
    cases ht
  | result | compare | sr | reg | pop | jump | ret | halt => exact absurd (hs.symm.trans ht) Bool.false_ne_true

/-- GIE is one of the bits that the flag instructions leave alone. -/
theorem State.gie_of_upperSr {s t : State} (h : sameUpperSr s t) : t.gie = s.gie := by
  have hbit (x : BitVec 8) : x.getLsbD 4 = (x.extractLsb' 4 4).getLsbD 0 := by simp
  rw [State.gie, State.gie, hbit, hbit s.sr, h]

theorem State.gie_of_sr {s t : State} (h : t.sr = s.sr) : t.gie = s.gie := congrArg (BitVec.getLsbD · 4) h

/-- Of the instructions only a taken RETI and MOVE to SR set GIE. -/
theorem exec_sets_gie {i : Instr} {s t : State} (h : exec i s = .next t) (hs : s.gie = false) (ht : t.gie = true) :
    (∃ cc, i = .reti cc ∧ s.cond cc = true) ∨ (∃ r, i = .moveToSrReg r) ∨ ∃ k, i = .moveToSrImm k := by
  have absurd_of (hu : t.gie = s.gie) : False := Bool.false_ne_true (hs.symm.trans (hu.symm.trans ht))
  cases exec_effect h with
  | returnFrom k cc v n hi hcc =>
    cases k with
    | maskable => exact .inl ⟨cc, hi, hcc⟩
    | nonMaskable => exact (absurd_of rfl).elim
  | sr v hf hi => exact .inr hi
  | result d x => exact (absurd_of (State.gie_of_upperSr (srWithFlags_upper s.sr x.2))).elim
  | compare f => exact (absurd_of (State.gie_of_upperSr (srWithFlags_upper s.sr f))).elim
  | shift kind a n d =>
    obtain ⟨-, -, hupper⟩ := State.putShift_spec s kind a n d
    exact (absurd_of (State.gie_of_upperSr hupper)).elim
  | store a v w _ _ hw => exact (absurd_of (State.gie_of_sr (State.memWrite_sr hw))).elim
  | push a v pc t1 _ _ hw =>
    exact (absurd_of (State.gie_of_sr (s := s.growStack) (t := t1) (State.memWrite_sr hw))).elim
  | reg | pop | jump | ret | halt => exact (absurd_of rfl).elim

/-! ### The boundary and the fetch -/

/-- The events of a boundary touch nothing of the processor and no platform. -/
theorem State.afterBoundary_frame {s s1 : State} (h : s.afterBoundary = .ok s1) :
    sameProcessor s s1 ∧ s1.inputs = s.inputs.tail ∧ samePlatform s s1 := by
  have := State.applyEvents_induction (P := fun s t => sameProcessor s t ∧ t.inputs = s.inputs ∧ samePlatform s t)
    (fun s => ⟨⟨rfl, rfl, rfl, rfl, rfl⟩, rfl, .refl s⟩)
    (fun s e t u he ⟨hp, hi, hpl⟩ =>
      have ⟨hp', hi', hpl'⟩ := State.applyEvent_frame he
      ⟨hp'.trans hp, hi.trans hi', hpl'.trans hpl⟩) _ _ _ h
  exact this

/-- The fetch moves PC and may draw free values. -/
theorem State.fetch_state {s s1 : State} {w : Word} (h : s.fetch = .ok (w, s1)) :
    ∃ n, s1 = State.setPc { s with draws := n } (s.pc + 4#32) := by
  unfold State.fetch at h
  split at h
  case h_1 => cases h
  case h_2 v s2 hr =>
    obtain ⟨n, rfl⟩ := State.memRead_state hr
    cases h
    exact ⟨n, rfl⟩

/-- A halting transfer moves at most one datum. -/
theorem State.dmaHalted_cases {s t : State} (h : s.dmaHalted = .ok t) : t = s ∨ ∃ k, s.dmaMove k = .ok t := by
  unfold State.dmaHalted at h
  split at h
  case h_1 k _ => exact .inr ⟨k, h⟩
  case h_2 => cases h; exact .inl rfl

theorem State.dmaHalted_frame {s t : State} (h : s.dmaHalted = .ok t) : sameProcessor s t ∧ samePlatform s t := by
  rcases State.dmaHalted_cases h with rfl | ⟨k, hk⟩
  · exact ⟨⟨rfl, rfl, rfl, rfl, rfl⟩, .refl _⟩
  · have ⟨hp, _, hpl⟩ := State.dmaMove_frame hk
    exact ⟨hp, hpl⟩

/-- Taking an interrupt sets no enable. -/
theorem setEnable_false_iif {s : State} {k : InterruptKind} (h : (s.setEnable k false).iif = true) : s.iif = true := by
  cases k with
  | maskable => exact h
  | nonMaskable => cases h

theorem setEnable_false_gie {s : State} {k : InterruptKind} (h : (s.setEnable k false).gie = true) : s.gie = true := by
  cases k with
  | maskable => rw [State.setEnable, State.setGie_gie] at h; cases h
  | nonMaskable => exact h

/-- The state in which an instruction executes is the one after the boundary, but for PC and draws. -/
theorem State.Executes.after_fetch {s s1 s2 : State} {i : Instr} (hb : s.afterBoundary = .ok s1)
    (h : s.Executes i s2) : s1.halted = false ∧ ∃ n, s2 = State.setPc { s1 with draws := n } (s1.pc + 4#32) := by
  obtain ⟨s1', w, ⟨hb', -, hh⟩, -, hf, -⟩ := h
  obtain rfl : s1' = s1 := Except.ok.inj (hb'.symm.trans hb)
  exact ⟨hh, State.fetch_state hf⟩

/-- Settles O47: neither the boundary, a datum nor an interrupt entry sets IIF, so the step executed an instruction,
which is a taken RETN. -/
theorem onlyRetnSetsIif : Obligations.OnlyRetnSetsIif := by
  intro s t h hs ht
  obtain ⟨s1, hb, hcases⟩ := step_cases h
  obtain ⟨⟨-, -, -, hiif, -⟩, -⟩ := State.afterBoundary_frame hb
  have hs1 : s1.iif = false := hiif.trans hs
  rcases hcases with ⟨-, hd⟩ | ⟨-, -, rfl⟩ | ⟨k, -, -, hk⟩ | ⟨i, s2, hex, hi⟩
  · obtain ⟨⟨-, -, -, hd, -⟩, -⟩ := State.dmaHalted_frame hd
    exact absurd (hs1.symm.trans (hd.symm.trans ht)) Bool.false_ne_true
  · exact absurd (hs1.symm.trans ht) Bool.false_ne_true
  · obtain ⟨-, -, hk, -⟩ := State.takeInterrupt_frame hk
    exact absurd (hs1.symm.trans (setEnable_false_iif (hk.symm.trans ht))) Bool.false_ne_true
  · obtain ⟨-, n, rfl⟩ := hex.after_fetch hb
    obtain ⟨cc, rfl, hcc⟩ := exec_sets_iif hi hs1 ht
    exact ⟨cc, _, hex, hcc⟩

/-- Settles O48: as for IIF, with MOVE to SR beside the return. -/
theorem onlyRetiAndMoveSetGie : Obligations.OnlyRetiAndMoveSetGie := by
  intro s t h hs ht
  obtain ⟨s1, hb, hcases⟩ := step_cases h
  obtain ⟨⟨-, -, hsr, -, -⟩, -⟩ := State.afterBoundary_frame hb
  have hs1 : s1.gie = false := (State.gie_of_sr hsr).trans hs
  rcases hcases with ⟨-, hd⟩ | ⟨-, -, rfl⟩ | ⟨k, -, -, hk⟩ | ⟨i, s2, hex, hi⟩
  · obtain ⟨⟨-, -, hd, -, -⟩, -⟩ := State.dmaHalted_frame hd
    exact absurd (hs1.symm.trans ((State.gie_of_sr hd).symm.trans ht)) Bool.false_ne_true
  · exact absurd (hs1.symm.trans ht) Bool.false_ne_true
  · obtain ⟨-, hk, -⟩ := State.takeInterrupt_frame hk
    exact absurd (hs1.symm.trans (setEnable_false_gie ((State.gie_of_sr hk).symm.trans ht))) Bool.false_ne_true
  · obtain ⟨-, n, rfl⟩ := hex.after_fetch hb
    exact ⟨i, _, hex, exec_sets_gie hi hs1 ht⟩

/-! ### A processor that stands still -/

/-- Settles O49: the events and a datum leave the processor alone, and a halted one neither takes an interrupt nor
executes. -/
theorem haltedProcessorStandsStill : Obligations.HaltedProcessorStandsStill := by
  intro s t hs h
  obtain ⟨s1, hb, hcases⟩ := step_cases h
  obtain ⟨hp, -⟩ := State.afterBoundary_frame hb
  have hs1 : s1.halted = true := by
    obtain ⟨-, -, -, -, hh⟩ := hp
    exact hh.trans hs
  rcases hcases with ⟨-, hd⟩ | ⟨-, -, rfl⟩ | ⟨k, ⟨-, -, hh⟩, -, -⟩ | ⟨i, s2, hex, -⟩
  · exact hp.trans (State.dmaHalted_frame hd).1
  · exact hp
  · exact absurd (hh.symm.trans hs1) Bool.false_ne_true
  · exact absurd ((hex.after_fetch hb).1.symm.trans hs1) Bool.false_ne_true

/-- Settles O50: while a transfer holds the processor the step is at most a datum. -/
theorem haltingDmaStopsTheProcessor : Obligations.HaltingDmaStopsTheProcessor := by
  intro s s1 t hb hd h
  obtain ⟨hp, -⟩ := State.afterBoundary_frame hb
  have hstep : finish s1.dmaHalted = .next t := by
    rw [← h]
    simp only [step, hb, State.processorStep, hd, if_true]
  exact hp.trans (State.dmaHalted_frame (finish_next hstep)).1

/-! ### The platform -/

theorem exec_platform {i : Instr} {s t : State} (h : exec i s = .next t) : samePlatform s t := by
  cases exec_effect h with
  | store a v w _ _ hw => exact State.memWrite_platform hw
  | push a v pc t1 _ _ hw =>
    have ht1 : samePlatform s.growStack t1 := State.memWrite_platform hw
    exact ht1
  | shift | returnFrom => exact .of_eq (by simp) (by simp) (by simp) (by simp)
  | result | compare | sr | reg | pop | jump | ret | halt => exact .of_eq rfl rfl rfl rfl

/-- Settles O51: neither the boundary, a datum, an interrupt entry nor an instruction changes the platform. -/
theorem platformNeverChanges : Obligations.PlatformNeverChanges := by
  intro s t h
  obtain ⟨s1, hb, hcases⟩ := step_cases h
  obtain ⟨-, -, hpl⟩ := State.afterBoundary_frame hb
  rcases hcases with ⟨-, hd⟩ | ⟨-, -, rfl⟩ | ⟨k, -, -, hk⟩ | ⟨i, s2, hex, hi⟩
  · exact hpl.trans (State.dmaHalted_frame hd).2
  · exact hpl
  · obtain ⟨-, -, -, -, -, hk⟩ := State.takeInterrupt_frame hk
    exact hpl.trans hk
  · obtain ⟨-, n, rfl⟩ := hex.after_fetch hb
    have ht := exec_platform hi
    exact hpl.trans ht

/-! ### The invariant -/

theorem State.dmaMove_inv {s t : State} {k : Nat} (hs : s.Inv) (h : s.dmaMove k = .ok t) : t.Inv := by
  unfold State.dmaMove at h
  split at h
  case h_1 => cases h; exact hs
  case h_2 u hu =>
    split at h
    case isTrue => cases h; exact hs
    case isFalse =>
      split at h
      case h_1 => cases h
      case h_2 v s1 hr =>
        obtain ⟨n, rfl⟩ := State.memRead_state hr
        split at h
        case h_1 => cases h
        case h_2 s2 hw =>
          have hdrawn : ({ s with draws := n } : State).Inv := hs.of_eq rfl (.of_eq rfl rfl rfl rfl)
          have hs2 : s2.Inv := State.memWrite_inv hdrawn hw
          split at h
          case h_1 => cases h; exact hs2
          case h_2 u2 hu2 =>
            cases h
            exact hs2.of_eq rfl (State.putDma_platform hu2 _ rfl rfl)

/-- An event that moves no datum leaves memory alone. -/
theorem State.applyEvent_mem {s t : State} {e : Event} (he : ∀ k, e ≠ .dmaDatum k) (h : s.applyEvent e = .ok t) :
    t.mem = s.mem := by
  cases e with
  | dmaDatum k => exact absurd rfl (he k)
  | ctPulse | pioTaken | pioInput =>
    simp only [State.applyEvent] at h
    split at h <;> cases h <;> rfl
  | ctWild | pioWild | dmaWild =>
    simp only [State.applyEvent] at h
    split at h
    · split at h <;> cases h <;> rfl
    · cases h; rfl

theorem State.applyEvent_inv {s t : State} {e : Event} (hs : s.Inv) (h : s.applyEvent e = .ok t) : t.Inv := by
  by_cases he : ∃ k, e = .dmaDatum k
  · obtain ⟨k, rfl⟩ := he
    exact State.dmaMove_inv hs h
  · obtain ⟨-, -, hpl⟩ := State.applyEvent_frame h
    exact hs.of_eq (State.applyEvent_mem (fun k hk => he ⟨k, hk⟩) h) hpl

theorem State.afterBoundary_inv {s s1 : State} (hs : s.Inv) (h : s.afterBoundary = .ok s1) : s1.Inv :=
  State.applyEvents_induction (P := fun s t => s.Inv → t.Inv) (fun _ hs => hs)
    (fun _ _ _ _ he hrest hs => hrest (State.applyEvent_inv hs he)) _ _ _ h (hs.of_eq rfl (.of_eq rfl rfl rfl rfl))

theorem State.takeInterrupt_inv {s t : State} {k : InterruptKind} (hs : s.Inv) (h : s.takeInterrupt k = .ok t) :
    t.Inv := by
  unfold State.takeInterrupt at h
  split at h
  case h_1 => cases h
  case h_2 s1 hp =>
    have hgrown : (s.setEnable k false).growStack.Inv :=
      hs.of_eq (by simp) (.of_eq (by simp) (by simp) (by simp) (by simp))
    have hs1 : s1.Inv := State.memWrite_inv hgrown hp
    cases k with
    | nonMaskable => cases h; exact hs1.of_eq rfl (.of_eq rfl rfl rfl rfl)
    | maskable =>
      simp only [State.enterHandler] at h
      split at h
      case h_1 => cases h
      case h_2 v s2 hr =>
        obtain ⟨n, rfl⟩ := State.memRead_state hr
        cases h
        exact hs1.of_eq rfl (.of_eq rfl rfl rfl rfl)

theorem exec_inv {i : Instr} {s t : State} (hs : s.Inv) (h : exec i s = .next t) : t.Inv := by
  have hpl := exec_platform h
  cases exec_effect h with
  | store a v w _ _ hw => exact State.memWrite_inv hs hw
  | push a v pc t1 _ _ hw =>
    have ht1 : t1.Inv := State.memWrite_inv (hs.of_eq (t := s.growStack) rfl (.of_eq rfl rfl rfl rfl)) hw
    exact ht1.of_eq rfl (.of_eq rfl rfl rfl rfl)
  | shift | returnFrom => exact hs.of_eq (by simp) hpl
  | result | compare | sr | reg | pop | jump | ret | halt => exact hs.of_eq rfl hpl

/-- Settles O52: each of the four things a step can do keeps the invariant: memory is written by `memWrite` alone. -/
theorem everyStepKeepsTheInvariant : Obligations.EveryStepKeepsTheInvariant := by
  intro s t hs h
  obtain ⟨s1, hb, hcases⟩ := step_cases h
  have hs1 : s1.Inv := State.afterBoundary_inv hs hb
  rcases hcases with ⟨-, hd⟩ | ⟨-, -, rfl⟩ | ⟨k, -, -, hk⟩ | ⟨i, s2, hex, hi⟩
  · rcases State.dmaHalted_cases hd with rfl | ⟨k, hk⟩
    · exact hs1
    · exact State.dmaMove_inv hs1 hk
  · exact hs1
  · exact State.takeInterrupt_inv hs1 hk
  · obtain ⟨-, n, rfl⟩ := hex.after_fetch hb
    have hs2 : (State.setPc { s1 with draws := n } (s1.pc + 4#32)).Inv := hs1.of_eq rfl (.of_eq rfl rfl rfl rfl)
    exact exec_inv hs2 hi

/-! ### Reset -/

/-- A state that lists no byte of memory has the invariant. -/
theorem State.Inv.of_mem_nil {s : State} (h : s.mem = []) : s.Inv := by
  refine ⟨by rw [h]; rfl, fun c hc => ?_⟩
  rw [h] at hc
  cases hc

/-- Settles O53: memory lists nothing after reset. -/
theorem resetHasTheInvariant : Obligations.ResetHasTheInvariant := State.Inv.of_mem_nil rfl

/-- Settles O54: each value is a field of `State.reset`, and no unit requests with its status flip-flop 0. -/
theorem resetState : Obligations.ResetState := by
  refine ⟨rfl, rfl, rfl, rfl, rfl, ?cts, ?pios, ?dmas, rfl, rfl⟩
  case cts =>
    intro u hu
    obtain rfl := List.mem_singleton.mp hu
    exact ⟨rfl, rfl, rfl⟩
  case pios =>
    intro u hu
    obtain rfl := List.mem_singleton.mp hu
    exact ⟨rfl, rfl, rfl, rfl, rfl⟩
  case dmas =>
    intro u hu
    obtain rfl := List.mem_singleton.mp hu
    exact ⟨rfl, rfl, rfl⟩

end Sys2Proof.Machine

/-! SUPPORT. What the flags of a difference say of its operands (40_alu.md R123), SBC (R127), and the 64-bit sums and
differences that the carry makes possible (R125, 90_conflicts.md C1). -/

namespace Sys2Proof.Machine

/-! ### SBC -/

/-- Settles O10: both forms write `subFlags` of their operands, adjusted by the carry less `SBC_BIAS`. -/
theorem sbcWritesAdjustedDifference : Obligations.SbcWritesAdjustedDifference := by
  intro a d s
  refine ⟨?sbcReg, ?sbcImm⟩
  case sbcReg =>
    exact fun b =>
      ⟨_, rfl, differenceFlags_putResult (s.getReg a) (s.getReg b) (sbcAdjust s.flagC s.params.sbcBias) d s⟩
  case sbcImm =>
    exact fun k => ⟨_, rfl, differenceFlags_putResult (s.getReg a) (sext20 k) (sbcAdjust s.flagC s.params.sbcBias) d s⟩

/-! ### The relations that the flags of a difference show -/

theorem difference_zero_iff {x y r : Word} (hr : (r.toNat : Int) = ((x.toNat : Int) - y.toNat + 0) % 2 ^ 32) :
    r = 0#32 ↔ x = y := by
  have hx := x.isLt
  have hy := y.isLt
  rw [BitVec.toNat_eq, BitVec.toNat_eq, BitVec.toNat_ofNat]
  omega

/-- The sign of the narrowed difference and its overflow differ exactly when the exact signed difference is negative. -/
theorem sign_ne_overflow_iff {x y r : Word} (hr : (r.toNat : Int) = ((x.toNat : Int) - y.toNat + 0) % 2 ^ 32) :
    ¬(2 ^ 31 ≤ r.toNat ↔ x.toInt - y.toInt + 0 < -2 ^ 31 ∨ 2 ^ 31 - 1 < x.toInt - y.toInt + 0) ↔ x.toInt < y.toInt := by
  have hx := x.isLt
  have hy := y.isLt
  rw [BitVec.toInt_eq_toNat_cond, BitVec.toInt_eq_toNat_cond]
  split <;> split <;> omega

theorem bool_ne_iff_not_iff {p q : Bool} {A B : Prop} (hp : p = true ↔ A) (hq : q = true ↔ B) :
    p ≠ q ↔ ¬(A ↔ B) := by
  rw [← hp, ← hq, ← Bool.eq_iff_iff]

/-- R123: the ten relational conditions, from the flags of `x - y`. -/
theorem relationsHold_of_differenceFlags {x y r : Word} {t : State} (h : DifferenceFlags x y 0 r t) :
    RelationsHold x y t := by
  obtain ⟨hr, hc, hv, hn, hz⟩ := h
  have hz : t.flagZ = true ↔ x = y := hz.trans (difference_zero_iff hr)
  have hc : t.flagC = true ↔ y.toNat ≤ x.toNat := hc.trans (by omega)
  have hslt : t.flagN ≠ t.flagV ↔ x.toInt < y.toInt := (bool_ne_iff_not_iff hn hv).trans (sign_ne_overflow_iff hr)
  have hc' : t.flagC = false ↔ x.toNat < y.toNat := by rw [← Bool.not_eq_true, hc, Nat.not_le]
  have hz' : t.flagZ = false ↔ x ≠ y := by rw [← Bool.not_eq_true, hz]
  have hnat : x = y ↔ x.toNat = y.toNat := BitVec.toNat_eq
  have hint : x = y ↔ x.toInt = y.toInt := BitVec.toInt_inj.symm
  refine ⟨hz, ?nz, ?nc, hc, ?ule, ?ugt, (State.cond_slt_iff t).trans hslt, ?sge, ?sle, ?sgt⟩
  case nz => exact (iff_of_eq (Bool.not_eq_true' t.flagZ)).trans hz'
  case nc => exact (iff_of_eq (Bool.not_eq_true' t.flagC)).trans hc'
  case ule => rw [State.cond_ule_iff, hc', hz, hnat, Nat.le_iff_lt_or_eq]
  case ugt => rw [State.cond_ugt_iff, hc, hz', Ne, hnat]; omega
  case sge => rw [State.cond_sge_iff, ← not_ne_iff, hslt, Int.not_lt]
  case sle => rw [State.cond_sle_iff, hslt, hz, hint, Int.le_iff_lt_or_eq]
  case sgt => rw [State.cond_sgt_iff, ← not_ne_iff, hslt, hz', Ne, hint]; omega

/-- Settles O12: CMP and SUB leave the flags of the difference, whatever becomes of the result. -/
theorem conditionsCompareTheOperands : Obligations.ConditionsCompareTheOperands := by
  intro a d s
  obtain ⟨hcmpReg, hcmpImm⟩ := cmpWritesFlagsOnly a s
  obtain ⟨hsubReg, hsubImm⟩ := subWritesDifferenceAndFlags a d s
  refine ⟨fun b => ?cmpReg, fun k => ?cmpImm, fun b => ?subReg, fun k => ?subImm⟩
  case cmpReg =>
    obtain ⟨t, r, ht, hd, -⟩ := hcmpReg b
    exact ⟨t, ht, relationsHold_of_differenceFlags hd⟩
  case cmpImm =>
    obtain ⟨t, r, ht, hd, -⟩ := hcmpImm k
    exact ⟨t, ht, relationsHold_of_differenceFlags hd⟩
  case subReg =>
    obtain ⟨t, ht, hd, -⟩ := hsubReg b
    exact ⟨t, ht, relationsHold_of_differenceFlags hd⟩
  case subImm =>
    obtain ⟨t, ht, hd, -⟩ := hsubImm k
    exact ⟨t, ht, relationsHold_of_differenceFlags hd⟩

/-! ### Two words -/

/-- The frame of one register, for another one. -/
theorem sameRegsBut.get_of_ne {d r : Reg} {s t : State} (h : sameRegsBut [d] s t) (hr : r ≠ d) :
    t.getReg r = s.getReg r := h r (mt List.eq_of_mem_singleton hr)

theorem bool_toNat_of_iff {c : Bool} {P : Prop} [Decidable P] (h : c = true ↔ P) : c.toNat = if P then 1 else 0 := by
  by_cases hP : P
  · rw [if_pos hP, h.mpr hP]; rfl
  · rw [if_neg hP, Bool.eq_false_of_not_eq_true (mt h.mp hP)]; rfl

/-- Settles O13: the carry of the low sum enters the high sum, and the frames keep the operands and the low result. -/
theorem addThenAdcIsLongAddition : Obligations.AddThenAdcIsLongAddition := by
  intro a0 a1 b0 b1 d0 d1 s ha hb hd
  obtain ⟨hadd, -⟩ := addAndAdcWriteSumAndFlags a0 d0 s
  obtain ⟨t, ht, hlow, hc, -, -, -, hregs, -⟩ := hadd b0
  obtain ⟨-, -, hadc, -⟩ := addAndAdcWriteSumAndFlags a1 d1 t
  obtain ⟨u, hu, hhigh, -, -, -, -, hregs', -⟩ := hadc b1
  refine ⟨t, u, ht, hu, ?_⟩
  rw [hregs'.get_of_ne hd, hlow, hhigh, hregs.get_of_ne ha.symm,
    hregs.get_of_ne hb.symm, bool_toNat_of_iff hc]
  split <;> omega

/-- Settles O14: the high difference takes the low one's borrow, less `SBC_BIAS`. -/
theorem subThenSbcLongSubtraction : Obligations.SubThenSbcLongSubtraction := by
  intro a0 a1 b0 b1 d0 d1 s ha hb hd
  obtain ⟨hsub, -⟩ := subWritesDifferenceAndFlags a0 d0 s
  obtain ⟨t, ht, ⟨hlow, hc, -, -, -⟩, hregs, -, ⟨-, -, hparams, -⟩, -⟩ := hsub b0
  obtain ⟨hsbc, -⟩ := sbcWritesAdjustedDifference a1 d1 t
  obtain ⟨u, hu, ⟨hhigh, -, -, -, -⟩, hregs', -⟩ := hsbc b1
  refine ⟨t, u, ht, hu, ?_⟩
  rw [hregs'.get_of_ne hd, hlow, hhigh, hregs.get_of_ne ha.symm,
    hregs.get_of_ne hb.symm, hparams, bool_toNat_of_iff hc]
  have := (s.getReg a0).isLt
  have := (s.getReg b0).isLt
  cases s.params.sbcBias <;> simp only [Bool.toNat_false, Bool.toNat_true, if_true, if_false, Bool.false_eq_true]
  · split <;> omega
  · split <;> omega

end Sys2Proof.Machine

/-! SUPPORT. The shift group (40_alu.md R132 to R138): the closed forms bit by bit, one place more, and what `putShift`
writes. -/

namespace Sys2Proof.Machine

/-! ### The closed forms, bit by bit: which bit of the operand bit `j` of the result is -/

theorem shiftValue_shl_bit (a : Word) (n : Nat) {j : Nat} (hj : j < 32) :
    (shiftValue .shl a n).getLsbD j = (decide (n ≤ j) && a.getLsbD (j - n)) := by
  simp only [shiftValue]
  split
  · simp only [BitVec.getLsbD_shiftLeft, hj, decide_true, Bool.true_and, ← decide_not, Nat.not_lt]
  · rw [decide_eq_false (by omega), BitVec.getLsbD_zero, Bool.false_and]

theorem shiftValue_shr_bit (a : Word) (n j : Nat) : (shiftValue .shr a n).getLsbD j = a.getLsbD (j + n) := by
  simp only [shiftValue]
  split
  · rw [BitVec.getLsbD_ushiftRight, Nat.add_comm]
  · rw [BitVec.getLsbD_zero, BitVec.getLsbD_of_ge _ _ (by omega)]

theorem shiftValue_ashr_bit (a : Word) (n : Nat) {j : Nat} (hj : j < 32) :
    (shiftValue .ashr a n).getLsbD j = a.getLsbD (min (j + n) 31) := by
  simp only [shiftValue]
  split
  · rw [BitVec.getLsbD_sshiftRight, decide_eq_false (Nat.not_le.mpr hj), Bool.not_false, Bool.true_and]
    split
    · rw [show min (j + n) 31 = n + j by omega]
    · rw [show min (j + n) 31 = 31 by omega, BitVec.msb_eq_getLsbD_last]
  · rw [show min (j + n) 31 = 31 by omega, BitVec.msb_eq_getLsbD_last]
    cases a.getLsbD 31 with
    | false => simp
    | true =>
      show (BitVec.allOnes 32).getLsbD j = true
      rw [BitVec.getLsbD_allOnes, decide_eq_true hj]

theorem shiftValue_rotl_bit (a : Word) (n : Nat) {j : Nat} (hj : j < 32) :
    (shiftValue .rotl a n).getLsbD j = a.getLsbD ((j + (32 - n % 32)) % 32) := by
  simp only [shiftValue, BitVec.getLsbD_rotateLeft, Nat.mod_mod, Bool.cond_decide]
  split
  · rw [show (j + (32 - n % 32)) % 32 = 32 - n % 32 + j by omega]
  · rw [decide_eq_true hj, Bool.true_and, show (j + (32 - n % 32)) % 32 = j - n % 32 by omega]

theorem shiftValue_rotr_bit (a : Word) (n : Nat) {j : Nat} (hj : j < 32) :
    (shiftValue .rotr a n).getLsbD j = a.getLsbD ((j + n) % 32) := by
  simp only [shiftValue, BitVec.getLsbD_rotateRight, Nat.mod_mod, Bool.cond_decide]
  split
  · rw [show (j + n) % 32 = n % 32 + j by omega]
  · rw [decide_eq_true hj, Bool.true_and, show (j + n) % 32 = j - (32 - n % 32) by omega]

theorem shiftValue_zero (kind : ShiftKind) (a : Word) : shiftValue kind a 0 = a := by
  refine BitVec.eq_of_getLsbD_eq fun j hj => ?_
  cases kind with
  | shl => simp [shiftValue_shl_bit a 0 hj]
  | shr => simp [shiftValue_shr_bit a 0 j]
  | ashr => rw [shiftValue_ashr_bit a 0 hj, show min (j + 0) 31 = j by omega]
  | rotl => rw [shiftValue_rotl_bit a 0 hj, show (j + (32 - 0 % 32)) % 32 = j by omega]
  | rotr => rw [shiftValue_rotr_bit a 0 hj, show (j + 0) % 32 = j by omega]

/-! ### One place more -/

/-- The bits of one step of one place are those of the closed form for one place. -/
theorem shiftStep_value (kind : ShiftKind) (v : Word) : (shiftStep kind v).1 = shiftValue kind v 1 := by
  refine BitVec.eq_of_getLsbD_eq fun j hj => ?_
  cases kind with
  | shl => rfl
  | shr => rfl
  | ashr =>
    rw [shiftValue_ashr_bit v 1 hj]
    simp only [shiftStep, BitVec.getLsbD_or, BitVec.getLsbD_and, BitVec.getLsbD_ushiftRight]
    have hmask : (0x80000000#32).getLsbD j = decide (j = 31) := by
      show (BitVec.twoPow 32 31).getLsbD j = _
      rw [BitVec.getLsbD_twoPow]
      simp [eq_comm]
    rw [hmask]
    by_cases h : j = 31
    · subst h; simp
    · rw [decide_eq_false h, Bool.and_false, Bool.false_or, show min (j + 1) 31 = 1 + j by omega]
  | rotl =>
    rw [shiftValue_rotl_bit v 1 hj]
    simp only [shiftStep, BitVec.getLsbD_or, BitVec.getLsbD_shiftLeft, BitVec.getLsbD_ushiftRight]
    rcases Nat.eq_zero_or_pos j with rfl | h
    · simp
    · rw [decide_eq_true hj, decide_eq_false (by omega), BitVec.getLsbD_of_ge v (31 + j) (by omega),
        show (j + (32 - 1 % 32)) % 32 = j - 1 by omega]
      simp
  | rotr =>
    rw [shiftValue_rotr_bit v 1 hj]
    simp only [shiftStep, BitVec.getLsbD_or, BitVec.getLsbD_shiftLeft, BitVec.getLsbD_ushiftRight]
    by_cases h : j = 31
    · subst h; simp
    · rw [decide_eq_true hj, decide_eq_true (by omega), show (j + 1) % 32 = 1 + j by omega]
      simp

theorem shiftValue_succ (kind : ShiftKind) (a : Word) (n : Nat) :
    shiftValue kind (shiftValue kind a n) 1 = shiftValue kind a (n + 1) := by
  refine BitVec.eq_of_getLsbD_eq fun j hj => ?_
  cases kind with
  | shl =>
    rw [shiftValue_shl_bit _ 1 hj, shiftValue_shl_bit a (n + 1) hj, shiftValue_shl_bit a n (by omega : j - 1 < 32)]
    by_cases h : n + 1 ≤ j
    · rw [decide_eq_true h, decide_eq_true (by omega : 1 ≤ j), decide_eq_true (by omega : n ≤ j - 1),
        show j - 1 - n = j - (n + 1) by omega, Bool.true_and]
    · rw [decide_eq_false h, Bool.false_and]
      rcases Nat.eq_zero_or_pos j with rfl | h0
      · rfl
      · rw [decide_eq_false (by omega : ¬n ≤ j - 1), Bool.false_and, Bool.and_false]
  | shr => rw [shiftValue_shr_bit, shiftValue_shr_bit, shiftValue_shr_bit, show j + 1 + n = j + (n + 1) by omega]
  | ashr =>
    rw [shiftValue_ashr_bit _ 1 hj, shiftValue_ashr_bit a (n + 1) hj, shiftValue_ashr_bit a n (by omega),
      show min (min (j + 1) 31 + n) 31 = min (j + (n + 1)) 31 by omega]
  | rotl =>
    rw [shiftValue_rotl_bit _ 1 hj, shiftValue_rotl_bit a (n + 1) hj, shiftValue_rotl_bit a n (by omega)]
    congr 1
    omega
  | rotr =>
    rw [shiftValue_rotr_bit _ 1 hj, shiftValue_rotr_bit a (n + 1) hj, shiftValue_rotr_bit a n (by omega)]
    congr 1
    omega

/-- The bit that leaves at the step after `n` places is the closed form's exit bit for `n + 1`. -/
theorem shiftStep_exit (kind : ShiftKind) (a : Word) (n : Nat) :
    (shiftStep kind (shiftValue kind a n)).2 = shiftExit kind a (n + 1) := by
  cases kind with
  | shl =>
    simp only [shiftStep, shiftExit, shiftValue_shl_bit a n (by omega : 31 < 32)]
    split
    · rw [decide_eq_true (by omega : n ≤ 31), Bool.true_and, show 31 - n = 32 - (n + 1) by omega]
    · rw [decide_eq_false (by omega : ¬n ≤ 31), Bool.false_and]
  | shr =>
    simp only [shiftStep, shiftExit, shiftValue_shr_bit a n 0]
    split
    · rw [show 0 + n = n + 1 - 1 by omega]
    · rw [BitVec.getLsbD_of_ge _ _ (by omega)]
  | ashr =>
    simp only [shiftStep, shiftExit, shiftValue_ashr_bit a n (by omega : 0 < 32)]
    split
    · rw [show min (0 + n) 31 = n + 1 - 1 by omega]
    · rw [show min (0 + n) 31 = 31 by omega, BitVec.msb_eq_getLsbD_last]
  | rotl =>
    simp only [shiftStep, shiftExit]
    rw [shiftValue_rotl_bit a n (by omega : 31 < 32), shiftValue_rotl_bit a (n + 1) (by omega : 0 < 32)]
    congr 1
    omega
  | rotr =>
    simp only [shiftStep, shiftExit]
    rw [shiftValue_rotr_bit a n (by omega : 0 < 32), shiftValue_rotr_bit a (n + 1) (by omega : 31 < 32)]
    congr 1
    omega

theorem shiftSteps_value (kind : ShiftKind) (a : Word) (n : Nat) : (shiftSteps kind a n).1 = shiftValue kind a n := by
  induction n with
  | zero => exact (shiftValue_zero kind a).symm
  | succ n ih =>
    calc (shiftSteps kind a (n + 1)).1
      _ = (shiftStep kind (shiftSteps kind a n).1).1 := rfl
      _ = shiftValue kind (shiftValue kind a n) 1 := by rw [ih, shiftStep_value]
      _ = shiftValue kind a (n + 1) := shiftValue_succ kind a n

/-- Settles O18: the result by induction on the count, the exit bit from the last step. -/
theorem shiftClosedFormsEqualSteps : Obligations.ShiftClosedFormsEqualSteps := by
  intro kind a n
  refine ⟨shiftSteps_value kind a n, fun hn => ?_⟩
  obtain ⟨m, rfl⟩ : ∃ m, n = m + 1 := ⟨n - 1, by omega⟩
  calc (shiftSteps kind a (m + 1)).2
    _ = some (shiftStep kind (shiftSteps kind a m).1).2 := rfl
    _ = some (shiftExit kind a (m + 1)) := by rw [shiftSteps_value, shiftStep_exit]

/-! ### What `putShift` writes -/

theorem aluFrame_putShift (s : State) (kind : ShiftKind) (a n : Word) (d : Reg) :
    aluFrame [d] s (s.putShift kind a n d) := by
  obtain ⟨hregs, -, hsr⟩ := State.putShift_spec s kind a n d
  refine ⟨?regs, hsr, ⟨?iif, ?halted, ?params, ?inputs⟩, ?memory, ⟨?cts, ?pios, ?dmas⟩, State.putShift_pc s kind a n d⟩
  case regs => exact fun r hr => (hregs r).trans (if_neg (List.ne_of_not_mem_cons hr))
  case memory => exact State.byteAt_of_mem_eq (State.putShift_mem s kind a n d)
  all_goals simp

/-- Everything stated of every count, and C for the counts of at least 1. -/
theorem shiftCommon_putShift (s : State) (kind : ShiftKind) (a n : Word) (d : Reg) :
    ShiftCommon a n.toNat d s (s.putShift kind a n d) ∧
      (s.putShift kind a n d).getReg d = shiftValue kind a n.toNat ∧
      (1 ≤ n.toNat → (s.putShift kind a n d).flagC = shiftExit kind a n.toNat) := by
  obtain ⟨hregs, ⟨c, hflags, hexit⟩, -⟩ := State.putShift_spec s kind a n d
  obtain ⟨hn, hc, hv, hz⟩ := State.readers_of_flags hflags
  have hd : (s.putShift kind a n d).getReg d = shiftValue kind a n.toNat := (hregs d).trans (if_pos rfl)
  refine ⟨⟨?zero, hv, ?sign, ?isZero, aluFrame_putShift s kind a n d⟩, hd, ?carry⟩
  case zero => exact fun h0 => by rw [hd, h0, shiftValue_zero]
  case sign => rw [hn, hd]; exact msb_iff_le_toNat _
  case isZero => rw [hz, hd]; exact beq_iff_eq
  case carry => exact fun h1 => hc.trans (hexit fun h0 => by simp [h0] at h1)

theorem shlSpec_putShift (s : State) (a n : Word) (d : Reg) : ShlSpec a n.toNat d s (s.putShift .shl a n d) := by
  obtain ⟨hcommon, hd, hc⟩ := shiftCommon_putShift s .shl a n d
  refine ⟨hcommon, fun h1 h32 => ?_, fun h33 => ?_⟩
  · rw [hd, hc h1, shiftValue, shiftExit, if_pos h32, if_pos h32, BitVec.toNat_shiftLeft, Nat.shiftLeft_eq]
    exact ⟨rfl, rfl⟩
  · rw [hd, hc (by omega), shiftValue, shiftExit, if_neg (by omega), if_neg (by omega)]
    exact ⟨rfl, rfl⟩

theorem shrSpec_putShift (s : State) (a n : Word) (d : Reg) : ShrSpec a n.toNat d s (s.putShift .shr a n d) := by
  obtain ⟨hcommon, hd, hc⟩ := shiftCommon_putShift s .shr a n d
  refine ⟨hcommon, fun h1 h32 => ?_, fun h33 => ?_⟩
  · rw [hd, hc h1, shiftValue, shiftExit, if_pos h32, if_pos h32, BitVec.toNat_ushiftRight, Nat.shiftRight_eq_div_pow]
    exact ⟨rfl, rfl⟩
  · rw [hd, hc (by omega), shiftValue, shiftExit, if_neg (by omega), if_neg (by omega)]
    exact ⟨rfl, rfl⟩

theorem ashrSpec_putShift (s : State) (a n : Word) (d : Reg) : AshrSpec a n.toNat d s (s.putShift .ashr a n d) := by
  obtain ⟨hcommon, hd, hc⟩ := shiftCommon_putShift s .ashr a n d
  refine ⟨hcommon, fun h1 h31 => ?_, fun h32 => ?_⟩
  · rw [hd, hc h1, shiftValue, shiftExit, if_pos h31, if_pos h31, BitVec.toInt_sshiftRight, Int.shiftRight_eq_div_pow]
    exact ⟨rfl, rfl⟩
  · have hn : ¬n.toNat ≤ 31 := by omega
    rw [hd, hc (by omega), shiftValue, shiftExit, if_neg hn, if_neg hn, BitVec.msb_eq_getLsbD_last]
    refine ⟨?_, rfl⟩
    cases a.getLsbD 31 <;> rfl

theorem rotlSpec_putShift (s : State) (a n : Word) (d : Reg) : RotlSpec a n.toNat d s (s.putShift .rotl a n d) := by
  obtain ⟨hcommon, hd, hc⟩ := shiftCommon_putShift s .rotl a n d
  refine ⟨hcommon, fun j hj => ?_, fun h1 => ?_⟩
  · rw [hd, shiftValue_rotl_bit a n.toNat (by omega)]
    congr 1
    omega
  · rw [hc h1, hd, shiftExit]

theorem rotrSpec_putShift (s : State) (a n : Word) (d : Reg) : RotrSpec a n.toNat d s (s.putShift .rotr a n d) := by
  obtain ⟨hcommon, hd, hc⟩ := shiftCommon_putShift s .rotr a n d
  refine ⟨hcommon, fun j hj => ?_, fun h1 => ?_⟩
  · rw [hd, shiftValue_rotr_bit a n.toNat hj]
  · rw [hc h1, hd, shiftExit]

/-- Settles O16: both forms of each shift are `putShift` of their operands. -/
theorem shiftsMultiplyAndDivide : Obligations.ShiftsMultiplyAndDivide := fun a d s =>
  ⟨fun b => ⟨_, rfl, shlSpec_putShift s (s.getReg a) (s.getReg b) d⟩,
    fun k => ⟨_, rfl, shlSpec_putShift s (s.getReg a) (sext20 k) d⟩,
    fun b => ⟨_, rfl, shrSpec_putShift s (s.getReg a) (s.getReg b) d⟩,
    fun k => ⟨_, rfl, shrSpec_putShift s (s.getReg a) (sext20 k) d⟩,
    fun b => ⟨_, rfl, ashrSpec_putShift s (s.getReg a) (s.getReg b) d⟩,
    fun k => ⟨_, rfl, ashrSpec_putShift s (s.getReg a) (sext20 k) d⟩⟩

/-- Settles O17: both forms of each rotation are `putShift` of their operands. -/
theorem rotationsMoveBitsRound : Obligations.RotationsMoveBitsRound := fun a d s =>
  ⟨fun b => ⟨_, rfl, rotlSpec_putShift s (s.getReg a) (s.getReg b) d⟩,
    fun k => ⟨_, rfl, rotlSpec_putShift s (s.getReg a) (sext20 k) d⟩,
    fun b => ⟨_, rfl, rotrSpec_putShift s (s.getReg a) (s.getReg b) d⟩,
    fun k => ⟨_, rfl, rotrSpec_putShift s (s.getReg a) (sext20 k) d⟩⟩

end Sys2Proof.Machine

/-! SUPPORT. Operands (30_encoding.md R91, R93; 42_memory_instructions.md R160), MOVE with SR (41_move.md R151, R152),
and the control instructions that touch no memory (43_control.md R182 to R186, R199). -/

namespace Sys2Proof.Machine

/-! ### Constants and addresses -/

/-- A constant that fits is the number its 32-bit extension stands for. -/
theorem sext20_toInt {k : Int} (h : fits20 k = true) : (sext20 k).toInt = k := by
  rw [sext20, BitVec.toInt_signExtend_of_le (by decide), imm20_toInt h]

/-- Adding a constant that fits is adding the number modulo 2^32. -/
theorem toNat_add_sext20 (a : Word) {k : Int} (h : fits20 k = true) :
    ((a + sext20 k).toNat : Int) = (a.toNat + k) % 2 ^ 32 := by
  have hk := sext20_toInt h
  have ha := a.isLt
  have hs := (sext20 k).isLt
  rw [BitVec.toInt_eq_toNat_cond] at hk
  rw [BitVec.toNat_add]
  split at hk <;> omega

theorem align_toNat_mul (a : Word) (w : Width) : (align a w).toNat = a.toNat / w.bytes * w.bytes := by
  rw [align_toNat, Nat.mod_eq_sub_div_mul, Nat.sub_sub_self (Nat.div_mul_le_self _ _)]

/-- Settles O24: the constant and the sum from `sext20`, the alignments from the remainder by the width. -/
theorem addressesWrapAndAlign : Obligations.AddressesWrapAndAlign := by
  intro k r s a
  refine ⟨fun hk => ⟨sext20_toInt hk, sext20_toInt hk, toNat_add_sext20 (s.getReg r) hk⟩, rfl, ?half, ?word⟩
  case half => exact align_toNat_mul a .half
  case word => exact align_toNat_mul a .word

/-! ### MOVE with SR -/

theorem exec_moveFromSr (d : Reg) (s : State) :
    exec (.moveFromSr d) s = .next (s.setReg d (s.sr.zeroExtend 32)) := rfl

/-- Settles O20: the low eight bits of the extension are those of SR, and the others are zero. -/
theorem moveReadsSr : Obligations.MoveReadsSr := by
  intro d s
  refine ⟨_, exec_moveFromSr d s, ?_⟩
  rw [State.getReg_setReg_self]
  have hbit {j : Nat} (hj : j < 32) : (s.sr.zeroExtend 32).getLsbD j = s.sr.getLsbD j := by
    rw [BitVec.zeroExtend, BitVec.getLsbD_setWidth, decide_eq_true hj, Bool.true_and]
  refine ⟨hbit (by decide), hbit (by decide), hbit (by decide), hbit (by decide), hbit (by decide), ?upper, ?zeros,
    regFrame_setReg s d _, State.setReg_pc s d _⟩
  case upper =>
    refine BitVec.eq_of_getLsbD_eq fun j hj => ?_
    rw [BitVec.getLsbD_extractLsb', BitVec.getLsbD_extractLsb', hbit (by omega)]
  case zeros =>
    refine BitVec.eq_of_getLsbD_eq fun j hj => ?_
    rw [BitVec.getLsbD_extractLsb', hbit (by omega), BitVec.getLsbD_of_ge _ _ (by omega), Bool.and_false,
      BitVec.getLsbD_zero]

/-- SR after a write from a word: each of its bits is the word's. -/
theorem State.putSr_bit (s : State) (v : Word) {j : Nat} (hj : j < 8) : (s.putSr v).sr.getLsbD j = v.getLsbD j := by
  rw [State.putSr_sr, BitVec.getLsbD_extractLsb', decide_eq_true hj, Bool.true_and, Nat.zero_add]

/-- Settles O21: both forms are `putSr` of the operand. -/
theorem moveWritesSr : Obligations.MoveWritesSr := by
  intro v s out hout
  have hout : out = .next (s.putSr v) := by
    rcases hout with ⟨b, rfl, rfl⟩ | ⟨k, rfl, rfl⟩ <;> rfl
  have hbit {j : Nat} (hj : j < 8) := s.putSr_bit v hj
  refine ⟨s.putSr v, hout, hbit (by decide), hbit (by decide), hbit (by decide), hbit (by decide), hbit (by decide),
    ?upper, fun r _ => State.putSr_getReg s v r, ⟨rfl, rfl, rfl, rfl⟩, fun a => State.putSr_byteAt s v a,
    ⟨rfl, rfl, rfl⟩, rfl⟩
  refine BitVec.eq_of_getLsbD_eq fun j hj => ?_
  rw [BitVec.getLsbD_extractLsb', BitVec.getLsbD_extractLsb', hbit (by omega)]

/-! ### Control without memory -/

theorem State.when_true {s : State} {cc : Cond} (h : s.cond cc = true) (o : StepOutcome) : s.when cc o = o := if_pos h

theorem State.when_false {s : State} {cc : Cond} (h : s.cond cc = false) (o : StepOutcome) : s.when cc o = .next s := by
  rw [State.when, h]
  rfl

/-- Settles O32: every control instruction is a `when`. -/
theorem falseConditionDoesNothing : Obligations.FalseConditionDoesNothing := by
  intro cc k r s h
  exact ⟨s.when_false h _, s.when_false h _, s.when_false h _, s.when_false h _, s.when_false h _, s.when_false h _,
    s.when_false h _, s.when_false h _, s.when_false h _⟩

/-- A jump writes PC with its target, or with itself. -/
theorem State.when_setPc (s : State) (cc : Cond) (v : Word) :
    s.when cc (.next (s.setPc v)) = .next { s with pc := if s.cond cc then v else s.pc } := by
  cases h : s.cond cc with
  | true => rw [State.when_true h]; rfl
  | false => rw [State.when_false h]; rfl

/-- Settles O33: both forms of JP are a conditional write of PC. -/
theorem jumpGoesToItsTarget : Obligations.JumpGoesToItsTarget := fun cc k r s =>
  ⟨State.when_setPc s cc (sext20 k), State.when_setPc s cc (s.getReg r)⟩

theorem exec_jr_taken {s : State} {cc : Cond} (h : s.cond cc = true) (k : Int) :
    exec (.jr cc k) s = .next (s.setPc (s.pc + sext20 k)) := s.when_true h _

/-- Settles O34: the target is the sum with the extended offset. -/
theorem relativeJumpAddsItsOffset : Obligations.RelativeJumpAddsItsOffset := fun _ k s h =>
  ⟨_, exec_jr_taken h k, fun hk => toNat_add_sext20 s.pc hk, rfl⟩

/-- Settles O5: the offset is the target less the address of the next instruction, so their sum is the target. -/
theorem assembledJrReachesItsTarget : Obligations.AssembledJrReachesItsTarget := by
  intro cc a adr i s hi hpc hcc
  simp only [assembleJr] at hi
  split at hi
  case isFalse => cases hi
  case isTrue hfits =>
    cases hi
    refine ⟨_, exec_jr_taken hcc _, BitVec.eq_of_toNat_eq ?_⟩
    have hsum := toNat_add_sext20 s.pc hfits
    rw [State.setPc_pc]
    rw [hpc] at hsum ⊢
    rw [BitVec.toNat_ofNat] at hsum ⊢
    omega

/-- Settles O37: HALT is a `when`, taken. -/
theorem takenHaltStops : Obligations.TakenHaltStops := fun _ s h => s.when_true h _

end Sys2Proof.Machine

/-! SUPPORT. The data accesses (42_memory_instructions.md R160 to R167): which of them have no meaning, what a load and
a store do to memory and to the registers of the units (60_exceptions.md R230 to R256), and the statements. -/

namespace Sys2Proof.Machine

/-! ### Which accesses stop (R61, R62) -/

theorem State.memRead_error {s : State} {a : Word} {w : Width} {f : Fault} (h : s.accessFault a w = some f) :
    s.memRead a w = .error f := by
  simp only [State.memRead, h]

theorem State.memWrite_error {s : State} {a v : Word} {w : Width} {f : Fault} (h : s.accessFault a w = some f) :
    s.memWrite a w v = .error f := by
  simp only [State.memWrite, h]

theorem State.memRead_ok {s : State} {a : Word} {w : Width} (h : s.accessFault a w = none) :
    ∃ r, s.memRead a w = .ok r := by
  simp only [State.memRead, h]
  split <;> exact ⟨_, rfl⟩

theorem State.memWrite_ok {s : State} {a v : Word} {w : Width} (h : s.accessFault a w = none) :
    ∃ t, s.memWrite a w v = .ok t := by
  simp only [State.memWrite, h]
  split <;> exact ⟨_, rfl⟩

theorem State.accessFault_unit_word {s : State} {a : Word} (h : (s.target (align a .word)).isUnit = true) :
    s.accessFault a .word = none := by
  unfold State.accessFault
  cases ht : s.target (align a .word) with
  | ct | pio | dma => rfl
  | memory | unmapped => rw [ht] at h; cases h

theorem State.accessFault_unit_narrow {s : State} {a : Word} {w : Width} (hw : w ≠ .word)
    (h : (s.target (align a w)).isUnit = true) : s.accessFault a w = some (.narrowDeviceAccess (align a w)) := by
  unfold State.accessFault
  cases ht : s.target (align a w) with
  | ct | pio | dma => exact if_neg hw
  | memory | unmapped => rw [ht] at h; cases h

theorem State.accessFault_unbacked {s : State} {a : Word} {w : Width} (hb : s.memoryBacked (align a w) w = false)
    (h : (s.target (align a w)).isUnit = false) : s.accessFault a w = some (.unmappedAddress (align a w)) := by
  unfold State.accessFault
  cases ht : s.target (align a w) with
  | ct | pio | dma => rw [ht] at h; cases h
  | memory => simp only [hb]; rfl
  | unmapped => rfl

/-! ### An instruction stops exactly in the fault of its access -/

/-- `out` is a next state when there is no fault, and else that fault. -/
def StopsIn (f : Option Fault) (out : StepOutcome) : Prop :=
  (f = none → ∃ t, out = .next t) ∧ ∀ e, f = some e → out = .fault e

theorem StopsIn.loadInto (s : State) (d : Reg) (ea : Word) (w : Width) :
    StopsIn (s.accessFault ea w) (finish (s.loadInto d ea w)) := by
  refine ⟨fun h => ?_, fun e h => ?_⟩
  · obtain ⟨r, hr⟩ := State.memRead_ok h
    exact ⟨r.2.setReg d r.1, by simp only [State.loadInto, hr, finish]⟩
  · simp only [State.loadInto, State.memRead_error h, finish]

theorem StopsIn.memWrite (s : State) (ea v : Word) (w : Width) :
    StopsIn (s.accessFault ea w) (finish (s.memWrite ea w v)) := by
  refine ⟨fun h => ?_, fun e h => ?_⟩
  · obtain ⟨t, ht⟩ := State.memWrite_ok (v := v) h
    exact ⟨t, by rw [ht]; rfl⟩
  · rw [State.memWrite_error h]
    rfl

/-- PUSH writes at the decremented stack pointer. -/
theorem StopsIn.push (s : State) (a : Reg) : StopsIn (s.accessFault (s.getReg .r7 - 4#32) .word) (exec (.push a) s) :=
  StopsIn.memWrite s.growStack (s.getReg .r7 - 4#32) (s.growStack.getReg a) .word

theorem StopsIn.pop (s : State) (d : Reg) : StopsIn (s.accessFault (s.getReg .r7) .word) (exec (.pop d) s) := by
  refine ⟨fun h => ?_, fun e h => ?_⟩
  · obtain ⟨r, hr⟩ := State.memRead_ok h
    exact ⟨(r.2.setReg d r.1).shrinkStack, by simp only [exec, execPop, hr]⟩
  · simp only [exec, execPop, State.memRead_error h]

/-- Pushing PC stops in the fault of the stack slot, or succeeds. -/
theorem State.pushPc_error {s : State} {f : Fault} (h : s.accessFault (s.getReg .r7 - 4#32) .word = some f) :
    s.pushPc = .error f := State.memWrite_error (s := s.growStack) h

theorem State.pushPc_ok {s : State} (h : s.accessFault (s.getReg .r7 - 4#32) .word = none) : ∃ t, s.pushPc = .ok t :=
  State.memWrite_ok (s := s.growStack) h

theorem State.popPc_error {s : State} {f : Fault} (h : s.accessFault (s.getReg .r7) .word = some f) :
    s.popPc = .error f := by
  simp only [State.popPc, State.memRead_error h]

theorem State.popPc_ok {s : State} (h : s.accessFault (s.getReg .r7) .word = none) : ∃ t, s.popPc = .ok t := by
  obtain ⟨r, hr⟩ := State.memRead_ok h
  exact ⟨_, by simp only [State.popPc, hr]; rfl⟩

theorem StopsIn.callAbs {s : State} {cc : Cond} (hcc : s.cond cc = true) (k : Int) :
    StopsIn (s.accessFault (s.getReg .r7 - 4#32) .word) (exec (.callAbs cc k) s) := by
  refine ⟨fun h => ?_, fun e h => ?_⟩
  · obtain ⟨t, ht⟩ := State.pushPc_ok h
    exact ⟨t.setPc (sext20 k), by simp only [exec, execCallAbs, State.when_true hcc, ht]⟩
  · simp only [exec, execCallAbs, State.when_true hcc, State.pushPc_error h]

theorem StopsIn.callReg {s : State} {cc : Cond} (hcc : s.cond cc = true) (r : Reg) :
    StopsIn (s.accessFault (s.getReg .r7 - 4#32) .word) (exec (.callReg cc r) s) := by
  refine ⟨fun h => ?_, fun e h => ?_⟩
  · obtain ⟨t, ht⟩ := State.pushPc_ok h
    exact ⟨t.setPc (t.getReg r), by simp only [exec, execCallReg, State.when_true hcc, ht]⟩
  · simp only [exec, execCallReg, State.when_true hcc, State.pushPc_error h]

theorem StopsIn.ret {s : State} {cc : Cond} (hcc : s.cond cc = true) :
    StopsIn (s.accessFault (s.getReg .r7) .word) (exec (.ret cc) s) := by
  refine ⟨fun h => ?_, fun e h => ?_⟩
  · obtain ⟨t, ht⟩ := State.popPc_ok h
    exact ⟨t, by simp only [exec, execRet, State.when_true hcc, ht, finish]⟩
  · simp only [exec, execRet, State.when_true hcc, State.popPc_error h, finish]

theorem StopsIn.returnFrom {s : State} {cc : Cond} (hcc : s.cond cc = true) (k : InterruptKind) :
    StopsIn (s.accessFault (s.getReg .r7) .word) (s.when cc (finish (s.returnFrom k))) := by
  rw [State.when_true hcc]
  refine ⟨fun h => ?_, fun e h => ?_⟩
  · obtain ⟨t, ht⟩ := State.popPc_ok h
    exact ⟨t.setEnable k true, by simp only [State.returnFrom, ht, finish]⟩
  · simp only [State.returnFrom, State.popPc_error h, finish]

/-- An access under a condition is made when the condition is true. -/
theorem memoryAccess_taken {s : State} {cc : Cond} {a ea : Word} {w : Width}
    (h : (if s.cond cc then some (a, Width.word) else none) = some (ea, w)) :
    s.cond cc = true ∧ a = ea ∧ Width.word = w := by
  split at h
  case isTrue hcc => cases h; exact ⟨hcc, rfl, rfl⟩
  case isFalse => cases h

theorem exec_stopsIn_access {i : Instr} {s : State} {ea : Word} {w : Width} (h : memoryAccess s i = some (ea, w)) :
    StopsIn (s.accessFault ea w) (exec i s) := by
  cases i with
  | loadAbs | loadOff | loadhAbs | loadhOff | loadbAbs | loadbOff => cases h; exact .loadInto s _ _ _
  | storeAbs | storeOff | storehAbs | storehOff | storebAbs | storebOff => cases h; exact .memWrite s _ _ _
  | push a => cases h; exact .push s a
  | pop d => cases h; exact .pop s d
  | callAbs cc k => obtain ⟨hcc, rfl, rfl⟩ := memoryAccess_taken h; exact .callAbs hcc k
  | callReg cc r => obtain ⟨hcc, rfl, rfl⟩ := memoryAccess_taken h; exact .callReg hcc r
  | ret cc => obtain ⟨hcc, rfl, rfl⟩ := memoryAccess_taken h; exact .ret hcc
  | reti cc => obtain ⟨hcc, rfl, rfl⟩ := memoryAccess_taken h; exact .returnFrom hcc .maskable
  | retn cc => obtain ⟨hcc, rfl, rfl⟩ := memoryAccess_taken h; exact .returnFrom hcc .nonMaskable
  | _ => cases h

/-- A conditional instruction without an access is not taken. -/
theorem cond_false_of_no_access {s : State} {cc : Cond} {x : Word × Width}
    (h : (if s.cond cc then some x else none) = none) : s.cond cc = false := by
  cases hcc : s.cond cc with
  | true => rw [hcc] at h; cases h
  | false => rfl

theorem State.when_next (s : State) (cc : Cond) (t : State) : ∃ u, s.when cc (.next t) = .next u := by
  unfold State.when
  split <;> exact ⟨_, rfl⟩

theorem exec_next_of_no_access {i : Instr} {s : State} (h : memoryAccess s i = none) : ∃ t, exec i s = .next t := by
  cases i with
  | loadAbs | loadOff | loadhAbs | loadhOff | loadbAbs | loadbOff => cases h
  | storeAbs | storeOff | storehAbs | storehOff | storebAbs | storebOff => cases h
  | push | pop => cases h
  | callAbs | callReg | ret | reti | retn => exact ⟨s, s.when_false (cond_false_of_no_access h) _⟩
  | jpAbs cc | jpReg cc | jr cc | halt cc => exact s.when_next cc _
  | _ => exact ⟨_, rfl⟩

/-- Settles O25: an instruction stops in the fault of its access alone, and `accessFault` says which that is. -/
theorem onlyMeaninglessAccessesStop : Obligations.OnlyMeaninglessAccessesStop := by
  intro i s
  refine ⟨exec_next_of_no_access, fun ea w h => ?_⟩
  obtain ⟨hnext, hfault⟩ := exec_stopsIn_access h
  refine ⟨?next, fun hb hu => hfault _ (State.accessFault_unbacked hb hu),
    fun hw hu => hfault _ (State.accessFault_unit_narrow hw hu)⟩
  rintro (hb | ⟨rfl, hu⟩)
  · exact hnext (State.accessFault_of_memoryBacked hb)
  · exact hnext (State.accessFault_unit_word hu)

/-! ### Loads and stores of memory -/

theorem loadsMemory_loadInto (w : Width) (ea : Word) (d : Reg) (s : State) :
    LoadsMemory w ea d s (finish (s.loadInto d ea w)) := by
  intro hb
  refine ⟨s.setReg d (s.loadBytes (align ea w) w), ?_, ?_, regFrame_setReg s d _, rfl⟩
  · simp only [State.loadInto, State.memRead_memory hb, finish]
  · rw [State.getReg_setReg_self, State.loadBytes_toNat]

/-- Settles O22: every load is `loadInto` of its effective address. -/
theorem loadsReadMemory : Obligations.LoadsReadMemory := fun d s =>
  ⟨fun k => loadsMemory_loadInto .word (eaAbs k) d s, fun r k => loadsMemory_loadInto .word (s.eaOff r k) d s,
    fun k => loadsMemory_loadInto .half (eaAbs k) d s, fun r k => loadsMemory_loadInto .half (s.eaOff r k) d s,
    fun k => loadsMemory_loadInto .byte (eaAbs k) d s, fun r k => loadsMemory_loadInto .byte (s.eaOff r k) d s⟩

theorem storesMemory_memWrite (w : Width) (ea v : Word) (s : State) :
    StoresMemory w ea v s (finish (s.memWrite ea w v)) := by
  intro hb
  refine ⟨_, by rw [State.memWrite_memory hb]; rfl, fun j hj => State.byteAt_store_inside s _ v w j hj,
    ⟨fun _ _ => rfl, rfl, ⟨rfl, rfl, rfl, rfl⟩, ?_, ⟨rfl, rfl, rfl⟩⟩, rfl⟩
  exact fun b hb => State.byteAt_store_outside s _ v b w hb

/-- Settles O23: every store is `memWrite` at its effective address. -/
theorem storesWriteMemory : Obligations.StoresWriteMemory := fun a s =>
  ⟨fun k => storesMemory_memWrite .word (eaAbs k) (s.getReg a) s,
    fun r k => storesMemory_memWrite .word (s.eaOff r k) (s.getReg a) s,
    fun k => storesMemory_memWrite .half (eaAbs k) (s.getReg a) s,
    fun r k => storesMemory_memWrite .half (s.eaOff r k) (s.getReg a) s,
    fun k => storesMemory_memWrite .byte (eaAbs k) (s.getReg a) s,
    fun r k => storesMemory_memWrite .byte (s.eaOff r k) (s.getReg a) s⟩

/-! ### Loads from the units -/

theorem State.memRead_ct {s : State} {a : Word} {j : Nat} {u : Ct} (h : s.target (align a .word) = .ct j u) :
    s.memRead a .word = .ok (s.unitValue (u.read (registerIndex u.base (align a .word)))) := by
  simp only [State.memRead, State.accessFault_unit_word (a := a) (by rw [h]; rfl), h]

theorem State.memRead_pio {s : State} {a : Word} {j : Nat} {u : Pio} (h : s.target (align a .word) = .pio j u) :
    s.memRead a .word = .ok (s.unitValue (u.read (registerIndex u.base (align a .word)))) := by
  simp only [State.memRead, State.accessFault_unit_word (a := a) (by rw [h]; rfl), h]

theorem State.memRead_dma {s : State} {a : Word} {j : Nat} {u : Dma} (h : s.target (align a .word) = .dma j u) :
    s.memRead a .word = .ok (s.unitValue (u.read (registerIndex u.base (align a .word)))) := by
  simp only [State.memRead, State.accessFault_unit_word (a := a) (by rw [h]; rfl), h]

/-- A load of a unit's register writes `dest` alone, with the register's value where there is one. -/
theorem loadInto_unitValue {s : State} {d : Reg} {ea : Word} {r : Option Word}
    (h : s.memRead ea .word = .ok (s.unitValue r)) :
    ∃ t, finish (s.loadInto d ea .word) = .next t ∧ regFrame [d] s t ∧ t.pc = s.pc ∧
      ∀ v, r = some v → t.getReg d = v := by
  have hload : finish (s.loadInto d ea .word) = .next ((s.unitValue r).2.setReg d (s.unitValue r).1) := by
    simp only [State.loadInto, h, finish]
  refine ⟨_, hload, ?_⟩
  cases r with
  | none =>
    exact ⟨regFrame_setReg { s with draws := s.draws + 1 } d _, rfl, fun v hv => by cases hv⟩
  | some x =>
    refine ⟨regFrame_setReg s d _, rfl, fun v hv => ?_⟩
    cases hv
    exact State.getReg_setReg_self s d _

/-- The word number of the register at a known offset. -/
theorem registerIndex_of_offset {base a : Word} {o : Word} (h : a - base = o) : registerIndex base a = o.toNat / 4 := by
  rw [registerIndex, h]

theorem zeroExtend_toNat {n : Nat} (x : BitVec n) (h : n ≤ 32) : (x.zeroExtend 32).toNat = x.toNat := by
  rw [BitVec.zeroExtend, BitVec.toNat_setWidth, Nat.mod_eq_of_lt]
  exact Nat.lt_of_lt_of_le x.isLt (Nat.pow_le_pow_right (by decide) h)

theorem bitWord_toNat (b : Bool) : (bitWord b).toNat = b.toNat := by cases b <;> rfl

/-- MODE as a field of CR, against its four names (R241). -/
theorem Pio.mode_eq_bitTest_iff (u : Pio) : u.mode = .bitTest ↔ u.ctl.extractLsb' 0 2 = 3#2 := by
  rw [Pio.mode]
  generalize u.ctl = c
  revert c
  decide

theorem Pio.mode_eq_bitSet_iff (u : Pio) : u.mode = .bitSet ↔ u.ctl.extractLsb' 0 2 = 2#2 := by
  rw [Pio.mode]
  generalize u.ctl = c
  revert c
  decide

/-- The control word that a read of a FRISC-PIO's CR gives (R241). -/
theorem Pio.read_control (u : Pio) :
    ∃ v, u.read 0 = some v ∧ v.toNat = 2 ^ 16 * u.active.toNat + 2 ^ 8 * u.mask.toNat + u.ctl.toNat := by
  refine ⟨_, rfl, ?_⟩
  have ha := u.active.isLt
  have hm := u.mask.isLt
  have hc := u.ctl.isLt
  rw [BitVec.toNat_ofNat]
  omega

theorem Pio.read_data (u : Pio) :
    ∃ v, u.read 1 = some v ∧ v.toNat = if u.ctl.extractLsb' 0 2 = 3#2 then u.lines.toNat else u.dr.toNat := by
  refine ⟨_, rfl, ?_⟩
  rw [zeroExtend_toNat _ (by decide), apply_ite BitVec.toNat]
  simp only [Pio.mode_eq_bitTest_iff]

theorem loadsCt_loadInto (ea : Word) (d : Reg) (s : State) : LoadsCt ea d s (finish (s.loadInto d ea .word)) := by
  intro j u htarget
  obtain ⟨t, ht, hframe, hpc, hval⟩ := loadInto_unitValue (d := d) (State.memRead_ct htarget)
  refine ⟨t, ht, hframe, hpc, fun h => ?cr, fun h => ?dc, fun h => ?status⟩ <;>
    rw [registerIndex_of_offset h] at hval
  case cr => rw [hval _ rfl, zeroExtend_toNat _ (by decide)]
  case dc => rw [hval _ rfl, zeroExtend_toNat _ (by decide)]
  case status => rw [hval _ rfl, bitWord_toNat]

theorem loadsPio_loadInto (ea : Word) (d : Reg) (s : State) : LoadsPio ea d s (finish (s.loadInto d ea .word)) := by
  intro j u htarget
  obtain ⟨t, ht, hframe, hpc, hval⟩ := loadInto_unitValue (d := d) (State.memRead_pio htarget)
  refine ⟨t, ht, hframe, hpc, fun h => ?cr, fun h => ?dr, fun h => ?status⟩ <;>
    rw [registerIndex_of_offset h] at hval
  case cr =>
    obtain ⟨v, hv, hnat⟩ := u.read_control
    rw [hval v hv, hnat]
  case dr =>
    obtain ⟨v, hv, hnat⟩ := u.read_data
    rw [hval v hv, hnat]
  case status => rw [hval _ rfl, bitWord_toNat]

theorem loadsDma_loadInto (ea : Word) (d : Reg) (s : State) : LoadsDma ea d s (finish (s.loadInto d ea .word)) := by
  intro j u htarget
  obtain ⟨t, ht, hframe, hpc, hval⟩ := loadInto_unitValue (d := d) (State.memRead_dma htarget)
  refine ⟨t, ht, hframe, hpc, fun h => ?src, fun h => ?dst, fun h => ?cnt, fun h => ?cr, fun h => ?status⟩ <;>
    rw [registerIndex_of_offset h] at hval
  case src => exact hval _ rfl
  case dst => exact hval _ rfl
  case cnt => exact hval _ rfl
  case cr => rw [hval _ rfl, zeroExtend_toNat _ (by decide)]
  case status => rw [hval _ rfl, bitWord_toNat]

/-- Settles O26: a load in either form is `loadInto` of its effective address, and each offset names one register. -/
theorem loadReadsUnitRegisters : Obligations.LoadReadsUnitRegisters := fun d s =>
  ⟨fun k => ⟨loadsCt_loadInto (eaAbs k) d s, loadsPio_loadInto (eaAbs k) d s, loadsDma_loadInto (eaAbs k) d s⟩,
    fun r k => ⟨loadsCt_loadInto (s.eaOff r k) d s, loadsPio_loadInto (s.eaOff r k) d s,
      loadsDma_loadInto (s.eaOff r k) d s⟩⟩

/-! ### Stores to the units -/

theorem State.memWrite_ct {s : State} {a v : Word} {j : Nat} {u : Ct} (h : s.target (align a .word) = .ct j u) :
    s.memWrite a .word v = .ok (s.putCt j (u.write s.draws (registerIndex u.base (align a .word)) v)) := by
  simp only [State.memWrite, State.accessFault_unit_word (a := a) (by rw [h]; rfl), h]

theorem State.memWrite_pio {s : State} {a v : Word} {j : Nat} {u : Pio} (h : s.target (align a .word) = .pio j u) :
    s.memWrite a .word v = .ok (s.putPio j (u.write s.draws (registerIndex u.base (align a .word)) v)) := by
  simp only [State.memWrite, State.accessFault_unit_word (a := a) (by rw [h]; rfl), h]

theorem State.memWrite_dma {s : State} {a v : Word} {j : Nat} {u : Dma} (h : s.target (align a .word) = .dma j u) :
    s.memWrite a .word v = .ok (s.putDma j (u.write s.draws (registerIndex u.base (align a .word)) v)) := by
  simp only [State.memWrite, State.accessFault_unit_word (a := a) (by rw [h]; rfl), h]

/-- LR and DC are written together while the counter does not count (R233). -/
theorem Ct.write_limit_stopped {u : Ct} (h : u.cr.getLsbD 0 = false) (n : Nat) (w : Word) :
    (u.write n 1 w).1 = { u with lr := w.extractLsb' 0 16, dc := w.extractLsb' 0 16 } := by
  simp only [Ct.write, Ct.running, h]
  rfl

/-- A control word that keeps MODE, or comes while the flip-flop is clear, is no corner case (R241, U9). -/
theorem Pio.write_control {u : Pio} {w : Word}
    (h : u.status = false ∨ w.extractLsb' 0 2 = u.ctl.extractLsb' 0 2) (n : Nat) :
    (u.write n 0 w).1 =
      { u with active := w.extractLsb' 16 8, mask := w.extractLsb' 8 8, ctl := w.extractLsb' 0 5 } := by
  have hsame : (u.status && (u.withControl w).mode != u.mode) = false := by
    rcases h with h | h
    · rw [h, Bool.false_and]
    · have hfield : (u.withControl w).ctl.extractLsb' 0 2 = u.ctl.extractLsb' 0 2 :=
        (BitVec.eq_of_getLsbD_eq fun j hj => by
          simp only [Pio.withControl, BitVec.getLsbD_extractLsb', Nat.zero_add]
          rw [decide_eq_true (by omega : j < 5), Bool.true_and]).trans h
      obtain ⟨h1, h0⟩ := Pio.modeBits hfield
      obtain ⟨h1', h0'⟩ := Pio.modeBits (u := u) rfl
      have hmode : (u.withControl w).mode = u.mode := by
        simp only [Pio.mode, h1, h0, h1', h0']
      rw [hmode, bne_self_eq_false, Bool.and_false]
  simp only [Pio.write, hsame]
  rfl

theorem Pio.write_data (u : Pio) (n : Nat) (w : Word) :
    (u.write n 1 w).1 = { u with
      dr := w.extractLsb' 0 8
      lines := if u.ctl.extractLsb' 0 2 = 2#2 then w.extractLsb' 0 8 else u.lines } := by
  simp only [Pio.write, Pio.mode_eq_bitSet_iff]

/-- While the unit is idle its four data registers take what is written (R250). -/
theorem Dma.write_idle {u : Dma} (h : u.busy = false) (n : Nat) (w : Word) :
    (u.write n 0 w).1 = { u with src := w } ∧ (u.write n 1 w).1 = { u with dst := w } ∧
      (u.write n 2 w).1 = { u with cnt := w } ∧ (u.write n 3 w).1 = { u with cr := w.extractLsb' 0 4 } := by
  simp only [Dma.write, h]
  exact ⟨rfl, rfl, rfl, rfl⟩

/-- A start of an idle unit with a transfer to make (R253). -/
theorem Dma.write_start {u : Dma} (hb : u.busy = false) (hc : u.cnt ≠ 0#32) (ho : u.overlaps = false) (n : Nat)
    (w : Word) : (u.write n 4 w).1 = { u with busy := true } := by
  simp only [Dma.write, hb, ho, beq_eq_false_iff_ne.mpr hc]
  rfl

theorem storesCt_memWrite (ea v : Word) (s : State) : StoresCt ea v s (finish (s.memWrite ea .word v)) := by
  intro j u htarget
  refine ⟨_, (u.write s.draws (registerIndex u.base (align ea .word)) v).1,
    congrArg finish (State.memWrite_ct htarget), ⟨rfl, rfl, rfl, rfl, rfl⟩, ⟨rfl, rfl, rfl, rfl⟩,
    State.byteAt_of_mem_eq rfl, rfl, rfl, rfl,
    fun h => ?cr, fun h hstop => ?limit, fun h => ?acknowledge, fun h => ?endOfService⟩ <;>
    rw [registerIndex_of_offset h]
  case limit => exact Ct.write_limit_stopped hstop _ v
  all_goals rfl

theorem storesPio_memWrite (ea v : Word) (s : State) : StoresPio ea v s (finish (s.memWrite ea .word v)) := by
  intro j u htarget
  refine ⟨_, (u.write s.draws (registerIndex u.base (align ea .word)) v).1,
    congrArg finish (State.memWrite_pio htarget), ⟨rfl, rfl, rfl, rfl, rfl⟩, ⟨rfl, rfl, rfl, rfl⟩,
    State.byteAt_of_mem_eq rfl, rfl, rfl, rfl,
    fun h hmode => ?control, fun h => ?data, fun h => ?acknowledge, fun h => ?endOfService⟩ <;>
    rw [registerIndex_of_offset h]
  case control => exact Pio.write_control hmode _
  case data => exact u.write_data _ v
  all_goals rfl

theorem storesDma_memWrite (ea v : Word) (s : State) : StoresDma ea v s (finish (s.memWrite ea .word v)) := by
  intro j u htarget
  refine ⟨_, (u.write s.draws (registerIndex u.base (align ea .word)) v).1,
    congrArg finish (State.memWrite_dma htarget), ⟨rfl, rfl, rfl, rfl, rfl⟩, ⟨rfl, rfl, rfl, rfl⟩,
    State.byteAt_of_mem_eq rfl, rfl, rfl, rfl,
    fun h hb => ?src, fun h hb => ?dst, fun h hb => ?cnt, fun h hb => ?cr, fun h hb hc ho => ?start,
    fun h => ?acknowledge⟩ <;>
    rw [registerIndex_of_offset h]
  case src =>
    obtain ⟨hw, -⟩ := Dma.write_idle hb s.draws v
    exact hw
  case dst =>
    obtain ⟨-, hw, -⟩ := Dma.write_idle hb s.draws v
    exact hw
  case cnt =>
    obtain ⟨-, -, hw, -⟩ := Dma.write_idle hb s.draws v
    exact hw
  case cr =>
    obtain ⟨-, -, -, hw⟩ := Dma.write_idle hb s.draws v
    exact hw
  case start => exact Dma.write_start hb hc ho _ v
  case acknowledge => rfl

/-- Settles O27: a store in either form is `memWrite` at its effective address, and each offset names one register. -/
theorem storeWritesUnitRegisters : Obligations.StoreWritesUnitRegisters := fun a s =>
  ⟨fun k => ⟨storesCt_memWrite (eaAbs k) (s.getReg a) s, storesPio_memWrite (eaAbs k) (s.getReg a) s,
      storesDma_memWrite (eaAbs k) (s.getReg a) s⟩,
    fun r k => ⟨storesCt_memWrite (s.eaOff r k) (s.getReg a) s, storesPio_memWrite (s.eaOff r k) (s.getReg a) s,
      storesDma_memWrite (s.eaOff r k) (s.getReg a) s⟩⟩

end Sys2Proof.Machine

/-! SUPPORT. The stack (42_memory_instructions.md R168 to R171; 43_control.md R190 to R196): the state after a push onto
memory, what a pop finds there, and that the operations undo each other. -/

namespace Sys2Proof.Machine

/-! ### The state after a push -/

/-- The address of the word that the next push writes. -/
def State.slot (s : State) : Word := align (s.getReg .r7 - 4#32) .word

/-- `s` with `v` pushed on a stack in memory. -/
def State.pushed (s : State) (v : Word) : State := { s.growStack with mem := storeBytes s.mem s.slot v .word }

@[simp] theorem State.pushed_pc (s : State) (v : Word) : (s.pushed v).pc = s.pc := rfl
@[simp] theorem State.pushed_sr (s : State) (v : Word) : (s.pushed v).sr = s.sr := rfl
@[simp] theorem State.pushed_iif (s : State) (v : Word) : (s.pushed v).iif = s.iif := rfl
@[simp] theorem State.pushed_halted (s : State) (v : Word) : (s.pushed v).halted = s.halted := rfl
@[simp] theorem State.pushed_params (s : State) (v : Word) : (s.pushed v).params = s.params := rfl
@[simp] theorem State.pushed_inputs (s : State) (v : Word) : (s.pushed v).inputs = s.inputs := rfl

@[simp] theorem State.pushed_getReg (s : State) (v : Word) (r : Reg) :
    (s.pushed v).getReg r = if r = .r7 then s.getReg .r7 - 4#32 else s.getReg r := State.getReg_growStack s r

theorem State.pushed_platform (s : State) (v : Word) : samePlatform s (s.pushed v) := .of_eq rfl rfl rfl rfl

theorem State.pushed_units (s : State) (v : Word) : sameUnits s (s.pushed v) := ⟨rfl, rfl, rfl⟩

theorem State.pushed_loadBytes (s : State) (v : Word) : (s.pushed v).loadBytes s.slot .word = v :=
  State.loadBytes_store s s.slot v

theorem State.loadWord_toNat (s : State) (a : Word) : (s.loadBytes a .word).toNat = leValue s a 4 :=
  State.loadBytes_toNat s a .word

theorem State.pushed_leValue (s : State) (v : Word) : leValue (s.pushed v) s.slot 4 = v.toNat := by
  rw [← State.loadWord_toNat, State.pushed_loadBytes]

theorem State.pushed_outside (s : State) (v : Word) : sameMemoryOutside s.slot 4 s (s.pushed v) :=
  fun b hb => State.byteAt_store_outside s s.slot v b .word hb

theorem State.pushed_regsBut (s : State) (v : Word) : sameRegsBut [.r7] s (s.pushed v) := fun r hr => by
  rw [State.pushed_getReg, if_neg (List.ne_of_not_mem_cons hr)]

theorem State.pushed_storeFrame (s : State) (v : Word) : storeFrame [.r7] s.slot 4 s (s.pushed v) :=
  ⟨s.pushed_regsBut v, rfl, ⟨rfl, rfl, rfl, rfl⟩, s.pushed_outside v, s.pushed_units v⟩

theorem State.pushPc_eq_pushed {s : State} (h : s.memoryBacked s.slot .word = true) : s.pushPc = .ok (s.pushed s.pc) :=
  State.pushPc_memory h

theorem exec_push_memory {s : State} (h : s.memoryBacked s.slot .word = true) (a : Reg) :
    exec (.push a) s = .next (s.pushed (s.growStack.getReg a)) :=
  congrArg finish (State.memWrite_memory (s := s.growStack) (a := s.getReg .r7 - 4#32) h)

/-- Settles O28: PUSH is `pushed` of the register read after the decrement. -/
theorem pushStoresBelowTheStack : Obligations.PushStoresBelowTheStack := by
  intro a s h
  refine ⟨_, exec_push_memory h a, ?_, ?_, s.pushed_storeFrame _, rfl⟩
  · rw [State.pushed_getReg, if_pos rfl]
  · rw [← State.getReg_growStack]
    exact s.pushed_leValue _

theorem exec_pop_memory {s : State} (h : s.memoryBacked (align (s.getReg .r7) .word) .word = true) (d : Reg) :
    exec (.pop d) s = .next (s.setReg d (s.loadBytes (align (s.getReg .r7) .word) .word)).shrinkStack := by
  simp only [exec, execPop, State.memRead_memory h]

/-- Settles O29: the destination is loaded, then R7 incremented. -/
theorem popLoadsTheTopOfTheStack : Obligations.PopLoadsTheTopOfTheStack := by
  intro d s h
  refine ⟨_, _, exec_pop_memory h d, State.loadWord_toNat s _, fun hd => ⟨?loaded, ?stack⟩, ?stackLoaded,
    ⟨?regs, rfl, ⟨rfl, rfl, rfl, rfl⟩, State.byteAt_of_mem_eq rfl, ⟨rfl, rfl, rfl⟩⟩, rfl⟩
  case loaded => rw [State.getReg_shrinkStack, if_neg hd, State.getReg_setReg_self]
  case stack => rw [State.getReg_shrinkStack, if_pos rfl, State.getReg_setReg_ne s _ hd.symm]
  case stackLoaded =>
    rintro rfl
    rw [State.getReg_shrinkStack, if_pos rfl, State.getReg_setReg_self]
  case regs =>
    intro r hr
    obtain ⟨hrd, hr7⟩ : r ≠ d ∧ r ≠ .r7 := by simpa using hr
    rw [State.getReg_shrinkStack, if_neg hr7, State.getReg_setReg_ne s _ hrd]

/-! ### Calls and returns -/

theorem exec_callAbs_memory {s : State} {cc : Cond} (hcc : s.cond cc = true) (h : s.memoryBacked s.slot .word = true)
    (k : Int) : exec (.callAbs cc k) s = .next ((s.pushed s.pc).setPc (sext20 k)) := by
  simp only [exec, execCallAbs, State.when_true hcc, State.pushPc_eq_pushed h]

theorem exec_callReg_memory {s : State} {cc : Cond} (hcc : s.cond cc = true) (h : s.memoryBacked s.slot .word = true)
    (r : Reg) : exec (.callReg cc r) s = .next ((s.pushed s.pc).setPc ((s.pushed s.pc).getReg r)) := by
  simp only [exec, execCallReg, State.when_true hcc, State.pushPc_eq_pushed h]

/-- What both forms of a taken CALL leave, whatever their target. -/
theorem call_pushes (s : State) (target : Word) :
    ((s.pushed s.pc).setPc target).getReg .r7 = s.getReg .r7 - 4#32 ∧
      leValue ((s.pushed s.pc).setPc target) s.slot 4 = s.pc.toNat ∧
      storeFrame [.r7] s.slot 4 s ((s.pushed s.pc).setPc target) := by
  refine ⟨?_, s.pushed_leValue s.pc, s.pushed_storeFrame s.pc⟩
  rw [State.setPc_getReg, State.pushed_getReg, if_pos rfl]

/-- Settles O35: both forms push PC and then set it; the register is read after the decrement. -/
theorem takenCallsPushTheReturnAddress : Obligations.TakenCallsPushTheReturnAddress := by
  intro cc k r s hcc h
  exact ⟨⟨_, exec_callAbs_memory hcc h k, rfl, call_pushes s _⟩,
    ⟨_, exec_callReg_memory hcc h r, State.pushed_getReg s s.pc r, call_pushes s _⟩⟩

/-- `s` with its top of stack popped into PC. -/
def State.popped (s : State) : State := (s.setPc (s.loadBytes (align (s.getReg .r7) .word) .word)).shrinkStack

theorem State.popPc_eq_popped {s : State} (h : s.memoryBacked (align (s.getReg .r7) .word) .word = true) :
    s.popPc = .ok s.popped := State.popPc_memory h

theorem exec_ret_memory {s : State} {cc : Cond} (hcc : s.cond cc = true)
    (h : s.memoryBacked (align (s.getReg .r7) .word) .word = true) : exec (.ret cc) s = .next s.popped := by
  simp only [exec, execRet, State.when_true hcc, State.popPc_eq_popped h, finish]

theorem when_returnFrom_memory {s : State} {cc : Cond} (hcc : s.cond cc = true)
    (h : s.memoryBacked (align (s.getReg .r7) .word) .word = true) (k : InterruptKind) :
    s.when cc (finish (s.returnFrom k)) = .next (s.popped.setEnable k true) := by
  simp only [State.when_true hcc, State.returnFrom, State.popPc_eq_popped h, finish]

/-- Settles O36: RET pops PC; RETI and RETN then set their enable. -/
theorem takenReturnsPopPc : Obligations.TakenReturnsPopPc := by
  intro cc s hcc h
  refine ⟨s.popped, s.popped.setGie true, { s.popped with iif := true }, exec_ret_memory hcc h,
    when_returnFrom_memory hcc h .maskable, when_returnFrom_memory hcc h .nonMaskable, State.loadWord_toNat s _,
    ?stack, ⟨?regs, rfl, ⟨rfl, rfl, rfl, rfl⟩, State.byteAt_of_mem_eq rfl, ⟨rfl, rfl, rfl⟩⟩, rfl, rfl,
    State.setGie_gie _ true, fun j hj => srWithGie_other s.sr true j hj, ⟨rfl, rfl, rfl, rfl⟩,
    State.byteAt_of_mem_eq rfl, ⟨rfl, rfl, rfl⟩, rfl, rfl, rfl, rfl, rfl, rfl, rfl, State.byteAt_of_mem_eq rfl,
    ⟨rfl, rfl, rfl⟩⟩
  case stack =>
    rw [State.popped, State.getReg_shrinkStack, if_pos rfl]
    rfl
  case regs =>
    intro r hr
    rw [State.popped, State.getReg_shrinkStack, if_neg (List.ne_of_not_mem_cons hr)]
    rfl

/-! ### What is pushed is popped -/

/-- In a state with the stack of `s.pushed v`, and memory where `s` has it, the pop finds `v` and leaves the registers
of `s`. -/
theorem pop_of_pushed {s t : State} {v : Word} (h : s.memoryBacked s.slot .word = true)
    (hregs : t.regs = (s.pushed v).regs) (hmem : t.mem = (s.pushed v).mem) (hpl : samePlatform s t) :
    t.memoryBacked (align (t.getReg .r7) .word) .word = true ∧
      t.loadBytes (align (t.getReg .r7) .word) .word = v ∧ t.shrinkStack.regs = s.regs := by
  have hget (r : Reg) : t.getReg r = if r = .r7 then s.getReg .r7 - 4#32 else s.getReg r := by
    rw [← State.pushed_getReg s v r, State.getReg, hregs, State.getReg]
  have h7 : align (t.getReg .r7) .word = s.slot := by rw [hget, if_pos rfl, State.slot]
  rw [h7]
  refine ⟨(State.memoryBacked_congr hpl _ _).trans h, ?_, RegFile.ext_get fun r => ?_⟩
  · rw [State.loadBytes_congr s.slot .word fun j _ => State.byteAt_of_mem_eq hmem _, State.pushed_loadBytes]
  · show t.shrinkStack.getReg r = s.getReg r
    rw [State.getReg_shrinkStack, hget, hget, if_pos rfl, BitVec.sub_add_cancel]
    split
    · next hr => rw [hr]
    · rfl

/-- A pop of PC after a push of `v`, with anything in between that leaves registers and memory alone. -/
theorem popped_of_pushed {s t : State} {v : Word} (h : s.memoryBacked s.slot .word = true)
    (hregs : t.regs = (s.pushed v).regs) (hmem : t.mem = (s.pushed v).mem) (hpl : samePlatform s t) :
    t.memoryBacked (align (t.getReg .r7) .word) .word = true ∧ t.popped.pc = v ∧ t.popped.regs = s.regs := by
  obtain ⟨hb, hload, hpop⟩ := pop_of_pushed h hregs hmem hpl
  exact ⟨hb, hload, hpop⟩

/-- POP after PUSH of a register gives it back; R7 among them, which comes back decremented and is then incremented. -/
theorem pop_pushed_regs (s : State) (a : Reg) :
    ((s.pushed (s.growStack.getReg a)).setReg a (s.growStack.getReg a)).shrinkStack.regs = s.regs := by
  refine RegFile.ext_get fun r => ?_
  show State.getReg _ r = s.getReg r
  rw [State.getReg_shrinkStack, State.getReg_setReg, State.getReg_setReg, State.pushed_getReg, State.pushed_getReg,
    State.getReg_growStack]
  by_cases hr : r = .r7
  · subst hr
    by_cases ha : Reg.r7 = a
    · subst ha
      simp
    · simp [ha]
  · by_cases ha : r = a
    · subst ha
      simp [hr]
    · simp [hr, ha]

/-- Settles O30: what the push stored is what the pop loads, and the decrement and the increment cancel. -/
theorem stackOperationsUndoEachOther : Obligations.StackOperationsUndoEachOther := by
  intro s h
  refine ⟨fun a => ?pushPop, fun cc cc' i pc hcc hcc' hi => ?callRet⟩
  case pushPop =>
    obtain ⟨hb, hload, -⟩ := pop_of_pushed (v := s.growStack.getReg a) h rfl rfl (s.pushed_platform _)
    refine ⟨_, _, exec_push_memory h a, exec_pop_memory hb a, ?_, rfl⟩
    rw [hload]
    exact pop_pushed_regs s a
  case callRet =>
    obtain ⟨target, ht⟩ : ∃ target, exec i s = .next ((s.pushed s.pc).setPc target) := by
      rcases hi with ⟨k, rfl⟩ | ⟨r, rfl⟩
      · exact ⟨_, exec_callAbs_memory hcc h k⟩
      · exact ⟨_, exec_callReg_memory hcc h r⟩
    obtain ⟨hb, hpc, hregs⟩ := popped_of_pushed (t := ((s.pushed s.pc).setPc target).setPc pc) (v := s.pc) h rfl rfl
      (s.pushed_platform s.pc)
    exact ⟨_, _, ht, exec_ret_memory hcc' hb, hpc, hregs, rfl⟩

end Sys2Proof.Machine

/-! SUPPORT. The step (10_state.md R25; 20_memory.md R57) and the interrupts (60_exceptions.md R212 to R219): the
fetched instruction, the requests and their acceptance, entry, nesting and return. -/

namespace Sys2Proof.Machine

/-! ### The step of a free processor -/

theorem step_of_interrupt {s s1 : State} {k : InterruptKind} (h : s.ProcessorFree s1)
    (hk : s1.pendingInterrupt s.boundary.hold = some k) : step s = finish (s1.takeInterrupt k) := by
  obtain ⟨hb, hd, hh⟩ := h
  simp only [step, hb, State.processorStep, hd, hh, Bool.false_eq_true, if_false, hk]

theorem step_of_no_interrupt {s s1 : State} (h : s.ProcessorFree s1)
    (hk : s1.pendingInterrupt s.boundary.hold = none) : step s = s1.runInstruction := by
  obtain ⟨hb, hd, hh⟩ := h
  simp only [step, hb, State.processorStep, hd, hh, Bool.false_eq_true, if_false, hk]

theorem State.fetch_memory {s : State} (h : s.memoryBacked (align s.pc .word) .word = true) :
    s.fetch = .ok (s.loadBytes (align s.pc .word) .word, s.setPc (s.pc + 4#32)) := by
  simp only [State.fetch, State.memRead_memory h]

/-- The decoder on four bytes of memory is the decoder on the word they make. -/
theorem decodeBytes_memory (s : State) (a : Word) :
    decodeBytes [s.byteAt a, s.byteAt (a + 1#32), s.byteAt (a + 2#32), s.byteAt (a + 3#32)] =
      decodeWord (s.loadBytes a .word) := rfl

/-- Settles O6: the fetched word is the one the four bytes make. -/
theorem stepRunsTheDecodedInstruction : Obligations.StepRunsTheDecodedInstruction := by
  intro s s1 i hfree hk hb hi
  rw [decodeBytes_memory] at hi
  rw [step_of_no_interrupt hfree hk]
  simp only [State.runInstruction, State.fetch_memory hb, hi]

/-- Settles O7: the same fetch, with a word that the decoder rejects. -/
theorem undefinedWordFaults : Obligations.UndefinedWordFaults := by
  intro s s1 e hfree hk hb he
  rw [decodeBytes_memory] at he
  rw [step_of_no_interrupt hfree hk]
  simp only [State.runInstruction, State.fetch_memory hb, he]

/-! ### Requests and acceptance -/

theorem Ct.request_and_iff (u : Ct) (eos kind : Bool) :
    (u.request eos && kind) = true ↔
      u.status = true ∧ u.cr.getLsbD 1 = true ∧ kind = true ∧ ¬(eos = true ∧ u.waitEos = true) := by
  rw [Ct.request, Ct.intEnabled, Bool.and_right_comm]
  simp only [Bool.and_eq_true, Bool.not_eq_true', ← Bool.not_eq_true, and_assoc]

theorem Pio.request_and_iff (u : Pio) (eos kind : Bool) :
    (u.request eos && kind) = true ↔
      u.status = true ∧ u.ctl.getLsbD 2 = true ∧ kind = true ∧ ¬(eos = true ∧ u.waitEos = true) := by
  rw [Pio.request, Pio.intEnabled, Bool.and_right_comm]
  simp only [Bool.and_eq_true, Bool.not_eq_true', ← Bool.not_eq_true, and_assoc]

theorem Dma.request_and_iff (u : Dma) (kind : Bool) :
    (u.request && kind) = true ↔ u.status = true ∧ u.cr.getLsbD 0 = true ∧ kind = true := by
  simp only [Dma.request, Dma.intEnabled, Bool.and_eq_true, and_assoc]

/-- A unit of each list requests an interrupt of the kind that the units' tests `kc`, `kp`, `kd` name. -/
theorem any_request_iff (s : State) (kc : Ct → Bool) (kp : Pio → Bool) (kd : Dma → Bool) :
    (s.cts.any (fun u => u.request s.params.eosBlocks && kc u)
        || s.pios.any (fun u => u.request s.params.eosBlocks && kp u)
        || s.dmas.any (fun u => u.request && kd u)) = true ↔
      (∃ u ∈ s.cts, u.status = true ∧ u.cr.getLsbD 1 = true ∧ kc u = true ∧
        ¬(s.params.eosBlocks = true ∧ u.waitEos = true)) ∨
      (∃ u ∈ s.pios, u.status = true ∧ u.ctl.getLsbD 2 = true ∧ kp u = true ∧
        ¬(s.params.eosBlocks = true ∧ u.waitEos = true)) ∨
      (∃ u ∈ s.dmas, u.status = true ∧ u.cr.getLsbD 0 = true ∧ kd u = true) := by
  rw [Bool.or_eq_true, Bool.or_eq_true, List.any_eq_true, List.any_eq_true, List.any_eq_true, or_assoc]
  simp only [Ct.request_and_iff, Pio.request_and_iff, Dma.request_and_iff]

/-- Settles O39: the two signals differ in the kind of interrupt alone. -/
theorem requestSignals : Obligations.RequestSignals := by
  intro s
  refine ⟨?maskable, any_request_iff s Ct.nonMaskable Pio.nonMaskable Dma.nonMaskable⟩
  have h := any_request_iff s (fun u => !u.nonMaskable) (fun u => !u.nonMaskable) (fun u => !u.nonMaskable)
  simp only [Bool.not_eq_true'] at h
  exact h

theorem State.nmiAcceptable_iff (s : State) : s.nmiAcceptable = true ↔ s.nmiRequest = true ∧ s.iif = true :=
  Bool.and_eq_true_iff

theorem State.intAcceptable_iff (s : State) :
    s.intAcceptable = true ↔ s.intRequest = true ∧ s.gie = true ∧ (s.params.iifBlocks = true → s.iif = true) := by
  rw [State.intAcceptable, Bool.and_eq_true, Bool.and_eq_true, and_assoc]
  cases s.params.iifBlocks <;> cases s.iif <;> simp

theorem State.pendingInterrupt_nonMaskable_iff (s : State) (hold : Bool) :
    s.pendingInterrupt hold = some .nonMaskable ↔ hold = false ∧ s.nmiAcceptable = true := by
  cases hold with
  | true => simp [State.pendingInterrupt]
  | false =>
    cases hn : s.nmiAcceptable with
    | true => simp [State.pendingInterrupt, hn]
    | false => by_cases hi : s.intAcceptable = true <;> simp [State.pendingInterrupt, hn, hi]

theorem State.pendingInterrupt_maskable_iff (s : State) (hold : Bool) :
    s.pendingInterrupt hold = some .maskable ↔ hold = false ∧ ¬s.nmiAcceptable = true ∧ s.intAcceptable = true := by
  cases hold with
  | true => simp [State.pendingInterrupt]
  | false =>
    cases hn : s.nmiAcceptable with
    | true => simp [State.pendingInterrupt, hn]
    | false => by_cases hi : s.intAcceptable = true <;> simp [State.pendingInterrupt, hn, hi]

/-- Settles O38: by the two acceptance tests. -/
theorem acceptanceTest : Obligations.AcceptanceTest := by
  intro s hold
  rw [State.pendingInterrupt_nonMaskable_iff, State.pendingInterrupt_maskable_iff, State.nmiAcceptable_iff,
    State.intAcceptable_iff]
  exact ⟨Iff.rfl, Iff.rfl⟩

/-! ### Entry -/

/-- The state in which the entry to an interrupt has pushed PC. -/
def State.entered (s : State) (k : InterruptKind) : State := (s.setEnable k false).pushed s.pc

theorem State.setEnable_platform (s : State) (k : InterruptKind) (b : Bool) : samePlatform s (s.setEnable k b) :=
  .of_eq (State.setEnable_params ..) (State.setEnable_cts ..) (State.setEnable_pios ..) (State.setEnable_dmas ..)

theorem State.entered_platform (s : State) (k : InterruptKind) : samePlatform s (s.entered k) :=
  (s.setEnable_platform k false).trans ((s.setEnable k false).pushed_platform s.pc)

theorem State.slot_setEnable (s : State) (k : InterruptKind) (b : Bool) : (s.setEnable k b).slot = s.slot := by
  rw [State.slot, State.getReg_setEnable, State.slot]

theorem State.pushPc_setEnable {s : State} (k : InterruptKind) (h : s.memoryBacked s.slot .word = true) :
    (s.setEnable k false).pushPc = .ok (s.entered k) := by
  have hb : (s.setEnable k false).memoryBacked (s.setEnable k false).slot .word = true := by
    rw [State.slot_setEnable, State.memoryBacked_congr (s.setEnable_platform k false), h]
  rw [State.pushPc_eq_pushed hb, State.setEnable_pc]
  rfl

theorem takeInterrupt_nonMaskable {s : State} (h : s.memoryBacked s.slot .word = true) :
    s.takeInterrupt .nonMaskable = .ok ((s.entered .nonMaskable).setPc nmiEntry) := by
  simp only [State.takeInterrupt, State.pushPc_setEnable .nonMaskable h, State.enterHandler]

theorem takeInterrupt_maskable {s : State} (h : s.memoryBacked s.slot .word = true)
    (h8 : s.memoryBacked 8#32 .word = true) :
    s.takeInterrupt .maskable =
      .ok ((s.entered .maskable).setPc ((s.entered .maskable).loadBytes 8#32 .word)) := by
  have hvector : (s.entered .maskable).memoryBacked (align intVectorAddr .word) .word = true :=
    (State.memoryBacked_congr (s.entered_platform .maskable) _ _).trans h8
  simp only [State.takeInterrupt, State.pushPc_setEnable .maskable h, State.enterHandler, State.memRead_memory hvector]
  rfl

/-- The stack and the memory that an entry leaves, wherever control goes. -/
theorem entered_stack (s : State) (k : InterruptKind) (v : Word) :
    ((s.entered k).setPc v).getReg .r7 = s.getReg .r7 - 4#32 ∧ sameRegsBut [.r7] s ((s.entered k).setPc v) ∧
      leValue ((s.entered k).setPc v) s.slot 4 = s.pc.toNat ∧
      sameMemoryOutside s.slot 4 s ((s.entered k).setPc v) ∧ sameUnits s ((s.entered k).setPc v) := by
  have hle := (s.setEnable k false).pushed_leValue s.pc
  have hout := (s.setEnable k false).pushed_outside s.pc
  rw [State.slot_setEnable] at hle hout
  refine ⟨?stack, ?regs, hle, fun b hb => (hout b hb).trans (State.byteAt_of_mem_eq (State.setEnable_mem ..) b),
    State.setEnable_cts .., State.setEnable_pios .., State.setEnable_dmas ..⟩
  case stack =>
    rw [State.setPc_getReg, State.entered, State.pushed_getReg, if_pos rfl, State.getReg_setEnable]
  case regs =>
    intro r hr
    rw [State.setPc_getReg, State.entered, State.pushed_getReg, if_neg (List.ne_of_not_mem_cons hr),
      State.getReg_setEnable]

/-- Settles O40: the step takes the interrupt, whose entry pushes PC on a stack in memory. -/
theorem nonMaskableEntry : Obligations.NonMaskableEntry := by
  intro s s1 hfree hhold hnmi hiif hb
  have hk : s1.pendingInterrupt s.boundary.hold = some .nonMaskable :=
    (acceptanceTest s1 s.boundary.hold).1.mpr ⟨hhold, hnmi, hiif⟩
  obtain ⟨h7, hregs, hle, hout, hunits⟩ := entered_stack s1 .nonMaskable nmiEntry
  refine ⟨(s1.entered .nonMaskable).setPc nmiEntry, ?_, rfl, rfl, rfl, h7, hregs, hle, hout, hunits, rfl, rfl, rfl⟩
  rw [step_of_interrupt hfree hk, takeInterrupt_nonMaskable hb]
  rfl

/-- Settles O41: the same entry, with the handler's address read from the word at 8 after the push. -/
theorem maskableEntry : Obligations.MaskableEntry := by
  intro s s1 hfree hhold hnmi hint hgie hiif hb h8
  have hk : s1.pendingInterrupt s.boundary.hold = some .maskable :=
    (acceptanceTest s1 s.boundary.hold).2.mpr ⟨hhold, hnmi, hint, hgie, hiif⟩
  obtain ⟨h7, hregs, hle, hout, hunits⟩ :=
    entered_stack s1 .maskable ((s1.entered .maskable).loadBytes 8#32 .word)
  refine ⟨(s1.entered .maskable).setPc ((s1.entered .maskable).loadBytes 8#32 .word), ?_,
    State.loadWord_toNat (s1.entered .maskable) 8#32, State.setGie_gie s1 false,
    fun j hj => srWithGie_other s1.sr false j hj, h7, hregs, hle, hout, hunits, rfl, rfl, rfl, rfl⟩
  rw [step_of_interrupt hfree hk, takeInterrupt_maskable hb h8]
  rfl

/-! ### Both at once -/

/-- With nothing from the environment a boundary changes nothing. -/
theorem State.afterBoundary_of_no_inputs {s : State} (h : s.inputs = []) : s.afterBoundary = .ok s := by
  have hs : { s with inputs := s.inputs.tail } = s := by rw [h, List.tail_nil, ← h]
  rw [State.afterBoundary, hs, State.boundary, h]
  rfl

theorem State.boundary_of_no_inputs {s : State} (h : s.inputs = []) : s.boundary = ⟨[], false⟩ := by
  rw [State.boundary, h]

theorem State.requests_congr {s t : State} (hu : sameUnits s t) (hp : t.params = s.params) :
    t.intRequest = s.intRequest ∧ t.nmiRequest = s.nmiRequest ∧ t.dmaHolds = s.dmaHolds := by
  obtain ⟨hc, hi, hd⟩ := hu
  simp only [State.intRequest, State.nmiRequest, State.dmaHolds, hc, hi, hd, hp, and_self]

/-- A byte of one aligned word is no byte of another. -/
theorem aligned_words_disjoint {a b : Word} (ha : a.toNat % 4 = 0) (hb : b.toNat % 4 = 0) (hne : a ≠ b) {i j : Nat}
    (hi : i < 4) (hj : j < 4) : a + BitVec.ofNat 32 i ≠ b + BitVec.ofNat 32 j := by
  intro h
  have h := congrArg BitVec.toNat h
  have hne : a.toNat ≠ b.toNat := fun e => hne (BitVec.eq_of_toNat_eq e)
  have := a.isLt
  have := b.isLt
  simp only [BitVec.toNat_add, BitVec.toNat_ofNat] at h
  omega

theorem align_word_mod (a : Word) : (align a .word).toNat % 4 = 0 := by
  rw [align_toNat_mul]
  exact Nat.mul_mod_left _ 4

/-- A change confined to one aligned word leaves the value of another. -/
theorem leValue_of_outside {s t : State} {a b : Word} (h : sameMemoryOutside b 4 s t) (ha : a.toNat % 4 = 0)
    (hb : b.toNat % 4 = 0) (hne : a ≠ b) : leValue t a 4 = leValue s a 4 :=
  leValue_congr a 4 fun _ hi => h _ fun _ hj => aligned_words_disjoint ha hb hne hi hj

/-- Two consecutive stack slots are different words. -/
theorem slots_ne (a : Word) : align (a - 4#32) .word ≠ align (a - 8#32) .word := by
  intro h
  have h := congrArg BitVec.toNat h
  have := a.isLt
  rw [align_toNat_mul, align_toNat_mul] at h
  simp only [Width.bytes, BitVec.toNat_sub, BitVec.toNat_ofNat] at h
  omega

/-- Settles O42: the non-maskable entry leaves the maskable request acceptable, so the next step takes it. -/
theorem nonMaskableFirstThenMaskable : Obligations.NonMaskableFirstThenMaskable := by
  intro s hin hd hh hnmi hiif hint hgie hblocks hb4 hb8 hbv
  obtain ⟨t, ht, htpc, htiif, htsr, ht7, -, htle, htout, htunits, hthalt, htparams, htin⟩ :=
    nonMaskableEntry s s ⟨State.afterBoundary_of_no_inputs hin, hd, hh⟩ (by rw [State.boundary_of_no_inputs hin])
      hnmi hiif hb4
  obtain ⟨htint, -, htd⟩ := State.requests_congr htunits htparams
  obtain ⟨htc, htp, htdm⟩ := htunits
  have hpl : samePlatform s t := .of_eq htparams htc htp htdm
  have htin : t.inputs = [] := htin.trans hin
  have h78 : t.getReg .r7 - 4#32 = s.getReg .r7 - 8#32 := by rw [ht7]; bv_omega
  obtain ⟨u, hu, hupc, hugie, -, hu7, -, hule, huout, -, huiif, -⟩ :=
    maskableEntry t t ⟨State.afterBoundary_of_no_inputs htin, htd.trans hd, hthalt.trans hh⟩
      (by rw [State.boundary_of_no_inputs htin]) (fun h => Bool.false_ne_true (htiif.symm.trans h.2))
      (htint.trans hint) ((State.gie_of_sr htsr).trans hgie)
      (fun h => absurd (hblocks.symm.trans (htparams ▸ h)) Bool.false_ne_true)
      ((State.memoryBacked_congr hpl _ _).trans (h78 ▸ hb8)) ((State.memoryBacked_congr hpl _ _).trans hbv)
  rw [h78] at hule hu7 huout
  refine ⟨t, u, ht, hu, htpc, htiif, hupc, hugie, huiif.trans htiif, hu7, ?_, hule.trans (congrArg BitVec.toNat htpc)⟩
  rw [leValue_of_outside huout (align_word_mod _) (align_word_mod _) (slots_ne _), htle]

/-! ### Return -/

/-- Everything an entry over a stack in memory leaves: PC pushed, some handler's address in PC. -/
theorem takeInterrupt_entered {s t : State} {k : InterruptKind} (h : s.memoryBacked s.slot .word = true)
    (ht : s.takeInterrupt k = .ok t) : ∃ v n, t = State.setPc { s.entered k with draws := n } v := by
  simp only [State.takeInterrupt, State.pushPc_setEnable k h] at ht
  cases k with
  | nonMaskable => cases ht; exact ⟨nmiEntry, (s.entered .nonMaskable).draws, rfl⟩
  | maskable =>
    simp only [State.enterHandler] at ht
    split at ht
    case h_1 => cases ht
    case h_2 v s1 hr =>
      obtain ⟨n, rfl⟩ := State.memRead_state hr
      cases ht
      exact ⟨v, n, rfl⟩

/-- The pop of the return finds what the entry pushed, and the return sets the enable that the entry cleared. -/
theorem return_of_entered {s t : State} {k : InterruptKind} (h : s.memoryBacked s.slot .word = true)
    (ht : s.takeInterrupt k = .ok t) :
    ∃ u, t.when .always (finish (t.returnFrom k)) = .next u ∧ u.pc = s.pc ∧ u.regs = s.regs ∧
      u.sr = ((s.setEnable k false).setEnable k true).sr ∧ u.iif = ((s.setEnable k false).setEnable k true).iif := by
  obtain ⟨v, n, rfl⟩ := takeInterrupt_entered h ht
  have hslot : (s.setEnable k false).memoryBacked (s.setEnable k false).slot .word = true := by
    rw [State.slot_setEnable, State.memoryBacked_congr (s.setEnable_platform k false), h]
  obtain ⟨hb, hpc, hregs⟩ := popped_of_pushed (t := State.setPc { s.entered k with draws := n } v) (v := s.pc) hslot
    rfl rfl (.of_eq rfl rfl rfl rfl)
  refine ⟨_, when_returnFrom_memory rfl hb k, (State.setEnable_pc ..).trans hpc, ?_, ?_, ?_⟩
  · rw [State.setEnable_regs, hregs, State.setEnable_regs]
  · cases k <;> rfl
  · cases k <;> rfl

/-- Settles O43: the enable was set before the entry, so clearing and setting it restores SR and IIF. -/
theorem returnUndoesEntry : Obligations.ReturnUndoesEntry := by
  intro s t h
  refine ⟨fun ht hgie => ?maskable, fun ht hiif => ?nonMaskable⟩
  case maskable =>
    obtain ⟨u, hu, hpc, hregs, hsr, hiif⟩ := return_of_entered h ht
    exact ⟨u, hu, hpc, hregs, hsr.trans (State.setGie_setGie_true_of_gie s.sr hgie), hiif⟩
  case nonMaskable =>
    obtain ⟨u, hu, hpc, hregs, hsr, hiif'⟩ := return_of_entered h ht
    exact ⟨u, hu, hpc, hregs, hsr, hiif'.trans hiif.symm⟩

end Sys2Proof.Machine

/-! SUPPORT. What the units do on their own at a boundary (60_exceptions.md R234, R243, R244): the counting
of FRISC-CT, the modes of FRISC-PIO and its bit test. -/

namespace Sys2Proof.Machine

/-! ### Sequences of events -/

theorem State.applyEvents_append {s t : State} {es : List Event} (h : s.applyEvents es = .ok t) (fs : List Event) :
    s.applyEvents (es ++ fs) = t.applyEvents fs := by
  induction es generalizing s with
  | nil => cases h; rfl
  | cons e es ih =>
    simp only [State.applyEvents, List.cons_append] at h ⊢
    split at h
    case h_1 => cases h
    case h_2 s1 he => exact ih h

theorem State.applyEvents_singleton (s : State) (e : Event) : s.applyEvents [e] = s.applyEvent e := by
  cases h : s.applyEvent e <;> simp only [State.applyEvents, h]

/-- Writing back the unit that stands at a place changes nothing. -/
theorem set_same_unit {α : Type} {l : List α} {j : Nat} {u : α} (h : l[j]? = some u) : l.set j u = l := by
  obtain ⟨hj, rfl⟩ := List.getElem?_eq_some_iff.mp h
  exact List.set_getElem_self hj

theorem get_set_unit {α : Type} {l : List α} {j : Nat} {u : α} (h : l[j]? = some u) (v : α) :
    (l.set j v)[j]? = some v := by
  obtain ⟨hj, -⟩ := List.getElem?_eq_some_iff.mp h
  exact List.getElem?_set_self hj

/-! ### FRISC-CT -/

theorem Ct.pulse_stopped {u : Ct} (h : u.cr.getLsbD 0 = false) (n : Nat) : u.pulse n = (u, 0) := by
  simp only [Ct.pulse, Ct.running, h]
  rfl

theorem Ct.pulse_counting {u : Ct} (h : u.cr.getLsbD 0 = true) (hl : u.lr ≠ 0#16) (n : Nat) :
    u.pulse n = if u.dc - 1#16 = 0#16 then ({ u with dc := u.lr, status := true }, 0)
      else ({ u with dc := u.dc - 1#16 }, 0) := by
  simp only [Ct.pulse, Ct.running, h, Bool.not_true, Bool.false_eq_true, if_false, hl]

/-- The counter after `n` pulses from `DC = LR`, at most `LR` of them (R234). -/
def Ct.afterPulses (u : Ct) (n : Nat) : Ct :=
  if n = u.lr.toNat then { u with status := true } else { u with dc := u.lr - BitVec.ofNat 16 n }

theorem Ct.afterPulses_zero {u : Ct} (hl : u.lr ≠ 0#16) (hdc : u.dc = u.lr) : u.afterPulses 0 = u := by
  have hne : ¬0 = u.lr.toNat := fun h => hl (BitVec.eq_of_toNat_eq h.symm)
  have hstart : u.lr - BitVec.ofNat 16 0 = u.dc := (BitVec.sub_zero u.lr).trans hdc.symm
  rw [Ct.afterPulses, if_neg hne, hstart]

theorem Ct.pulse_afterPulses {u : Ct} (h : u.cr.getLsbD 0 = true) (hl : u.lr ≠ 0#16) (hdc : u.dc = u.lr) {n : Nat}
    (hn : n < u.lr.toNat) (draws : Nat) : (u.afterPulses n).pulse draws = (u.afterPulses (n + 1), 0) := by
  have hlt := u.lr.isLt
  have hlast : u.lr - BitVec.ofNat 16 n - 1#16 = 0#16 ↔ n + 1 = u.lr.toNat := by
    rw [BitVec.toNat_eq]
    simp only [BitVec.toNat_sub, BitVec.toNat_ofNat]
    omega
  have hnext : u.lr - BitVec.ofNat 16 n - 1#16 = u.lr - BitVec.ofNat 16 (n + 1) := by
    apply BitVec.eq_of_toNat_eq
    simp only [BitVec.toNat_sub, BitVec.toNat_ofNat]
    omega
  rw [Ct.afterPulses, if_neg (by omega),
    Ct.pulse_counting (u := { u with dc := u.lr - BitVec.ofNat 16 n }) h hl, Ct.afterPulses]
  simp only [hlast]
  split
  · rw [← hdc]
  · rw [hnext]

theorem State.ctPulse_eq {s : State} {j : Nat} {u v : Ct} (hj : s.cts[j]? = some u) (hp : u.pulse s.draws = (v, 0)) :
    s.applyEvent (.ctPulse j) = .ok { s with cts := s.cts.set j v } := by
  simp only [State.applyEvent, hj, hp]
  rfl

/-- Settles O55: by induction on the number of pulses. -/
theorem counterFiresOnceEveryLrPulses : Obligations.CounterFiresOnceEveryLrPulses := by
  intro s j n u hj hl hdc hn
  refine ⟨fun hrun => ⟨_, ?counting, rfl⟩, fun hstop => ?stopped⟩
  case counting =>
    show _ = Except.ok { s with cts := s.cts.set j (u.afterPulses n) }
    induction n with
    | zero =>
      rw [Ct.afterPulses_zero hl hdc, set_same_unit hj]
      rfl
    | succ n ih =>
      rw [List.replicate_succ', State.applyEvents_append (ih (by omega)), State.applyEvents_singleton,
        State.ctPulse_eq (get_set_unit hj _) (Ct.pulse_afterPulses hrun hl hdc (by omega) _), List.set_set]
  case stopped =>
    clear hn
    induction n with
    | zero => rfl
    | succ n ih =>
      rw [List.replicate_succ', State.applyEvents_append ih, State.applyEvents_singleton,
        State.ctPulse_eq hj (Ct.pulse_stopped hstop _), set_same_unit hj]

/-! ### FRISC-PIO -/

theorem Pio.mode_eq_output_iff (u : Pio) : u.mode = .output ↔ u.ctl.extractLsb' 0 2 = 0#2 := by
  rw [Pio.mode]
  generalize u.ctl = c
  revert c
  decide

theorem Pio.mode_eq_input_iff (u : Pio) : u.mode = .input ↔ u.ctl.extractLsb' 0 2 = 1#2 := by
  rw [Pio.mode]
  generalize u.ctl = c
  revert c
  decide

theorem Pio.taken_of_not_output {u : Pio} (h : u.mode ≠ .output) : u.taken = u := if_neg h

theorem State.pioTaken_eq {s : State} {j : Nat} {u : Pio} (hj : s.pios[j]? = some u) :
    s.applyEvent (.pioTaken j) = .ok { s with pios := s.pios.set j u.taken } := by
  simp only [State.applyEvent, hj]
  rfl

theorem State.pioInput_eq {s : State} {j : Nat} {u v : Pio} {b : Byte} {strobe : Bool} {n : Nat}
    (hj : s.pios[j]? = some u) (hin : u.input s.draws b strobe = (v, n)) :
    s.applyEvent (.pioInput j b strobe) = .ok { s with pios := s.pios.set j v, draws := s.draws + n } := by
  simp only [State.applyEvent, hj, hin]
  rfl

/-- Settles O58: each mode's branch of `taken` and `input`; writing back the same unit changes nothing. -/
theorem portEventsFollowTheMode : Obligations.PortEventsFollowTheMode := by
  intro s j u b strobe hj
  have untouched : u.mode ≠ .output → s.applyEvent (.pioTaken j) = .ok s := fun h => by
    rw [State.pioTaken_eq hj, Pio.taken_of_not_output h, set_same_unit hj]
  have ignored : u.input s.draws b strobe = (u, 0) → s.applyEvent (.pioInput j b strobe) = .ok s := fun h => by
    rw [State.pioInput_eq hj h, set_same_unit hj]
    rfl
  refine ⟨fun h => ?output, fun h => ?input, fun h => ?bitSet, fun h => ?bitTest⟩
  case output =>
    have hm := u.mode_eq_output_iff.mpr h
    refine ⟨?_, ignored (by simp only [Pio.input, hm])⟩
    rw [State.pioTaken_eq hj, Pio.taken, if_pos hm]
  case input =>
    have hm := u.mode_eq_input_iff.mpr h
    refine ⟨untouched (by simp [hm]), ?_⟩
    rw [State.pioInput_eq hj (by simp only [Pio.input, hm]; rfl)]
    rfl
  case bitSet =>
    have hm := u.mode_eq_bitSet_iff.mpr h
    exact ⟨untouched (by simp [hm]), ignored (by simp only [Pio.input, hm])⟩
  case bitTest =>
    have hm := u.mode_eq_bitTest_iff.mpr h
    refine ⟨untouched (by simp [hm]), fun hmask => ?_⟩
    exact ⟨_, u.unspecified s.draws,
      State.pioInput_eq hj (by simp only [Pio.input, hm, Pio.testCondition_none b hmask]; rfl), rfl, rfl, rfl⟩

/-- The bit test of a byte that the outside puts on the lines (R243, R244): with the reading of log 29. -/
theorem Pio.input_bitTest {u : Pio} (hmode : u.ctl.extractLsb' 0 2 = 3#2) (hmask : u.mask ≠ 0#8) (n : Nat) (b : Byte)
    (strobe : Bool) :
    (u.ConditionHolds b ∧ u.input n b strobe = ({ u with lines := b, status := true }, 0)) ∨
    (¬u.ConditionHolds b ∧ (u.status = true ∧ u.ConditionHolds u.lines) ∧ u.input n b strobe = (u, 0)) ∨
    (¬u.ConditionHolds b ∧ ¬(u.status = true ∧ u.ConditionHolds u.lines) ∧
      u.input n b strobe = ({ u with lines := b }, 0)) := by
  have hm := u.mode_eq_bitTest_iff.mpr hmode
  obtain ⟨c, hc, hb⟩ := u.testCondition_spec b hmask
  obtain ⟨l, hl, hlines⟩ := u.testCondition_spec u.lines hmask
  have hstands : u.conditionStands = true ↔ u.status = true ∧ u.ConditionHolds u.lines := by
    rw [Pio.conditionStands, hl, Bool.and_eq_true, ← hlines, beq_iff_eq, Option.some_inj]
  rw [← hb, ← hstands]
  cases c with
  | true => exact .inl ⟨rfl, by simp only [Pio.input, hm, hc]⟩
  | false =>
    cases hs : u.conditionStands with
    | true => exact .inr (.inl ⟨Bool.false_ne_true, rfl, by simp only [Pio.input, hm, hc, hs, if_true]⟩)
    | false => exact .inr (.inr ⟨Bool.false_ne_true, Bool.false_ne_true,
        by simp only [Pio.input, hm, hc, hs, Bool.false_eq_true, if_false]⟩)

/-- In bit-testing mode a read of DR gives the levels of the lines. -/
theorem Pio.read_lines {v : Pio} (hmode : v.ctl.extractLsb' 0 2 = 3#2) :
    ∃ x, v.read 1 = some x ∧ x.toNat = v.lines.toNat := by
  obtain ⟨x, hx, hnat⟩ := v.read_data
  exact ⟨x, hx, hnat.trans (if_pos hmode)⟩

/-- Settles O56: the three outcomes of the bit test. -/
theorem bitTestSetsStatus : Obligations.BitTestSetsStatus := by
  intro s j u b strobe hj hmode hmask
  rcases Pio.input_bitTest hmode hmask s.draws b strobe with ⟨hb, hin⟩ | ⟨hb, hstands, hin⟩ | ⟨hb, hstands, hin⟩
  · exact ⟨_, _, State.pioInput_eq hj hin, rfl, rfl, ⟨fun _ => .inr hb, fun _ => rfl⟩, fun _ => rfl,
      fun _ _ hn => absurd hb hn, Pio.read_lines hmode⟩
  · exact ⟨_, _, State.pioInput_eq hj hin, rfl, rfl, ⟨.inl, fun h => h.elim id fun h => absurd h hb⟩,
      fun h => h.elim (fun h => absurd h hb) fun h => absurd hstands h, fun _ _ _ => rfl, Pio.read_lines hmode⟩
  · exact ⟨_, _, State.pioInput_eq hj hin, rfl, rfl, ⟨.inl, fun h => h.elim id fun h => absurd h hb⟩,
      fun _ => rfl, fun hs hl _ => absurd ⟨hs, hl⟩ hstands, Pio.read_lines hmode⟩

/-- `v` is `u` but for its lines, which satisfy the condition. -/
def Pio.StandsAs (u v : Pio) : Prop := v = { u with lines := v.lines } ∧ v.ConditionHolds v.lines

theorem Pio.StandsAs.trans {u v w : Pio} (h : u.StandsAs v) (k : v.StandsAs w) : u.StandsAs w := by
  obtain ⟨hv, -⟩ := h
  obtain ⟨hw, hc⟩ := k
  refine ⟨?_, hc⟩
  rw [hv] at hw
  exact hw

/-- Events that are none of the port's own, no datum and no port's free state, leave the port alone. -/
theorem State.applyEvent_other {s : State} {j : Nat} {e : Event} (hdatum : ∀ k, e ≠ .dmaDatum k)
    (hwild : ∀ k v, e ≠ .pioWild k v) (htaken : e ≠ .pioTaken j) (hinput : ∀ b strobe, e ≠ .pioInput j b strobe) :
    ∃ t, s.applyEvent e = .ok t ∧ t.pios[j]? = s.pios[j]? := by
  cases e with
  | dmaDatum k => exact absurd rfl (hdatum k)
  | pioWild k v => exact absurd rfl (hwild k v)
  | ctPulse k =>
    simp only [State.applyEvent]
    split <;> exact ⟨_, rfl, rfl⟩
  | ctWild k v | dmaWild k v =>
    simp only [State.applyEvent]
    split
    · split <;> exact ⟨_, rfl, rfl⟩
    · exact ⟨_, rfl, rfl⟩
  | pioTaken k =>
    have hk : k ≠ j := fun h => htaken (by rw [h])
    simp only [State.applyEvent]
    split
    · exact ⟨_, rfl, List.getElem?_set_ne hk⟩
    · exact ⟨_, rfl, rfl⟩
  | pioInput k b strobe =>
    have hk : k ≠ j := fun h => hinput b strobe (by rw [h])
    simp only [State.applyEvent]
    split
    · exact ⟨_, rfl, List.getElem?_set_ne hk⟩
    · exact ⟨_, rfl, rfl⟩

/-- Events other than a datum and a port's free state keep a port whose condition stands. -/
theorem State.applyEvent_standsAs {s : State} {j : Nat} {u : Pio} {e : Event} (hj : s.pios[j]? = some u)
    (hmode : u.ctl.extractLsb' 0 2 = 3#2) (hmask : u.mask ≠ 0#8) (hstatus : u.status = true)
    (hlines : u.ConditionHolds u.lines) (hdatum : ∀ k, e ≠ .dmaDatum k) (hwild : ∀ k v, e ≠ .pioWild k v) :
    ∃ t v, s.applyEvent e = .ok t ∧ t.pios[j]? = some v ∧ u.StandsAs v := by
  have self : u.StandsAs u := ⟨rfl, hlines⟩
  by_cases htaken : e = .pioTaken j
  · subst htaken
    have hm : u.mode ≠ .output := by rw [u.mode_eq_bitTest_iff.mpr hmode]; decide
    refine ⟨_, u, State.pioTaken_eq hj, ?_, self⟩
    rw [Pio.taken_of_not_output hm]
    exact get_set_unit hj u
  · by_cases hinput : ∃ b strobe, e = .pioInput j b strobe
    · obtain ⟨b, strobe, rfl⟩ := hinput
      rcases Pio.input_bitTest hmode hmask s.draws b strobe with ⟨hb, hin⟩ | ⟨-, -, hin⟩ | ⟨-, hstands, -⟩
      · exact ⟨_, _, State.pioInput_eq hj hin, get_set_unit hj _, by rw [← hstatus], hb⟩
      · exact ⟨_, _, State.pioInput_eq hj hin, get_set_unit hj _, self⟩
      · exact absurd ⟨hstatus, hlines⟩ hstands
    · obtain ⟨t, ht, hp⟩ := State.applyEvent_other (s := s) hdatum hwild htaken fun b st h => hinput ⟨b, st, h⟩
      exact ⟨t, u, ht, hp.trans hj, self⟩

/-- The same over any number of events. -/
theorem State.applyEvents_standsAs {s : State} {j : Nat} {u : Pio} {es : List Event} (hj : s.pios[j]? = some u)
    (hmode : u.ctl.extractLsb' 0 2 = 3#2) (hmask : u.mask ≠ 0#8) (hstatus : u.status = true)
    (hlines : u.ConditionHolds u.lines) (hes : ∀ e ∈ es, (∀ k, e ≠ .dmaDatum k) ∧ ∀ k v, e ≠ .pioWild k v) :
    ∃ t v, s.applyEvents es = .ok t ∧ t.pios[j]? = some v ∧ u.StandsAs v := by
  induction es generalizing s u with
  | nil => exact ⟨s, u, rfl, hj, rfl, hlines⟩
  | cons e es ih =>
    obtain ⟨hdatum, hwild⟩ := hes e List.mem_cons_self
    obtain ⟨s1, u1, he, hj1, hu1, hc1⟩ := State.applyEvent_standsAs hj hmode hmask hstatus hlines hdatum hwild
    obtain ⟨t, v, ht, hjt, hst⟩ := ih hj1 (by rw [hu1]; exact hmode) (by rw [hu1]; exact hmask)
      (by rw [hu1]; exact hstatus) hc1 fun e he => hes e (List.mem_cons_of_mem _ he)
    exact ⟨t, v, by simp only [State.applyEvents, he, ht], hjt, Pio.StandsAs.trans ⟨hu1, hc1⟩ hst⟩

/-- Settles O57: the port stands through the events, and its DR reads as its lines. -/
theorem testedByteSatisfiesTheCondition : Obligations.TestedByteSatisfiesTheCondition := by
  intro s j u es hj hmode hmask hstatus hlines hes
  obtain ⟨t, v, ht, hjt, hv, hc⟩ := State.applyEvents_standsAs hj hmode hmask hstatus hlines hes
  obtain ⟨x, hx, hnat⟩ := Pio.read_lines (v := v) (by rw [hv]; exact hmode)
  exact ⟨t, v, x, ht, hjt, hv, hc, hx, hnat⟩

end Sys2Proof.Machine

/-! SUPPORT. FRISC-DMA (60_exceptions.md R253, R254): one datum between words of memory, and by induction on the counter
a whole transfer in halting mode. -/

namespace Sys2Proof.Machine

/-! ### One datum -/

/-- The state after a datum between words of memory. -/
def State.datumMoved (s : State) (k : Nat) (u : Dma) : State :=
  { s with
    mem := storeBytes s.mem (align u.dst .word) (s.loadBytes (align u.src .word) .word) .word
    dmas := s.dmas.set k u.advance }

theorem State.dmaMove_memory {s : State} {k : Nat} {u : Dma} (hk : s.dmas[k]? = some u) (hb : u.busy = true)
    (hs : s.memoryBacked (align u.src .word) .word = true) (hd : s.memoryBacked (align u.dst .word) .word = true) :
    s.dmaMove k = .ok (s.datumMoved k u) := by
  simp only [State.dmaMove, hk, hb, Bool.not_true, Bool.false_eq_true, if_false, State.memRead_memory hs,
    State.memWrite_memory hd]
  rfl

theorem Dma.advance_busy {u : Dma} (hb : u.busy = true) :
    u.advance = { u with
      src := if u.cr.getLsbD 2 then u.src else u.src + 4#32
      dst := if u.cr.getLsbD 3 then u.dst else u.dst + 4#32
      cnt := u.cnt - 1#32
      busy := decide (u.cnt ≠ 1#32)
      status := u.status || decide (u.cnt = 1#32) } := by
  have hlast : (u.cnt - 1#32 == 0#32) = decide (u.cnt = 1#32) := by
    rw [beq_eq_decide]
    exact decide_eq_decide.mpr sub_eq_zero
  have hmore : (u.cnt - 1#32 != 0#32) = decide (u.cnt ≠ 1#32) := by
    rw [bne, hlast]
    exact (decide_not).symm
  simp only [Dma.advance, Dma.srcExternal, Dma.dstExternal, hb, Bool.true_and, hlast, hmore]
  rfl

theorem State.datumMoved_leValue (s : State) (k : Nat) (u : Dma) :
    leValue (s.datumMoved k u) (align u.dst .word) 4 = leValue s (align u.src .word) 4 := by
  rw [← State.loadWord_toNat, ← State.loadWord_toNat]
  exact congrArg BitVec.toNat (State.loadBytes_store s _ _)

theorem State.datumMoved_outside (s : State) (k : Nat) (u : Dma) :
    sameMemoryOutside (align u.dst .word) 4 s (s.datumMoved k u) :=
  fun b hb => State.byteAt_store_outside s _ _ b .word hb

/-- Settles O59: the datum is a word load, a word store and the advance of the registers. -/
theorem dmaMovesOneDatum : Obligations.DmaMovesOneDatum := by
  intro s j u hj hb hs hd
  exact ⟨s.datumMoved j u, State.dmaMove_memory hj hb hs hd, s.datumMoved_leValue j u, s.datumMoved_outside j u,
    ⟨rfl, rfl, rfl, rfl, rfl⟩, rfl, rfl, congrArg (s.dmas.set j) (Dma.advance_busy hb)⟩

/-! ### A transfer in halting mode -/

theorem run_succ {s t : State} (h : step s = .next t) (n : Nat) :
    Host.Core.run Sys2Proof.core (n + 1) s = Host.Core.run Sys2Proof.core n t := by
  have hcore : Host.Core.step Sys2Proof.core s = .next t := h
  simp only [Host.Core.run, hcore]

/-- A FRISC-DMA, alone of its kind, that moves words of memory while the processor stands still. -/
structure Dma.Transfers (u : Dma) : Prop where
  busy : u.busy = true
  halting : u.cr.getLsbD 1 = false
  fromMemory : u.cr.getLsbD 2 = false
  toMemory : u.cr.getLsbD 3 = false

/-- The registers after one datum of such a transfer. -/
theorem Dma.Transfers.advance {u : Dma} (h : u.Transfers) :
    u.advance = { u with
      src := u.src + 4#32
      dst := u.dst + 4#32
      cnt := u.cnt - 1#32
      busy := decide (u.cnt ≠ 1#32)
      status := u.status || decide (u.cnt = 1#32) } := by
  rw [Dma.advance_busy h.busy, h.fromMemory, h.toMemory]
  rfl

/-- One step of the transfer is one datum. -/
theorem Dma.Transfers.step_eq {s : State} {u : Dma} (h : u.Transfers) (hu : s.dmas = [u]) (hin : s.inputs = [])
    (hs : s.memoryBacked (align u.src .word) .word = true) (hd : s.memoryBacked (align u.dst .word) .word = true) :
    step s = .next (s.datumMoved 0 u) := by
  have hholds : u.holdsProcessor = true := by
    rw [Dma.holdsProcessor, Dma.stealing, h.busy, h.halting]
    rfl
  have hmem : u.memoryToMemory = true := by
    rw [Dma.memoryToMemory, Dma.srcExternal, Dma.dstExternal, h.fromMemory, h.toMemory]
    rfl
  have hmove : s.dmaMove 0 = .ok (s.datumMoved 0 u) := State.dmaMove_memory (by rw [hu]; rfl) h.busy hs hd
  have hheld : s.dmaHolds = true := by simp only [State.dmaHolds, hu, List.any_cons, hholds, Bool.true_or]
  have hhalted : s.dmaHalted = s.dmaMove 0 := by
    simp only [State.dmaHalted, hu, firstReady, hholds, hmem, Bool.and_self, if_true]
  simp only [step, State.afterBoundary_of_no_inputs hin, State.processorStep, hheld, hhalted, hmove, if_true, finish]

/-- Word `j` of a range that starts at an aligned address. -/
def wordAt (a : Word) (j : Nat) : Word := a + BitVec.ofNat 32 (4 * j)

theorem wordAt_zero (a : Word) : wordAt a 0 = a := BitVec.add_zero a

theorem wordAt_succ (a : Word) (j : Nat) : wordAt (a + 4#32) j = wordAt a (j + 1) := by
  rw [wordAt, wordAt, BitVec.add_assoc, ← BitVec.ofNat_add, Nat.add_comm, Nat.mul_succ]

theorem align_add_four (a : Word) : align (a + 4#32) .word = align a .word + 4#32 := by
  apply BitVec.eq_of_toNat_eq
  have := a.isLt
  rw [BitVec.toNat_add, align_toNat_mul, align_toNat_mul, BitVec.toNat_add]
  simp only [Width.bytes, BitVec.toNat_ofNat]
  omega

theorem wordAt_mod {a : Word} (ha : a.toNat % 4 = 0) (j : Nat) : (wordAt a j).toNat % 4 = 0 := by
  rw [wordAt, BitVec.toNat_add, BitVec.toNat_ofNat]
  omega

/-- Two ranges of `n` words from aligned addresses that share no word (R253). -/
def Apart (a b : Word) (n : Nat) : Prop := 4 * n ≤ (b - a).toNat ∧ 4 * n ≤ (a - b).toNat

theorem Dma.Transfers.apart {u : Dma} (h : u.Transfers) (ho : u.overlaps = false) :
    Apart (align u.src .word) (align u.dst .word) u.cnt.toNat := by
  simp only [Dma.overlaps, Dma.span, Dma.srcExternal, Dma.dstExternal, h.fromMemory, h.toMemory, Bool.false_eq_true,
    if_false, Bool.or_eq_false_iff, decide_eq_false_iff_not, Nat.not_lt] at ho
  exact ho

theorem apart_add_four {a b : Word} {n : Nat} (h : Apart a b (n + 1)) : Apart (a + 4#32) (b + 4#32) n := by
  obtain ⟨h1, h2⟩ := h
  rw [Apart, add_sub_add_right_eq_sub, add_sub_add_right_eq_sub]
  omega

/-- No word of the source range is the first word of the destination range. -/
theorem Apart.wordAt_ne {a b : Word} {n j : Nat} (h : Apart a b n) (hj : j < n) : wordAt a j ≠ b := by
  obtain ⟨h1, -⟩ := h
  rintro rfl
  rw [wordAt, BitVec.add_comm, BitVec.add_sub_cancel, BitVec.toNat_ofNat] at h1
  omega

/-- The first word of a range that does not wrap round onto itself is outside the rest of it. -/
theorem first_word_outside {b : Word} {n i k : Nat} (hn : 4 * (n + 1) ≤ 2 ^ 32) (hi : i < 4) (hk : k < 4 * n) :
    b + BitVec.ofNat 32 i ≠ b + 4#32 + BitVec.ofNat 32 k := by
  intro h
  have h := congrArg BitVec.toNat h
  have := b.isLt
  simp only [BitVec.toNat_add, BitVec.toNat_ofNat] at h
  omega

/-- The registers when a transfer of `n` words is over. -/
def Dma.finished (u : Dma) (n : Nat) : Dma :=
  { u with src := wordAt u.src n, dst := wordAt u.dst n, cnt := 0#32, busy := false, status := true }

theorem Dma.Transfers.advance_last {u : Dma} (h : u.Transfers) (hc : u.cnt.toNat = 1) : u.advance = u.finished 1 := by
  have hc : u.cnt = 1#32 := BitVec.eq_of_toNat_eq hc
  rw [h.advance, Dma.finished, hc]
  simp [wordAt]

theorem Dma.Transfers.finished_advance {u : Dma} (h : u.Transfers) (n : Nat) :
    u.advance.finished n = u.finished (n + 1) := by
  rw [h.advance, Dma.finished, Dma.finished, wordAt_succ, wordAt_succ]

/-- With more than one word to go the transfer goes on. -/
theorem Dma.Transfers.advance_transfers {u : Dma} (h : u.Transfers) (hc : 1 < u.cnt.toNat) : u.advance.Transfers := by
  have hne : u.cnt ≠ 1#32 := fun h1 => by rw [h1] at hc; exact absurd hc (by decide)
  rw [h.advance]
  exact ⟨decide_eq_true hne, h.halting, h.fromMemory, h.toMemory⟩

/-- The words from `a` on, as many as `n`, are memory. -/
def State.wordsBacked (s : State) (a : Word) (n : Nat) : Prop := ∀ j, j < n → s.memoryBacked (wordAt a j) .word = true

theorem State.wordsBacked_add_four {s t : State} {a : Word} {n : Nat} (hpl : samePlatform s t)
    (h : s.wordsBacked a (n + 1)) : t.wordsBacked (a + 4#32) n := fun j hj => by
  rw [wordAt_succ, State.memoryBacked_congr hpl]
  exact h (j + 1) (by omega)

theorem State.datumMoved_platform {s : State} {u : Dma} (hu : s.dmas = [u]) : samePlatform s (s.datumMoved 0 u) := by
  refine ⟨rfl, rfl, rfl, ?_, ?_⟩ <;> simp [State.datumMoved, hu]

/-- By induction on the number of words: the first step moves the first word, and the others move the rest, which leaves
the first word alone and finds the rest of the source as it was. -/
theorem transfer_completes (n : Nat) : ∀ (s : State) (u : Dma), s.dmas = [u] → s.inputs = [] → u.Transfers →
    u.cnt.toNat = n + 1 → Apart (align u.src .word) (align u.dst .word) (n + 1) →
    s.wordsBacked (align u.src .word) (n + 1) → s.wordsBacked (align u.dst .word) (n + 1) →
    ∃ t, Host.Core.run Sys2Proof.core (n + 1) s = .next t ∧
      (∀ j, j < n + 1 → leValue t (wordAt (align u.dst .word) j) 4 = leValue s (wordAt (align u.src .word) j) 4) ∧
      sameMemoryOutside (align u.dst .word) (4 * (n + 1)) s t ∧ sameProcessor s t ∧ t.dmas = [u.finished (n + 1)] := by
  induction n with
  | zero =>
    intro s u hu hin htr hcnt hap hs hd
    have hstep := htr.step_eq hu hin (wordAt_zero (align u.src .word) ▸ hs 0 (by decide))
      (wordAt_zero (align u.dst .word) ▸ hd 0 (by decide))
    refine ⟨s.datumMoved 0 u, run_succ hstep 0, fun j hj => ?_, s.datumMoved_outside 0 u, ⟨rfl, rfl, rfl, rfl, rfl⟩, ?_⟩
    · obtain rfl : j = 0 := by omega
      rw [wordAt_zero, wordAt_zero, State.datumMoved_leValue]
    · rw [← htr.advance_last hcnt]
      simp [State.datumMoved, hu]
  | succ n ih =>
    intro s u hu hin htr hcnt hap hs hd
    have hstep := htr.step_eq hu hin (wordAt_zero (align u.src .word) ▸ hs 0 (by omega))
      (wordAt_zero (align u.dst .word) ▸ hd 0 (by omega))
    have hu1 : (s.datumMoved 0 u).dmas = [u.advance] := by simp [State.datumMoved, hu]
    have hpl := State.datumMoved_platform hu
    have hsrc : align u.advance.src .word = align u.src .word + 4#32 := by rw [htr.advance]; exact align_add_four _
    have hdst : align u.advance.dst .word = align u.dst .word + 4#32 := by rw [htr.advance]; exact align_add_four _
    have hcnt1 : u.advance.cnt.toNat = n + 1 := by
      rw [htr.advance]
      show (u.cnt - 1#32).toNat = n + 1
      rw [BitVec.toNat_sub, BitVec.toNat_ofNat]
      omega
    have hroom : 4 * (n + 1 + 1) ≤ 2 ^ 32 := Nat.le_of_lt (Nat.lt_of_le_of_lt hap.1 (BitVec.isLt _))
    obtain ⟨t, hrun, hwords, hout, hproc, hdmas⟩ := ih (s.datumMoved 0 u) u.advance hu1 hin
      (htr.advance_transfers (by omega)) hcnt1 (by rw [hsrc, hdst]; exact apart_add_four hap)
      (by rw [hsrc]; exact State.wordsBacked_add_four hpl hs) (by rw [hdst]; exact State.wordsBacked_add_four hpl hd)
    rw [hdst] at hout
    rw [hsrc, hdst] at hwords
    refine ⟨t, (run_succ hstep (n + 1)).trans hrun, fun j hj => ?words, fun b hb => ?outside, ?processor, ?registers⟩
    case words =>
      cases j with
      | zero =>
        rw [wordAt_zero, wordAt_zero, ← s.datumMoved_leValue 0 u]
        exact leValue_congr _ 4 fun i hi => hout _ fun k hk => first_word_outside hroom hi hk
      | succ j =>
        rw [← wordAt_succ, hwords j (by omega), wordAt_succ]
        exact leValue_of_outside (s.datumMoved_outside 0 u) (wordAt_mod (align_word_mod _) _) (align_word_mod _)
          (hap.wordAt_ne hj)
    case outside =>
      rw [hout b fun k hk => ?_, s.datumMoved_outside 0 u b fun k hk => hb k (by omega)]
      rw [BitVec.add_assoc, ← BitVec.ofNat_add]
      exact hb (4 + k) (by omega)
    case processor =>
      have hfirst : sameProcessor s (s.datumMoved 0 u) := ⟨rfl, rfl, rfl, rfl, rfl⟩
      exact hfirst.trans hproc
    case registers => rw [hdmas, htr.finished_advance]

/-- Settles O60: `transfer_completes` with the ranges apart because the unit does not overlap. -/
theorem haltingTransferCopiesEveryWord : Obligations.HaltingTransferCopiesEveryWord := by
  intro n s u hu hin hb hcnt hpos h1 h2 h3 ho hbacked
  have htr : u.Transfers := ⟨hb, h1, h2, h3⟩
  obtain ⟨m, rfl⟩ : ∃ m, n = m + 1 := ⟨n - 1, by omega⟩
  exact transfer_completes m s u hu hin htr hcnt (hcnt ▸ htr.apart ho) (fun j hj => (hbacked j hj).1)
    fun j hj => (hbacked j hj).2

end Sys2Proof.Machine
